-- ==== Sys2Proof/Word.lean ====
section
/-! DEFINITION. The words of the CORE: bytes, 32-bit register words, the 35-bit bit cursor. -/

namespace Sys2Proof

/-- A byte of memory or of a stream (20_memory.md R200, R206). -/
abbrev Byte := BitVec 8

/-- A host register, an address or a length (10_state.md R101, 20_memory.md R201). -/
abbrev Word := BitVec 32

/-- The bit cursor: 35 bits (10_state.md R120). -/
abbrev BitCursor := BitVec 35

/-- The number of bytes of memory (20_memory.md R200). -/
abbrev memorySize : Nat := 2 ^ 32

end Sys2Proof
end

