-- ==== Sys2Proof/Config.lean ====
section
/-! DEFINITION. What an implementation or a platform fixes, and the free values: constants without a body, so that
no proof can see a value of one and every claim holds whatever it is. -/

namespace Sys2Proof

/-- The product code and revision read at offset 0 (10_state.md R103). -/
def Config.idWord : Word := 0x44460001

/-- What a byte of memory that nothing has written reads as. The spec leaves the initial contents of memory to the
platform (00_scope.md R10, 93 I16). DESIGN CHOICE, unsafe (log entry 1). -/
def Config.unlistedByte : Byte := 0

/-- The payload checksum: "a total function from a byte sequence to a u32, supplied by the environment"
(00_scope.md R12, 93 I14; log entry 2). -/
opaque Config.adler32 : List Byte → Word

/-- The platform address of the register window (00_scope.md R10, 93 I15; log entry 11). -/
opaque Config.mmioBase : Word

/-- The byte that a draw leaves at an address whose contents the spec calls unspecified (93 I1, I6, I10; log
entry 3): the first argument is the draw, the second the address. -/
opaque Config.freeByte : Nat → Nat → Byte

/-- A word the spec calls unspecified or does not state (93 I2, I5; log entries 9, 10 and 24). -/
opaque Config.freeWord : Nat → Word

/-- A count or a choice the spec leaves open (93 I5, I7, I9; log entries 7, 8 and 9). -/
opaque Config.freeNat : Nat → Nat

end Sys2Proof
end

