-- ==== Sys2Proof/Syntax.lean ====
section
/-! DEFINITION. The instructions of the CORE: one constructor for each row of spec/opcode_table.json, in the table's
order. Extra-bits fields, code-length fields and payloads are read by the meanings, as the rules read them. -/

namespace Sys2Proof

/-- The formats of 30_encoding.md R300 and R305. -/
inductive Format where
  | cmd | zhdr | blkhdr | stored | dynhdr | clsym | llsym | dsym | ztrl | filt
  deriving DecidableEq, Repr

/-- How many bits a format's value has (the opcode table's "width"). -/
def Format.width : Format → Nat
  | .cmd => 32
  | .zhdr => 16
  | .blkhdr => 3
  | .stored => 32
  | .dynhdr => 14
  | .clsym => 5
  | .llsym => 9
  | .dsym => 5
  | .ztrl => 32
  | .filt => 8

/-- Every row of the opcode table. -/
inductive Instr where
  /-- CMD, OP = 0x0 (40_commands.md R440). -/
  | nop
  /-- CMD, OP = 0x1 (40_commands.md R441). -/
  | inflate
  /-- CMD, OP = 0x2 (40_commands.md R442). -/
  | unfilter
  /-- CMD, OP = 0x3 (40_commands.md R443). -/
  | decode
  /-- CMD, OP = 0xF (40_commands.md R444). -/
  | abort
  /-- CMD, OP in 0x4..0xE (40_commands.md R445). -/
  | reservedCmd (op : BitVec 4)
  /-- ZHDR: the two header bytes (43_inflate.md R701). -/
  | zhdr (cmf flg : Byte)
  /-- BLKHDR, BTYPE = 0 (43_inflate.md R720). -/
  | blkStored (bfinal : Bool)
  /-- BLKHDR, BTYPE = 1 (43_inflate.md R724). -/
  | blkFixed (bfinal : Bool)
  /-- BLKHDR, BTYPE = 2 (43_inflate.md R725). -/
  | blkDynamic (bfinal : Bool)
  /-- BLKHDR, BTYPE = 3 (43_inflate.md R723). -/
  | blkReserved (bfinal : Bool)
  /-- STORED: LEN and NLEN (43_inflate.md R720 to R722). -/
  | stored (len nlen : BitVec 16)
  /-- DYNHDR: the three count fields as transmitted, without their offsets (30_encoding.md R322). -/
  | dynhdr (hlit hdist : BitVec 5) (hclen : BitVec 4)
  /-- CLSYM 0..15: a code length (43_inflate.md R707). -/
  | clsymLen (len : BitVec 4)
  /-- CLSYM 16 (43_inflate.md R708). -/
  | clsym16
  /-- CLSYM 17 (43_inflate.md R709). -/
  | clsym17
  /-- CLSYM 18 (43_inflate.md R710). -/
  | clsym18
  /-- LLSYM 0..255: a literal byte (44_symbols.md R801). -/
  | lit (b : Byte)
  /-- LLSYM 256 (44_symbols.md R802). -/
  | eob
  /-- LLSYM 257 (44_symbols.md R830). -/
  | len257
  /-- LLSYM 258 (44_symbols.md R831). -/
  | len258
  /-- LLSYM 259 (44_symbols.md R832). -/
  | len259
  /-- LLSYM 260 (44_symbols.md R833). -/
  | len260
  /-- LLSYM 261 (44_symbols.md R834). -/
  | len261
  /-- LLSYM 262 (44_symbols.md R835). -/
  | len262
  /-- LLSYM 263 (44_symbols.md R836). -/
  | len263
  /-- LLSYM 264 (44_symbols.md R837). -/
  | len264
  /-- LLSYM 265 (44_symbols.md R838). -/
  | len265
  /-- LLSYM 266 (44_symbols.md R839). -/
  | len266
  /-- LLSYM 267 (44_symbols.md R840). -/
  | len267
  /-- LLSYM 268 (44_symbols.md R841). -/
  | len268
  /-- LLSYM 269 (44_symbols.md R842). -/
  | len269
  /-- LLSYM 270 (44_symbols.md R843). -/
  | len270
  /-- LLSYM 271 (44_symbols.md R844). -/
  | len271
  /-- LLSYM 272 (44_symbols.md R845). -/
  | len272
  /-- LLSYM 273 (44_symbols.md R846). -/
  | len273
  /-- LLSYM 274 (44_symbols.md R847). -/
  | len274
  /-- LLSYM 275 (44_symbols.md R848). -/
  | len275
  /-- LLSYM 276 (44_symbols.md R849). -/
  | len276
  /-- LLSYM 277 (44_symbols.md R850). -/
  | len277
  /-- LLSYM 278 (44_symbols.md R851). -/
  | len278
  /-- LLSYM 279 (44_symbols.md R852). -/
  | len279
  /-- LLSYM 280 (44_symbols.md R853). -/
  | len280
  /-- LLSYM 281 (44_symbols.md R854). -/
  | len281
  /-- LLSYM 282 (44_symbols.md R855). -/
  | len282
  /-- LLSYM 283 (44_symbols.md R856). -/
  | len283
  /-- LLSYM 284 (44_symbols.md R857). -/
  | len284
  /-- LLSYM 285 (44_symbols.md R858). -/
  | len285
  /-- LLSYM 286 and 287 (44_symbols.md R805). -/
  | llReserved (s : BitVec 9)
  /-- DSYM 0 (44_symbols.md R860). -/
  | dist0
  /-- DSYM 1 (44_symbols.md R861). -/
  | dist1
  /-- DSYM 2 (44_symbols.md R862). -/
  | dist2
  /-- DSYM 3 (44_symbols.md R863). -/
  | dist3
  /-- DSYM 4 (44_symbols.md R864). -/
  | dist4
  /-- DSYM 5 (44_symbols.md R865). -/
  | dist5
  /-- DSYM 6 (44_symbols.md R866). -/
  | dist6
  /-- DSYM 7 (44_symbols.md R867). -/
  | dist7
  /-- DSYM 8 (44_symbols.md R868). -/
  | dist8
  /-- DSYM 9 (44_symbols.md R869). -/
  | dist9
  /-- DSYM 10 (44_symbols.md R870). -/
  | dist10
  /-- DSYM 11 (44_symbols.md R871). -/
  | dist11
  /-- DSYM 12 (44_symbols.md R872). -/
  | dist12
  /-- DSYM 13 (44_symbols.md R873). -/
  | dist13
  /-- DSYM 14 (44_symbols.md R874). -/
  | dist14
  /-- DSYM 15 (44_symbols.md R875). -/
  | dist15
  /-- DSYM 16 (44_symbols.md R876). -/
  | dist16
  /-- DSYM 17 (44_symbols.md R877). -/
  | dist17
  /-- DSYM 18 (44_symbols.md R878). -/
  | dist18
  /-- DSYM 19 (44_symbols.md R879). -/
  | dist19
  /-- DSYM 20 (44_symbols.md R880). -/
  | dist20
  /-- DSYM 21 (44_symbols.md R881). -/
  | dist21
  /-- DSYM 22 (44_symbols.md R882). -/
  | dist22
  /-- DSYM 23 (44_symbols.md R883). -/
  | dist23
  /-- DSYM 24 (44_symbols.md R884). -/
  | dist24
  /-- DSYM 25 (44_symbols.md R885). -/
  | dist25
  /-- DSYM 26 (44_symbols.md R886). -/
  | dist26
  /-- DSYM 27 (44_symbols.md R887). -/
  | dist27
  /-- DSYM 28 (44_symbols.md R888). -/
  | dist28
  /-- DSYM 29 (44_symbols.md R889). -/
  | dist29
  /-- DSYM 30 and 31 (44_symbols.md R892). -/
  | dReserved (d : BitVec 5)
  /-- ZTRL: the trailer value (43_inflate.md R713). -/
  | ztrl (adler : Word)
  /-- FILT 0 (45_filter.md R910). -/
  | filtNone
  /-- FILT 1 (45_filter.md R911). -/
  | filtSub
  /-- FILT 2 (45_filter.md R912). -/
  | filtUp
  /-- FILT 3 (45_filter.md R913). -/
  | filtAvg
  /-- FILT 4 (45_filter.md R914). -/
  | filtPaeth
  /-- FILT 5..255 (45_filter.md R915). -/
  | filtReserved (ft : Byte)
  deriving DecidableEq, Repr

/-- The format of an instruction's row. -/
def Instr.format : Instr → Format
  | .nop | .inflate | .unfilter | .decode | .abort | .reservedCmd _ => .cmd
  | .zhdr _ _ => .zhdr
  | .blkStored _ | .blkFixed _ | .blkDynamic _ | .blkReserved _ => .blkhdr
  | .stored _ _ => .stored
  | .dynhdr _ _ _ => .dynhdr
  | .clsymLen _ | .clsym16 | .clsym17 | .clsym18 => .clsym
  | .lit _ | .eob | .llReserved _ => .llsym
  | .len257 | .len258 | .len259 | .len260 | .len261 | .len262 | .len263 | .len264 | .len265 | .len266
  | .len267 | .len268 | .len269 | .len270 | .len271 | .len272 | .len273 | .len274 | .len275 | .len276
  | .len277 | .len278 | .len279 | .len280 | .len281 | .len282 | .len283 | .len284 | .len285 => .llsym
  | .dist0 | .dist1 | .dist2 | .dist3 | .dist4 | .dist5 | .dist6 | .dist7 | .dist8 | .dist9
  | .dist10 | .dist11 | .dist12 | .dist13 | .dist14 | .dist15 | .dist16 | .dist17 | .dist18 | .dist19
  | .dist20 | .dist21 | .dist22 | .dist23 | .dist24 | .dist25 | .dist26 | .dist27 | .dist28 | .dist29 => .dsym
  | .dReserved _ => .dsym
  | .ztrl _ => .ztrl
  | .filtNone | .filtSub | .filtUp | .filtAvg | .filtPaeth | .filtReserved _ => .filt

/-- The place of an instruction's row in spec/opcode_table.json, counted from 0. -/
def Instr.row : Instr → Nat
  | .nop => 0
  | .inflate => 1
  | .unfilter => 2
  | .decode => 3
  | .abort => 4
  | .reservedCmd _ => 5
  | .zhdr _ _ => 6
  | .blkStored _ => 7
  | .blkFixed _ => 8
  | .blkDynamic _ => 9
  | .blkReserved _ => 10
  | .stored _ _ => 11
  | .dynhdr _ _ _ => 12
  | .clsymLen _ => 13
  | .clsym16 => 14
  | .clsym17 => 15
  | .clsym18 => 16
  | .lit _ => 17
  | .eob => 18
  | .len257 => 19
  | .len258 => 20
  | .len259 => 21
  | .len260 => 22
  | .len261 => 23
  | .len262 => 24
  | .len263 => 25
  | .len264 => 26
  | .len265 => 27
  | .len266 => 28
  | .len267 => 29
  | .len268 => 30
  | .len269 => 31
  | .len270 => 32
  | .len271 => 33
  | .len272 => 34
  | .len273 => 35
  | .len274 => 36
  | .len275 => 37
  | .len276 => 38
  | .len277 => 39
  | .len278 => 40
  | .len279 => 41
  | .len280 => 42
  | .len281 => 43
  | .len282 => 44
  | .len283 => 45
  | .len284 => 46
  | .len285 => 47
  | .llReserved _ => 48
  | .dist0 => 49
  | .dist1 => 50
  | .dist2 => 51
  | .dist3 => 52
  | .dist4 => 53
  | .dist5 => 54
  | .dist6 => 55
  | .dist7 => 56
  | .dist8 => 57
  | .dist9 => 58
  | .dist10 => 59
  | .dist11 => 60
  | .dist12 => 61
  | .dist13 => 62
  | .dist14 => 63
  | .dist15 => 64
  | .dist16 => 65
  | .dist17 => 66
  | .dist18 => 67
  | .dist19 => 68
  | .dist20 => 69
  | .dist21 => 70
  | .dist22 => 71
  | .dist23 => 72
  | .dist24 => 73
  | .dist25 => 74
  | .dist26 => 75
  | .dist27 => 76
  | .dist28 => 77
  | .dist29 => 78
  | .dReserved _ => 79
  | .ztrl _ => 80
  | .filtNone => 81
  | .filtSub => 82
  | .filtUp => 83
  | .filtAvg => 84
  | .filtPaeth => 85
  | .filtReserved _ => 86

end Sys2Proof
end

