-- ==== Sys2Proof/WellFormed.lean ====
section
/-! DEFINITION. Which terms of Instr the encoding can spell: an operand that shares a format with other rows lies in
its own row's range (30_encoding.md R350). -/

namespace Sys2Proof

/-- The operand lies in its row's range. -/
def Instr.wf : Instr → Bool
  | .reservedCmd op => 4 ≤ op.toNat && op.toNat ≤ 14
  | .llReserved s => s.toNat == 286 || s.toNat == 287
  | .dReserved d => d.toNat == 30 || d.toNat == 31
  | .filtReserved ft => 5 ≤ ft.toNat
  | _ => true

end Sys2Proof
end

