-- ==== Sys2Proof/Decode.lean ====
section
/-! DEFINITION. From the bits of an element to its instruction and back, format by format (30_encoding.md), and the
opcode table as data. Finding the bits (the bit cursor, the Huffman trees) is Machine/Fetch.lean's. -/

namespace Sys2Proof

/-- Why a value spells no instruction. -/
inductive Reject where
  /-- The value has more bits than its format. -/
  | tooWide (f : Format)
  /-- CLSYM 19..31: the code-length alphabet has 19 symbols (30_encoding.md R335). -/
  | noClSymbol
  /-- LLSYM 288..511: the literal/length alphabet has 288 symbols (30_encoding.md R330). -/
  | noLlSymbol
  deriving DecidableEq, Repr

/-- Format CMD: OP is w[3:0] and w[31:4] is ignored (30_encoding.md R300, R301). -/
def decodeCmd (v : Nat) : Instr :=
  match v % 16 with
  | 0 => .nop
  | 1 => .inflate
  | 2 => .unfilter
  | 3 => .decode
  | 15 => .abort
  | op => .reservedCmd (BitVec.ofNat 4 op)

/-- Format ZHDR: CMF is H[15:8], FLG is H[7:0] (30_encoding.md R310). Whether the header is valid is checked by the
element itself (43_inflate.md R701). -/
def decodeZhdr (v : Nat) : Instr :=
  .zhdr (BitVec.ofNat 8 (v / 256)) (BitVec.ofNat 8 v)

/-- Format BLKHDR: BFINAL is h[0], BTYPE is h[2:1] (30_encoding.md R320). -/
def decodeBlkhdr (v : Nat) : Instr :=
  let bfinal := v % 2 == 1
  match v / 2 % 4 with
  | 0 => .blkStored bfinal
  | 1 => .blkFixed bfinal
  | 2 => .blkDynamic bfinal
  | _ => .blkReserved bfinal

/-- Format STORED: LEN is w[15:0], NLEN is w[31:16] (30_encoding.md R321). -/
def decodeStored (v : Nat) : Instr :=
  .stored (BitVec.ofNat 16 v) (BitVec.ofNat 16 (v / 65536))

/-- Format DYNHDR: HLIT is v[4:0], HDIST is v[9:5], HCLEN is v[13:10] (30_encoding.md R322). -/
def decodeDynhdr (v : Nat) : Instr :=
  .dynhdr (BitVec.ofNat 5 v) (BitVec.ofNat 5 (v / 32)) (BitVec.ofNat 4 (v / 1024))

/-- Format CLSYM (30_encoding.md R335). -/
def decodeClsym (v : Nat) : Except Reject Instr :=
  if v < 16 then .ok (.clsymLen (BitVec.ofNat 4 v))
  else match v with
    | 16 => .ok .clsym16
    | 17 => .ok .clsym17
    | 18 => .ok .clsym18
    | _ => .error .noClSymbol

/-- Format LLSYM (30_encoding.md R330, R331). -/
def decodeLlsym (v : Nat) : Except Reject Instr :=
  if v < 256 then .ok (.lit (BitVec.ofNat 8 v))
  else match v with
    | 256 => .ok .eob
    | 257 => .ok .len257
    | 258 => .ok .len258
    | 259 => .ok .len259
    | 260 => .ok .len260
    | 261 => .ok .len261
    | 262 => .ok .len262
    | 263 => .ok .len263
    | 264 => .ok .len264
    | 265 => .ok .len265
    | 266 => .ok .len266
    | 267 => .ok .len267
    | 268 => .ok .len268
    | 269 => .ok .len269
    | 270 => .ok .len270
    | 271 => .ok .len271
    | 272 => .ok .len272
    | 273 => .ok .len273
    | 274 => .ok .len274
    | 275 => .ok .len275
    | 276 => .ok .len276
    | 277 => .ok .len277
    | 278 => .ok .len278
    | 279 => .ok .len279
    | 280 => .ok .len280
    | 281 => .ok .len281
    | 282 => .ok .len282
    | 283 => .ok .len283
    | 284 => .ok .len284
    | 285 => .ok .len285
    | 286 => .ok (.llReserved 286)
    | 287 => .ok (.llReserved 287)
    | _ => .error .noLlSymbol

/-- Format DSYM (30_encoding.md R332, R333). -/
def decodeDsym (v : Nat) : Instr :=
  match v with
  | 0 => .dist0
  | 1 => .dist1
  | 2 => .dist2
  | 3 => .dist3
  | 4 => .dist4
  | 5 => .dist5
  | 6 => .dist6
  | 7 => .dist7
  | 8 => .dist8
  | 9 => .dist9
  | 10 => .dist10
  | 11 => .dist11
  | 12 => .dist12
  | 13 => .dist13
  | 14 => .dist14
  | 15 => .dist15
  | 16 => .dist16
  | 17 => .dist17
  | 18 => .dist18
  | 19 => .dist19
  | 20 => .dist20
  | 21 => .dist21
  | 22 => .dist22
  | 23 => .dist23
  | 24 => .dist24
  | 25 => .dist25
  | 26 => .dist26
  | 27 => .dist27
  | 28 => .dist28
  | 29 => .dist29
  | d => .dReserved (BitVec.ofNat 5 d)

/-- Format FILT (30_encoding.md R340). -/
def decodeFilt (v : Nat) : Instr :=
  match v with
  | 0 => .filtNone
  | 1 => .filtSub
  | 2 => .filtUp
  | 3 => .filtAvg
  | 4 => .filtPaeth
  | ft => .filtReserved (BitVec.ofNat 8 ft)

/-- The instruction a value of a format spells, or why it spells none. -/
def decode (f : Format) (v : Nat) : Except Reject Instr :=
  if v < 2 ^ f.width then
    match f with
    | .cmd => .ok (decodeCmd v)
    | .zhdr => .ok (decodeZhdr v)
    | .blkhdr => .ok (decodeBlkhdr v)
    | .stored => .ok (decodeStored v)
    | .dynhdr => .ok (decodeDynhdr v)
    | .clsym => decodeClsym v
    | .llsym => decodeLlsym v
    | .dsym => .ok (decodeDsym v)
    | .ztrl => .ok (.ztrl (BitVec.ofNat 32 v))
    | .filt => .ok (decodeFilt v)
  else .error (.tooWide f)

/-- The value of an instruction's format that spells it; the ignored bits of CMD are written 0. -/
def encode : Instr → Nat
  | .nop => 0
  | .inflate => 1
  | .unfilter => 2
  | .decode => 3
  | .abort => 15
  | .reservedCmd op => op.toNat
  | .zhdr cmf flg => cmf.toNat * 256 + flg.toNat
  | .blkStored bfinal => bfinal.toNat
  | .blkFixed bfinal => 2 + bfinal.toNat
  | .blkDynamic bfinal => 4 + bfinal.toNat
  | .blkReserved bfinal => 6 + bfinal.toNat
  | .stored len nlen => len.toNat + nlen.toNat * 65536
  | .dynhdr hlit hdist hclen => hlit.toNat + hdist.toNat * 32 + hclen.toNat * 1024
  | .clsymLen len => len.toNat
  | .clsym16 => 16
  | .clsym17 => 17
  | .clsym18 => 18
  | .lit b => b.toNat
  | .eob => 256
  | .len257 => 257
  | .len258 => 258
  | .len259 => 259
  | .len260 => 260
  | .len261 => 261
  | .len262 => 262
  | .len263 => 263
  | .len264 => 264
  | .len265 => 265
  | .len266 => 266
  | .len267 => 267
  | .len268 => 268
  | .len269 => 269
  | .len270 => 270
  | .len271 => 271
  | .len272 => 272
  | .len273 => 273
  | .len274 => 274
  | .len275 => 275
  | .len276 => 276
  | .len277 => 277
  | .len278 => 278
  | .len279 => 279
  | .len280 => 280
  | .len281 => 281
  | .len282 => 282
  | .len283 => 283
  | .len284 => 284
  | .len285 => 285
  | .llReserved s => s.toNat
  | .dist0 => 0
  | .dist1 => 1
  | .dist2 => 2
  | .dist3 => 3
  | .dist4 => 4
  | .dist5 => 5
  | .dist6 => 6
  | .dist7 => 7
  | .dist8 => 8
  | .dist9 => 9
  | .dist10 => 10
  | .dist11 => 11
  | .dist12 => 12
  | .dist13 => 13
  | .dist14 => 14
  | .dist15 => 15
  | .dist16 => 16
  | .dist17 => 17
  | .dist18 => 18
  | .dist19 => 19
  | .dist20 => 20
  | .dist21 => 21
  | .dist22 => 22
  | .dist23 => 23
  | .dist24 => 24
  | .dist25 => 25
  | .dist26 => 26
  | .dist27 => 27
  | .dist28 => 28
  | .dist29 => 29
  | .dReserved d => d.toNat
  | .ztrl adler => adler.toNat
  | .filtNone => 0
  | .filtSub => 1
  | .filtUp => 2
  | .filtAvg => 3
  | .filtPaeth => 4
  | .filtReserved ft => ft.toNat

/-- A row of spec/opcode_table.json: its place in the table, its format, its match and mask and its alternatives. -/
structure OpRow where
  row : Nat
  format : Format
  pairs : List (Nat × Nat)
  deriving DecidableEq, Repr

/-- "A row selects a value v of its format when (v & mask) = match for its own match/mask pair or for any pair in
its alternatives list" (30_encoding.md R350). -/
def OpRow.selects (r : OpRow) (f : Format) (v : Nat) : Bool :=
  r.format == f && r.pairs.any fun p => v &&& p.2 == p.1

/-- The table's rows, its hexadecimal numbers as it writes them. -/
def opcodeRows : List OpRow :=
  [⟨0, .cmd, [(0x00000000, 0x0000000F)]⟩, ⟨1, .cmd, [(0x00000001, 0x0000000F)]⟩, ⟨2, .cmd, [(0x00000002, 0x0000000F)]⟩,
  ⟨3, .cmd, [(0x00000003, 0x0000000F)]⟩, ⟨4, .cmd, [(0x0000000F, 0x0000000F)]⟩, ⟨5, .cmd, [(0x00000004, 0x0000000C), (0x00000008, 0x0000000C), (0x0000000C, 0x0000000E), (0x0000000E, 0x0000000F)]⟩,
  ⟨6, .zhdr, [(0x0800, 0x8F20)]⟩, ⟨7, .blkhdr, [(0x0, 0x6)]⟩, ⟨8, .blkhdr, [(0x2, 0x6)]⟩,
  ⟨9, .blkhdr, [(0x4, 0x6)]⟩, ⟨10, .blkhdr, [(0x6, 0x6)]⟩, ⟨11, .stored, [(0x00000000, 0x00000000)]⟩,
  ⟨12, .dynhdr, [(0x0000, 0x0000)]⟩, ⟨13, .clsym, [(0x00, 0x10)]⟩, ⟨14, .clsym, [(0x10, 0x1F)]⟩,
  ⟨15, .clsym, [(0x11, 0x1F)]⟩, ⟨16, .clsym, [(0x12, 0x1F)]⟩, ⟨17, .llsym, [(0x000, 0x100)]⟩,
  ⟨18, .llsym, [(0x100, 0x1FF)]⟩, ⟨19, .llsym, [(0x101, 0x1FF)]⟩, ⟨20, .llsym, [(0x102, 0x1FF)]⟩,
  ⟨21, .llsym, [(0x103, 0x1FF)]⟩, ⟨22, .llsym, [(0x104, 0x1FF)]⟩, ⟨23, .llsym, [(0x105, 0x1FF)]⟩,
  ⟨24, .llsym, [(0x106, 0x1FF)]⟩, ⟨25, .llsym, [(0x107, 0x1FF)]⟩, ⟨26, .llsym, [(0x108, 0x1FF)]⟩,
  ⟨27, .llsym, [(0x109, 0x1FF)]⟩, ⟨28, .llsym, [(0x10A, 0x1FF)]⟩, ⟨29, .llsym, [(0x10B, 0x1FF)]⟩]
  ++ [⟨30, .llsym, [(0x10C, 0x1FF)]⟩, ⟨31, .llsym, [(0x10D, 0x1FF)]⟩, ⟨32, .llsym, [(0x10E, 0x1FF)]⟩,
  ⟨33, .llsym, [(0x10F, 0x1FF)]⟩, ⟨34, .llsym, [(0x110, 0x1FF)]⟩, ⟨35, .llsym, [(0x111, 0x1FF)]⟩,
  ⟨36, .llsym, [(0x112, 0x1FF)]⟩, ⟨37, .llsym, [(0x113, 0x1FF)]⟩, ⟨38, .llsym, [(0x114, 0x1FF)]⟩,
  ⟨39, .llsym, [(0x115, 0x1FF)]⟩, ⟨40, .llsym, [(0x116, 0x1FF)]⟩, ⟨41, .llsym, [(0x117, 0x1FF)]⟩,
  ⟨42, .llsym, [(0x118, 0x1FF)]⟩, ⟨43, .llsym, [(0x119, 0x1FF)]⟩, ⟨44, .llsym, [(0x11A, 0x1FF)]⟩,
  ⟨45, .llsym, [(0x11B, 0x1FF)]⟩, ⟨46, .llsym, [(0x11C, 0x1FF)]⟩, ⟨47, .llsym, [(0x11D, 0x1FF)]⟩,
  ⟨48, .llsym, [(0x11E, 0x1FE)]⟩, ⟨49, .dsym, [(0x00, 0x1F)]⟩, ⟨50, .dsym, [(0x01, 0x1F)]⟩,
  ⟨51, .dsym, [(0x02, 0x1F)]⟩, ⟨52, .dsym, [(0x03, 0x1F)]⟩, ⟨53, .dsym, [(0x04, 0x1F)]⟩,
  ⟨54, .dsym, [(0x05, 0x1F)]⟩, ⟨55, .dsym, [(0x06, 0x1F)]⟩, ⟨56, .dsym, [(0x07, 0x1F)]⟩,
  ⟨57, .dsym, [(0x08, 0x1F)]⟩, ⟨58, .dsym, [(0x09, 0x1F)]⟩, ⟨59, .dsym, [(0x0A, 0x1F)]⟩]
  ++ [⟨60, .dsym, [(0x0B, 0x1F)]⟩, ⟨61, .dsym, [(0x0C, 0x1F)]⟩, ⟨62, .dsym, [(0x0D, 0x1F)]⟩,
  ⟨63, .dsym, [(0x0E, 0x1F)]⟩, ⟨64, .dsym, [(0x0F, 0x1F)]⟩, ⟨65, .dsym, [(0x10, 0x1F)]⟩,
  ⟨66, .dsym, [(0x11, 0x1F)]⟩, ⟨67, .dsym, [(0x12, 0x1F)]⟩, ⟨68, .dsym, [(0x13, 0x1F)]⟩,
  ⟨69, .dsym, [(0x14, 0x1F)]⟩, ⟨70, .dsym, [(0x15, 0x1F)]⟩, ⟨71, .dsym, [(0x16, 0x1F)]⟩,
  ⟨72, .dsym, [(0x17, 0x1F)]⟩, ⟨73, .dsym, [(0x18, 0x1F)]⟩, ⟨74, .dsym, [(0x19, 0x1F)]⟩,
  ⟨75, .dsym, [(0x1A, 0x1F)]⟩, ⟨76, .dsym, [(0x1B, 0x1F)]⟩, ⟨77, .dsym, [(0x1C, 0x1F)]⟩,
  ⟨78, .dsym, [(0x1D, 0x1F)]⟩, ⟨79, .dsym, [(0x1E, 0x1E)]⟩, ⟨80, .ztrl, [(0x00000000, 0x00000000)]⟩,
  ⟨81, .filt, [(0x00, 0xFF)]⟩, ⟨82, .filt, [(0x01, 0xFF)]⟩, ⟨83, .filt, [(0x02, 0xFF)]⟩,
  ⟨84, .filt, [(0x03, 0xFF)]⟩, ⟨85, .filt, [(0x04, 0xFF)]⟩, ⟨86, .filt, [(0x05, 0xFF), (0x06, 0xFE), (0x08, 0xF8), (0x10, 0xF0), (0x20, 0xE0), (0x40, 0xC0), (0x80, 0x80)]⟩]

/-- The format that a word of the opcode table is read in when only its size is known. The table gives a row's
format beside its word, and words of one size collide (BLKHDR, CLSYM, DSYM and FILT all fit a byte); this choice
gives the most rows their own instruction (log entry 13). -/
def tableFormat (nbits w : Nat) : Option Format :=
  if nbits ≤ 3 then some .blkhdr
  else if nbits ≤ 8 then some (if w < 32 then .dsym else .filt)
  else if nbits ≤ 9 then some .llsym
  else if nbits ≤ 14 then some .dynhdr
  else if nbits ≤ 16 then
    some (if w < 288 then .llsym
      else if w &&& 0x8F20 = 0x0800 then .zhdr
      else if w < 2 ^ 14 then .dynhdr else .zhdr)
  else if nbits ≤ 32 then some .cmd
  else none

/-- The instruction the decoder reads from a word of the opcode table (see `tableFormat`). -/
def decodeTableWord (nbits w : Nat) : Option Instr :=
  match tableFormat nbits w with
  | none => none
  | some f =>
    match decode f w with
    | .ok i => some i
    | .error _ => none

end Sys2Proof
end

