-- ==== Sys2Proof/Machine/State.lean ====
section
/-! DEFINITION. The state of the CORE as plain data: the host registers, the engine's working state, memory, and the
model's own fields (the host's pending accesses, the schedule, the free-value counter). -/

namespace Sys2Proof.Machine

/-- Memory: the bytes that differ from what an unlisted address reads as, by rising address (20_memory.md R200; the
canonical form is `Memory.wf` of Machine/Ops.lean). -/
abbrev Memory := List Host.Cell

/-- A region: a base and a length register (10_state.md R111, 20_memory.md R202). -/
structure Region where
  base : Word
  len : Word
  deriving DecidableEq, Repr

/-- What a command is configured by: CTRL.ZLIB, the region registers, IMG_W, IMG_H and the fields of IMG_FMT
(10_state.md R104, R111 to R113). The host registers are one such record, the command snapshot (R129) another. -/
structure Params where
  zlib : Bool
  src : Region
  dst : Region
  work : Region
  imgW : Word
  imgH : Word
  bitDepth : Byte
  colorMode : Byte
  interlace : Byte
  deriving DecidableEq, Repr

/-- STATUS.STAGE; the value 3 is "never read" (10_state.md R106). -/
inductive Stage where
  | idle | inflate | reconstruct
  deriving DecidableEq, Repr

/-- The fields of STATUS (10_state.md R106). -/
structure Status where
  busy : Bool
  done : Bool
  err : Bool
  ign : Bool
  stage : Stage
  deriving DecidableEq, Repr

/-- ERR_CODE, ERR_INFO and the 35-bit ERR_BITPOS_HI:ERR_BITPOS_LO (10_state.md R107 to R109). -/
structure Report where
  code : Word
  info : Word
  bitpos : BitCursor
  deriving DecidableEq, Repr

/-- The error causes (60_exceptions.md R1101). -/
inductive Cause where
  | badCmd | cfgRegionWrap | cfgOverlap | cfgDimZero | cfgSizeMismatch | cfgSizeOverflow
  | fmtColorMode | fmtBitDepth | fmtInterlace | subbyteInterlace
  | zhdrCm | zhdrCinfo | zhdrFdict | zhdrFcheck
  | btypeReserved | storedNlen | treeBuildCl | treeBuildLl | treeBuildD
  | clInvalidSymbol | clRepeatNoPrev | clRepeatOverflow | eobZeroLength
  | llInvalidSymbol | llReservedSymbol | dInvalidSymbol | dReservedSymbol
  | distTooFar | outputOverflow | bitOverrun | filterType
  | zhdrTrunc | storedTrunc | ztrailerTrunc | outputShort | adlerMismatch | aborted
  deriving DecidableEq, Repr

/-- The commands that run (40_commands.md R403). -/
inductive Command where
  | inflate | unfilter | decode
  deriving DecidableEq, Repr

/-- The engine states (10_state.md R121). -/
inductive Engine where
  | idle | zhdr | blockHeader | stored | dynHeader | symbols | streamEnd | ztrailer | reconstruct
  deriving DecidableEq, Repr

/-- An entry of a decode table (42_huffman.md R604): the invalid-symbol sentinel (VALID = 0), a leaf (VALID = 1, LEN
the code's length, VAL the symbol), or a link of the primary part (VALID = 1, LEN the longest code under it, more
than 9, VAL the index of its secondary table). -/
inductive Entry where
  | invalid
  | leaf (len sym : Nat)
  | link (maxLen base : Nat)
  deriving DecidableEq, Repr

/-- A Huffman tree: the code lengths, the canonical codes and the decode table's entries in use (10_state.md R124).
`size` is the number of those entries. -/
structure Tree where
  len : List Nat
  code : List Nat
  tab : List Entry
  deriving DecidableEq, Repr

/-- The number of entries in use (10_state.md R124, 42_huffman.md R607). -/
def Tree.size (t : Tree) : Nat := t.tab.length

/-- A tree of n unused symbols and no entries: what a tree holds at reset (log entry 4). -/
def Tree.unbuilt (n : Nat) : Tree := ⟨List.replicate n 0, List.replicate n 0, []⟩

/-- An access the host has handed to the bus (10_state.md R101, 20_memory.md R210; log entries 6, 20 and 21). -/
inductive HostAccess where
  /-- A register read of some bytes at an offset in the window. -/
  | regRead (off : BitVec 8) (bytes : Nat)
  /-- A register write of some bytes at an offset in the window. -/
  | regWrite (off : BitVec 8) (bytes : Nat) (v : Word)
  /-- A memory read of one byte. -/
  | memRead (a : Word)
  /-- A memory write of one byte. -/
  | memWrite (a : Word) (v : Byte)
  /-- The platform asserts the reset input (70_reset_and_hazards.md R1200). -/
  | reset
  deriving DecidableEq, Repr

/-- The two agents (10_state.md R100). -/
inductive Agent where
  | host | engine
  deriving DecidableEq, Repr

/-- The whole machine. -/
structure State where
  /-- CTRL.IRQ_EN (10_state.md R104). -/
  irqEn : Bool
  /-- CTRL.ZLIB and the configuration registers (10_state.md R104, R111 to R113). -/
  regs : Params
  /-- STATUS (10_state.md R106). -/
  status : Status
  /-- The error registers (10_state.md R107 to R109). -/
  report : Report
  /-- OUT_COUNT, the engine's outCount (10_state.md R110, R123). -/
  outCount : Word
  /-- The command snapshot (10_state.md R129). -/
  snap : Params
  /-- Which command runs, or ran last (40_commands.md R403). -/
  cmd : Command
  /-- The bit cursor (10_state.md R120). -/
  bp : BitCursor
  /-- The engine state (10_state.md R121). -/
  engine : Engine
  /-- BFINAL of the current block (10_state.md R122). -/
  bfinal : Bool
  /-- BTYPE of the current block (10_state.md R122). -/
  btype : BitVec 2
  /-- The literal/length tree (10_state.md R124). -/
  ll : Tree
  /-- The distance tree (10_state.md R124). -/
  d : Tree
  /-- The code-length tree (10_state.md R124). -/
  cl : Tree
  /-- HLIT, 257..288 (10_state.md R126). -/
  hlit : Nat
  /-- HDIST, 1..32 (10_state.md R126). -/
  hdist : Nat
  /-- HCLEN, 4..19 (10_state.md R126). -/
  hclen : Nat
  /-- The code lengths written so far; the code-length index i is how many they are (10_state.md R126). -/
  lens : List Nat
  /-- The model's own: the dynamic header's counts have been read (log entry 14). -/
  codesNext : Bool
  /-- The model's own: the length of the match whose distance symbol comes next (log entry 14). -/
  matchLen : Option Nat
  /-- The pass, 7 for a non-interlaced image (10_state.md R128). -/
  p : Nat
  /-- The row within the image or pass (10_state.md R128). -/
  y : Nat
  /-- The previous reconstructed row, or NONE (10_state.md R128). -/
  prev : Option (List Byte)
  /-- Memory (20_memory.md R200). -/
  mem : Memory
  /-- The model's own: how many free values have been drawn (log entry 5). -/
  draws : Nat
  /-- The model's own: the last OUT_COUNT shown in this command (log entry 7). -/
  shownOut : Word
  /-- The model's own: the last STAGE shown in this command (log entry 7). -/
  shownStage : Stage
  /-- The model's own: the engine steps an accepted ABORT still allows (log entry 8). -/
  abortIn : Option Nat
  /-- The model's own: the engine steps a command keeps after the host wrote one of its regions (log entry 9). -/
  raceIn : Option Nat
  /-- The model's own: the host accesses still to be delivered, oldest first (log entry 6). -/
  hostQueue : List HostAccess
  /-- The model's own: which agent moves next, step by step (log entry 6). -/
  sched : List Agent
  /-- The model's own: what the last host read returned (log entry 10). -/
  hostData : Word
  deriving DecidableEq, Repr

/-- A stop of the machine. There is none: "stuck: not used; no behaviour of the CORE hangs" (93 part 1,
70_reset_and_hazards.md R1221), and an error of the CORE is a next state (60_exceptions.md R1130). -/
inductive Fault where
  deriving DecidableEq, Repr

/-- What the model gives no meaning. -/
inductive Refusal where
  /-- Raised by exec for an instruction without a meaning: safe. No arm raises it. -/
  | notModelled (mnemonic : String)
  /-- Raised by step when a decode table holds a symbol outside its alphabet, so that the decoder rejects the value:
  safe. No state that meets the model's invariant does (log entry 22). -/
  | undecodable (f : Format) (v : Nat)
  deriving DecidableEq, Repr

/-- No region. -/
def Region.zero : Region := ⟨0, 0⟩

/-- The configuration registers at reset (10_state.md R146). -/
def Params.zero : Params :=
  { zlib := false, src := .zero, dst := .zero, work := .zero, imgW := 0, imgH := 0, bitDepth := 0, colorMode := 0,
    interlace := 0 }

/-- The machine right after reset (70_reset_and_hazards.md R1200, 10_state.md R146). The engine's working values are
unspecified there; log entry 4 names these. -/
def State.reset : State :=
  { irqEn := false, regs := .zero, status := ⟨false, false, false, false, .idle⟩, report := ⟨0, 0, 0⟩, outCount := 0,
    snap := .zero, cmd := .inflate, bp := 0, engine := .idle, bfinal := false, btype := 0,
    ll := .unbuilt 288, d := .unbuilt 32, cl := .unbuilt 19, hlit := 257, hdist := 1, hclen := 4, lens := [],
    codesNext := false, matchLen := none, p := 0, y := 0, prev := none, mem := [], draws := 0, shownOut := 0,
    shownStage := .idle, abortIn := none, raceIn := none, hostQueue := [], sched := [], hostData := 0 }

end Sys2Proof.Machine
end

