-- ==== Sys2Proof/Machine/Flags.lean ====
section
/-! DEFINITION. Every flag and flag word of the CORE: STATUS and its write-1-to-clear, CTRL, IMG_FMT, the error codes
and the interrupt output. -/

namespace Sys2Proof.Machine

/-- STAGE as read: 0 idle, 1 inflate stage, 2 reconstruct stage (10_state.md R106). -/
def Stage.code : Stage → Nat
  | .idle => 0
  | .inflate => 1
  | .reconstruct => 2

/-- STATUS as read: BUSY bit 0, DONE bit 1, ERR bit 2, IGN bit 3, STAGE bits [5:4], the rest 0 (10_state.md R106). -/
def Status.word (f : Status) : Word :=
  BitVec.ofNat 32 (f.busy.toNat + 2 * f.done.toNat + 4 * f.err.toNat + 8 * f.ign.toNat + 16 * f.stage.code)

/-- A host write to STATUS: a 1 clears DONE, ERR or IGN, every other bit is ignored (10_state.md R106). It is
accepted while BUSY as when idle (70_reset_and_hazards.md R1210). -/
def Status.clear (f : Status) (v : Word) : Status :=
  { f with
    done := f.done && !v.getLsbD 1
    err := f.err && !v.getLsbD 2
    ign := f.ign && !v.getLsbD 3 }

/-- CTRL as read: ZLIB bit 0, IRQ_EN bit 1 (10_state.md R104). -/
def ctrlWord (zlib irqEn : Bool) : Word := BitVec.ofNat 32 (zlib.toNat + 2 * irqEn.toNat)

/-- IMG_FMT as read: BIT_DEPTH [7:0], COLOR_MODE [15:8], INTERLACE [23:16] (10_state.md R113). -/
def Params.fmtWord (p : Params) : Word :=
  BitVec.ofNat 32 (p.bitDepth.toNat + 256 * p.colorMode.toNat + 65536 * p.interlace.toNat)

/-- ERR_CODE.CAUSE (60_exceptions.md R1101). -/
def Cause.code : Cause → Nat
  | .badCmd => 0x01
  | .cfgRegionWrap => 0x02
  | .cfgOverlap => 0x03
  | .cfgDimZero => 0x04
  | .cfgSizeMismatch => 0x05
  | .cfgSizeOverflow => 0x06
  | .fmtColorMode => 0x10
  | .fmtBitDepth => 0x11
  | .fmtInterlace => 0x12
  | .subbyteInterlace => 0x13
  | .zhdrCm => 0x14
  | .zhdrCinfo => 0x15
  | .zhdrFdict => 0x16
  | .zhdrFcheck => 0x20
  | .btypeReserved => 0x21
  | .storedNlen => 0x22
  | .treeBuildCl => 0x23
  | .treeBuildLl => 0x24
  | .treeBuildD => 0x25
  | .clInvalidSymbol => 0x26
  | .clRepeatNoPrev => 0x27
  | .clRepeatOverflow => 0x28
  | .eobZeroLength => 0x29
  | .llInvalidSymbol => 0x2A
  | .llReservedSymbol => 0x2B
  | .dInvalidSymbol => 0x2C
  | .dReservedSymbol => 0x2D
  | .distTooFar => 0x2E
  | .outputOverflow => 0x2F
  | .bitOverrun => 0x30
  | .filterType => 0x31
  | .zhdrTrunc => 0x40
  | .storedTrunc => 0x41
  | .ztrailerTrunc => 0x42
  | .outputShort => 0x43
  | .adlerMismatch => 0x50
  | .aborted => 0x70

/-- ERR_CODE.CLASS (60_exceptions.md R1100, R1101). -/
def Cause.cls : Cause → Nat
  | .badCmd | .cfgRegionWrap | .cfgOverlap | .cfgDimZero | .cfgSizeMismatch | .cfgSizeOverflow => 6
  | .fmtColorMode | .fmtBitDepth | .fmtInterlace | .subbyteInterlace | .zhdrCm | .zhdrCinfo | .zhdrFdict => 3
  | .zhdrFcheck | .btypeReserved | .storedNlen | .treeBuildCl | .treeBuildLl | .treeBuildD | .clInvalidSymbol
  | .clRepeatNoPrev | .clRepeatOverflow | .eobZeroLength | .llInvalidSymbol | .llReservedSymbol
  | .dInvalidSymbol | .dReservedSymbol | .distTooFar | .outputOverflow | .bitOverrun | .filterType => 4
  | .zhdrTrunc | .storedTrunc | .ztrailerTrunc | .outputShort => 5
  | .adlerMismatch => 2
  | .aborted => 7

/-- ERR_CODE as read: CLASS * 256 + CAUSE (60_exceptions.md R1101). -/
def Cause.word (c : Cause) : Word := BitVec.ofNat 32 (c.cls * 256 + c.code)

/-- Every cause, in the order of 60_exceptions.md R1101. -/
def Cause.all : List Cause :=
  [.badCmd, .cfgRegionWrap, .cfgOverlap, .cfgDimZero, .cfgSizeMismatch, .cfgSizeOverflow, .fmtColorMode,
   .fmtBitDepth, .fmtInterlace, .subbyteInterlace, .zhdrCm, .zhdrCinfo, .zhdrFdict, .zhdrFcheck, .btypeReserved,
   .storedNlen, .treeBuildCl, .treeBuildLl, .treeBuildD, .clInvalidSymbol, .clRepeatNoPrev, .clRepeatOverflow,
   .eobZeroLength, .llInvalidSymbol, .llReservedSymbol, .dInvalidSymbol, .dReservedSymbol, .distTooFar,
   .outputOverflow, .bitOverrun, .filterType, .zhdrTrunc, .storedTrunc, .ztrailerTrunc, .outputShort,
   .adlerMismatch, .aborted]

/-- The interrupt output: IRQ_EN and (DONE or ERR), a level (60_exceptions.md R1120). -/
def irq (s : State) : Bool := s.irqEn && (s.status.done || s.status.err)

end Sys2Proof.Machine
end

