-- ==== Sys2Proof/Machine/Tables.lean ====
section
/-! DEFINITION. The constant tables of the design (10_state.md R127). -/

namespace Sys2Proof.Machine

/-- CLORDER, the order in which the code-length code's lengths are sent (30_encoding.md R334). -/
def clOrder : List Nat := [16, 17, 18, 0, 8, 7, 9, 6, 10, 5, 11, 4, 12, 3, 13, 2, 14, 1, 15]

/-- The fixed literal/length code lengths (43_inflate.md R704). -/
def fixedLlLens : List Nat :=
  List.replicate 144 8 ++ List.replicate 112 9 ++ List.replicate 24 7 ++ List.replicate 8 8

/-- The fixed distance code lengths (43_inflate.md R704). -/
def fixedDLens : List Nat := List.replicate 32 5

/-- A pass of the Adam7 table: its first pixel and its steps (46_interlace.md R1000). -/
structure Lattice where
  startX : Nat
  startY : Nat
  dx : Nat
  dy : Nat
  deriving DecidableEq, Repr

/-- The Adam7 pass table (46_interlace.md R1000). -/
def adam7 : Nat → Lattice
  | 0 => ⟨0, 0, 8, 8⟩
  | 1 => ⟨4, 0, 8, 8⟩
  | 2 => ⟨0, 4, 4, 8⟩
  | 3 => ⟨2, 0, 4, 4⟩
  | 4 => ⟨0, 2, 2, 4⟩
  | 5 => ⟨1, 0, 2, 2⟩
  | _ => ⟨0, 1, 1, 2⟩

/-- The channels of a color mode; a color mode that is not legal has none (10_state.md R140). -/
def channels (colorMode : Nat) : Nat :=
  match colorMode with
  | 0 => 1
  | 2 => 3
  | 3 => 1
  | 4 => 2
  | 6 => 4
  | _ => 0

/-- The bit depths a color mode allows (10_state.md R142). -/
def legalDepths (colorMode : Nat) : List Nat :=
  match colorMode with
  | 0 => [1, 2, 4, 8, 16]
  | 2 => [8, 16]
  | 3 => [1, 2, 4, 8]
  | 4 => [8, 16]
  | 6 => [8, 16]
  | _ => []

end Sys2Proof.Machine
end

