-- ==== Sys2Proof/Machine/Ops.lean ====
section
/-! DEFINITION. The named operations over memory and registers, completion, and the one operation that ends a command
with an error (the CORE's way of taking an exception). -/

namespace Sys2Proof.Machine

/-! ### Memory -/

/-- One byte of memory (20_memory.md R206); an unlisted address reads as `Config.unlistedByte`. -/
def Memory.read : Memory → Nat → Byte
  | [], _ => Config.unlistedByte
  | (k, v) :: m, a => if a = k then v else Memory.read m a

/-- Put a byte before the bytes of higher addresses, unless it is what an unlisted address reads as. -/
def Memory.cons (a : Nat) (v : Byte) (m : Memory) : Memory :=
  if v = Config.unlistedByte then m else (a, v) :: m

/-- Store one byte (20_memory.md R206), keeping the canonical form. -/
def Memory.write : Memory → Nat → Byte → Memory
  | [], a, v => Memory.cons a v []
  | (k, w) :: m, a, v =>
    if a < k then Memory.cons a v ((k, w) :: m)
    else if a = k then Memory.cons a v m
    else (k, w) :: Memory.write m a v

/-- The canonical form from an address on: addresses strictly rising and inside memory, no byte that an unlisted
address reads as. -/
def Memory.wfFrom : Nat → Memory → Bool
  | _, [] => true
  | lo, (k, v) :: m => lo ≤ k && k < memorySize && v != Config.unlistedByte && Memory.wfFrom (k + 1) m

/-- The canonical form: equal memories are equal lists. -/
def Memory.wf (m : Memory) : Bool := Memory.wfFrom 0 m

/-- The address of byte i of a region. A region a command uses does not wrap (40_commands.md R410), so the remainder
never bites in a running command (log entry 23). -/
def Region.addr (r : Region) (i : Nat) : Nat := (r.base.toNat + i) % memorySize

/-- An address lies in a region (20_memory.md R202). -/
def Region.has (r : Region) (a : Nat) : Bool := r.base.toNat ≤ a && a < r.base.toNat + r.len.toNat

/-- Byte i of a region: MemRead(BASE + i, 1). -/
def readByte (s : State) (r : Region) (i : Nat) : Byte := s.mem.read (r.addr i)

/-- MemWrite(BASE + i, 1, v). -/
def writeByte (r : Region) (i : Nat) (v : Byte) (s : State) : State :=
  { s with mem := s.mem.write (r.addr i) v }

/-- Bytes i to i + n - 1 of a region. -/
def readBytes (s : State) (r : Region) (i n : Nat) : List Byte :=
  (List.range n).map fun j => readByte s r (i + j)

/-- Store the bytes at region offsets `off j`, `off (j + 1)`, and so on. -/
def writeBytes (r : Region) (off : Nat → Nat) : Nat → List Byte → State → State
  | _, [], s => s
  | j, b :: bs, s => writeBytes r off (j + 1) bs (writeByte r (off j) b s)

/-! ### Unspecified bytes -/

/-- Give the first n bytes of a region the free bytes of a draw. -/
def Memory.forget (k : Nat) (r : Region) : Nat → Memory → Memory
  | 0, m => m
  | n + 1, m => (Memory.forget k r n m).write (r.addr n) (Config.freeByte k (r.addr n))

/-- Every byte of these regions becomes unspecified: a free byte each, by one draw (20_memory.md R220, R221; log
entry 3). -/
def forgetRegions (rs : List Region) (s : State) : State :=
  { s with mem := rs.foldl (fun m r => m.forget s.draws r r.len.toNat) s.mem, draws := s.draws + 1 }

/-- The regions a command writes (20_memory.md R204). -/
def writtenRegions (c : Command) (p : Params) : List Region :=
  match c with
  | .inflate | .unfilter => [p.dst]
  | .decode => [p.work, p.dst]

/-- The regions a command uses, in the order SRC, DST, WORK (20_memory.md R204, 40_commands.md R410). -/
def usedRegions (c : Command) (p : Params) : List Region :=
  match c with
  | .inflate | .unfilter => [p.src, p.dst]
  | .decode => [p.src, p.dst, p.work]

/-! ### Ending a command -/

/-- raise Error(cause, info) (60_exceptions.md R1130), the CORE's one exception entry: the error registers are
written, STATUS and the engine state go idle with ERR set, and the written regions become unspecified
(20_memory.md R221). An error raised before a stage has begun (a start check, BAD_CMD) has changed no byte. -/
def raiseError (c : Cause) (info : Word) (s : State) : State :=
  let t := if s.status.stage = .idle then s else forgetRegions (writtenRegions s.cmd s.snap) s
  { t with
    report := ⟨c.word, info, if s.status.stage = .inflate ∧ c ≠ .aborted then s.bp else 0⟩
    status := { busy := false, done := false, err := true, ign := s.status.ign, stage := .idle }
    engine := .idle
    abortIn := none
    raceIn := none }

/-- Successful completion (40_commands.md R404). WORK holds unspecified bytes after DECODE (20_memory.md R220). -/
def complete (s : State) : State :=
  let t := if s.cmd = .decode then forgetRegions [s.snap.work] s else s
  { t with
    status := { busy := false, done := true, err := s.status.err, ign := s.status.ign, stage := .idle }
    engine := .idle
    abortIn := none
    raceIn := none }

/-- A host write was ignored because BUSY = 1: IGN is set, nothing else changes (70_reset_and_hazards.md R1210,
40_commands.md R405). -/
def ignoreWrite (s : State) : State := { s with status := { s.status with ign := true } }

/-! ### The output of the inflate stage -/

/-- The inflate destination region: WORK for DECODE, otherwise DST (10_state.md R123, 40_commands.md R403). -/
def outRegion (s : State) : Region :=
  match s.cmd with
  | .decode => s.snap.work
  | .inflate | .unfilter => s.snap.dst

/-- outLimit, the length of the inflate destination region (10_state.md R123). -/
def outLimit (s : State) : Nat := (outRegion s).len.toNat

/-- Emit(v) (44_symbols.md R807). -/
def emit (v : Byte) (s : State) : State :=
  { writeByte (outRegion s) s.outCount.toNat v s with outCount := s.outCount + 1 }

/-- Emit n bytes of SRC, from byte `k` of the region on (43_inflate.md R722). -/
def copyStored : Nat → Nat → State → State
  | _, 0, s => s
  | k, n + 1, s => copyStored (k + 1) n (emit (readByte s s.snap.src k) s)

/-- Emit n bytes, each the one `distance` positions behind the byte being written (44_symbols.md R806). -/
def copyMatch (distance : Nat) : Nat → State → State
  | 0, s => s
  | n + 1, s => copyMatch distance n (emit (readByte s (outRegion s) (s.outCount.toNat - distance)) s)

/-- The bytes the inflate stage has produced, out[0 .. outCount-1] (10_state.md R123). -/
def outBytes (s : State) : List Byte := readBytes s (outRegion s) 0 s.outCount.toNat

end Sys2Proof.Machine
end

