-- ==== Sys2Proof/Machine/Operands.lean ====
section
/-! DEFINITION. Where an element's operands come from: the bit reader over SRC (41_bitreader.md) and the image
parameters (10_state.md section 5, 46_interlace.md section 1). -/

namespace Sys2Proof.Machine

/-! ### The bit reader -/

/-- The number of stream bits (41_bitreader.md R500). -/
def totalBits (s : State) : Nat := 8 * s.snap.src.len.toNat

/-- Bit(k): bit k mod 8 of SRC byte k div 8, and 0 at or past the end (41_bitreader.md R501). -/
def streamBit (s : State) (k : Nat) : Bool :=
  if k < totalBits s then (readByte s s.snap.src (k / 8)).getLsbD (k % 8) else false

/-- The n stream bits from k on as an LSB-first field. -/
def streamField (s : State) : Nat → Nat → Nat
  | _, 0 => 0
  | k, n + 1 => (streamBit s k).toNat + 2 * streamField s (k + 1) n

/-- Peek(n) (41_bitreader.md R502). -/
def peek (s : State) (n : Nat) : Nat := streamField s s.bp.toNat n

/-- The cursor n bits on. -/
def skip (n : Nat) (s : State) : State := { s with bp := s.bp + BitVec.ofNat 35 n }

/-- Read(n): the next n bits and the state with them consumed, or none for BIT_OVERRUN, with nothing consumed
(41_bitreader.md R504). -/
def readBits (n : Nat) (s : State) : Option (Nat × State) :=
  if s.bp.toNat + n > totalBits s then none else some (peek s n, skip n s)

/-- Align: the cursor at the next byte boundary (41_bitreader.md R506). -/
def align (s : State) : State := { s with bp := BitVec.ofNat 35 ((s.bp.toNat + 7) / 8 * 8) }

/-- The byte at a byte offset from an aligned cursor (41_bitreader.md R507). -/
def alignedByte (s : State) (j : Nat) : Byte := readByte s s.snap.src (s.bp.toNat / 8 + j)

/-! ### Image parameters -/

/-- Bits per pixel (10_state.md R141). -/
def Params.bpp (p : Params) : Nat := channels p.colorMode.toNat * p.bitDepth.toNat

/-- byteWidth, bytes per pixel, at least 1 (10_state.md R141). -/
def Params.bw (p : Params) : Nat := max 1 (p.bpp / 8)

/-- The data bytes of a scanline of w pixels, ceil(w * bpp / 8) (10_state.md R141). -/
def Params.stride (p : Params) (w : Nat) : Nat := (w * p.bpp + 7) / 8

/-- passWidth (46_interlace.md R1001). -/
def passWidth (w q : Nat) : Nat :=
  let g := adam7 q
  if w > g.startX then (w - g.startX + g.dx - 1) / g.dx else 0

/-- passHeight (46_interlace.md R1001). -/
def passHeight (h q : Nat) : Nat :=
  let g := adam7 q
  if h > g.startY then (h - g.startY + g.dy - 1) / g.dy else 0

/-- The width of pass q; pass 7 is the whole non-interlaced image (10_state.md R128). -/
def Params.rowWidth (p : Params) (q : Nat) : Nat := if q < 7 then passWidth p.imgW.toNat q else p.imgW.toNat

/-- The number of rows of pass q. -/
def Params.rowCount (p : Params) (q : Nat) : Nat := if q < 7 then passHeight p.imgH.toNat q else p.imgH.toNat

/-- A pass is empty when one of its dimensions is 0 (46_interlace.md R1001, R1004). -/
def Params.emptyPass (p : Params) (q : Nat) : Bool := p.rowWidth q == 0 || p.rowCount q == 0

/-- passBytes (30_encoding.md R342). -/
def Params.passBytes (p : Params) (q : Nat) : Nat :=
  if p.emptyPass q then 0 else p.rowCount q * (1 + p.stride (p.rowWidth q))

/-- passStart (30_encoding.md R342). -/
def Params.passStart (p : Params) : Nat → Nat
  | 0 => 0
  | q + 1 => p.passStart q + p.passBytes q

/-- FILT_SIZE (30_encoding.md R341, R342; 40_commands.md R423). -/
def Params.filtSize (p : Params) : Nat :=
  if p.interlace = 1 then p.passStart 7 else p.imgH.toNat * (1 + p.stride p.imgW.toNat)

/-- RAW_SIZE (30_encoding.md R343, 40_commands.md R423). -/
def Params.rawSize (p : Params) : Nat := p.imgH.toNat * p.stride p.imgW.toNat

/-- The filtered buffer: WORK for DECODE, otherwise SRC (40_commands.md R403). -/
def filtRegion (s : State) : Region :=
  match s.cmd with
  | .decode => s.snap.work
  | .inflate | .unfilter => s.snap.src

/-- The data bytes of the current row. -/
def rowStride (s : State) : Nat := s.snap.stride (s.snap.rowWidth s.p)

/-- The offset of the current row's FILT byte in the filtered buffer (45_filter.md R920, 46_interlace.md R1005). -/
def rowOffset (s : State) : Nat := (if s.p < 7 then s.snap.passStart s.p else 0) + s.y * (1 + rowStride s)

/-- Where byte j of the current row goes in DST: in place for a non-interlaced image (45_filter.md R920), to its
pixel of the raster for a pass (46_interlace.md R1005). -/
def rasterOffset (s : State) (j : Nat) : Nat :=
  if s.p < 7 then
    let g := adam7 s.p
    let b := s.snap.bpp / 8
    ((g.startY + s.y * g.dy) * s.snap.imgW.toNat + (g.startX + j / b * g.dx)) * b + j % b
  else s.y * rowStride s + j

end Sys2Proof.Machine
end

