-- ==== Sys2Proof/Machine/Checks.lean ====
section
/-! DEFINITION. The start checks of a command, in their order (40_commands.md R410 to R424). -/

namespace Sys2Proof.Machine

/-- A failed check: its cause and ERR_INFO. -/
abbrev Failure := Cause × Word

/-- A region wraps past the top of memory (20_memory.md R202). -/
def Region.wraps (r : Region) : Bool := r.base.toNat + r.len.toNat > memorySize

/-- Two regions overlap (20_memory.md R203). -/
def Region.overlaps (a b : Region) : Bool :=
  a.len != 0 && b.len != 0
    && a.base.toNat < b.base.toNat + b.len.toNat && b.base.toNat < a.base.toNat + a.len.toNat

/-- A check that fails with a cause when a condition holds. -/
def failIf (c : Bool) (f : Failure) : Option Failure := if c then some f else none

/-- The wrap check of a region with its id (40_commands.md R410). -/
def checkWrap (id : Nat) (r : Region) : Option Failure :=
  failIf r.wraps (.cfgRegionWrap, BitVec.ofNat 32 id)

/-- The overlap check of a pair of regions with their ids (40_commands.md R411). -/
def checkOverlap (idA idB : Nat) (a b : Region) : Option Failure :=
  failIf (a.overlaps b) (.cfgOverlap, BitVec.ofNat 32 (idA + 16 * idB))

/-- The size check of a region with its id (40_commands.md R412). -/
def checkSize (id : Nat) (r : Region) (size : Nat) : Option Failure :=
  failIf (r.len.toNat != size) (.cfgSizeMismatch, BitVec.ofNat 32 id)

/-- The format checks, the dimension check, the sub-byte interlace check and the size computation
(40_commands.md R420 to R423), in this order. -/
def imageChecks (p : Params) : List (Option Failure) :=
  [ failIf (!([0, 2, 3, 4, 6].contains p.colorMode.toNat)) (.fmtColorMode, p.colorMode.setWidth 32),
    failIf (!((legalDepths p.colorMode.toNat).contains p.bitDepth.toNat)) (.fmtBitDepth, p.bitDepth.setWidth 32),
    failIf (p.interlace != 0 && p.interlace != 1) (.fmtInterlace, p.interlace.setWidth 32),
    failIf (p.imgW == 0 || p.imgH == 0) (.cfgDimZero, 0),
    failIf (p.interlace == 1 && p.bpp < 8) (.subbyteInterlace, BitVec.ofNat 32 p.bpp),
    failIf (p.filtSize ≥ memorySize || p.rawSize ≥ memorySize) (.cfgSizeOverflow, 0) ]

/-- Every start check of a command, in the order of 40_commands.md R424. -/
def startChecks (c : Command) (p : Params) : List (Option Failure) :=
  match c with
  | .inflate => [checkWrap 1 p.src, checkWrap 2 p.dst, checkOverlap 1 2 p.src p.dst]
  | .unfilter =>
    imageChecks p ++
      [ checkWrap 1 p.src, checkWrap 2 p.dst, checkSize 1 p.src p.filtSize, checkSize 2 p.dst p.rawSize,
        checkOverlap 1 2 p.src p.dst ]
  | .decode =>
    imageChecks p ++
      [ checkWrap 1 p.src, checkWrap 2 p.dst, checkWrap 3 p.work, checkSize 3 p.work p.filtSize,
        checkSize 2 p.dst p.rawSize, checkOverlap 1 2 p.src p.dst, checkOverlap 1 3 p.src p.work,
        checkOverlap 3 2 p.work p.dst ]

/-- The first check that fails; "no later one is made" (40_commands.md R424). -/
def startFailure (c : Command) (p : Params) : Option Failure := (startChecks c p).findSome? id

end Sys2Proof.Machine
end

