-- ==== Sys2Proof/Machine/Filter.lean ====
section
/-! DEFINITION. The reconstruct stage: the scanline filters (45_filter.md) and the order of rows and passes
(45_filter.md R920, 46_interlace.md R1005). -/

namespace Sys2Proof.Machine

/-! ### Predictors -/

/-- A predictor: from the left, above and upper-left neighbours, on exact integers (45_filter.md R902, R903). -/
abbrev Predictor := Nat → Nat → Nat → Nat

/-- None (45_filter.md R910). -/
def predNone : Predictor := fun _ _ _ => 0

/-- Sub (45_filter.md R911). -/
def predSub : Predictor := fun a _ _ => a

/-- Up (45_filter.md R912). -/
def predUp : Predictor := fun _ b _ => b

/-- Average (45_filter.md R913). -/
def predAvg : Predictor := fun a b _ => (a + b) / 2

/-- Paeth (45_filter.md R906, R914): ties go to a, then to b. -/
def paeth : Predictor := fun a b c =>
  let pa := ((b : Int) - c).natAbs
  let pb := ((a : Int) - c).natAbs
  let pc := ((a : Int) + b - 2 * c).natAbs
  if pa ≤ pb ∧ pa ≤ pc then a else if pb ≤ pc then b else c

/-! ### The row operation -/

/-- Neighbour a of byte i: the byte bw places to the left in its own row (45_filter.md R902). -/
def leftByte (bw : Nat) (row : List Byte) (i : Nat) : Nat :=
  if bw ≤ i then (row.getD (i - bw) 0).toNat else 0

/-- Neighbour b of byte i: the byte above (45_filter.md R902). -/
def upByte (prev : Option (List Byte)) (i : Nat) : Nat :=
  match prev with
  | none => 0
  | some r => (r.getD i 0).toNat

/-- Neighbour c of byte i: the byte above and to the left (45_filter.md R902). -/
def upLeftByte (bw : Nat) (prev : Option (List Byte)) (i : Nat) : Nat :=
  match prev with
  | none => 0
  | some r => leftByte bw r i

/-- The prediction of byte i, the bytes to its left being `row`. -/
def predict (f : Predictor) (bw : Nat) (prev : Option (List Byte)) (row : List Byte) (i : Nat) : Nat :=
  f (leftByte bw row i) (upByte prev i) (upLeftByte bw prev i)

/-- Reconstruct a scanline left to right after the bytes `done`: recon[i] = (scan[i] + pred) mod 256
(45_filter.md R903, R904). -/
def reconFrom (f : Predictor) (bw : Nat) (prev : Option (List Byte)) : List Byte → List Byte → List Byte
  | done, [] => done
  | done, x :: xs =>
    reconFrom f bw prev (done ++ [BitVec.ofNat 8 (x.toNat + predict f bw prev done done.length)]) xs

/-- The reconstructed row of a scanline. -/
def reconBytes (f : Predictor) (bw : Nat) (prev : Option (List Byte)) (scan : List Byte) : List Byte :=
  reconFrom f bw prev [] scan

/-- The forward filter, scan[i] = (raw[i] - pred) mod 256, with the neighbours taken from the raw bytes. No element
uses it; it states the round trip of 45_filter.md R922. -/
def filterBytes (f : Predictor) (bw : Nat) (prev : Option (List Byte)) (raw : List Byte) : List Byte :=
  (List.range raw.length).map fun i => raw.getD i 0 - BitVec.ofNat 8 (predict f bw prev raw i)

/-! ### Rows and passes -/

/-- The first non-empty pass from pass q on (46_interlace.md R1004, R1005). -/
def nextPass (p : Params) (q : Nat) : Option Nat :=
  (List.range 7).find? fun r => q ≤ r && !p.emptyPass r

/-- Start the first non-empty pass from pass q on, with no previous row; with none left the stage, and with it the
command, ends (46_interlace.md R1005, 40_commands.md R403). -/
def seekPass (q : Nat) (s : State) : State :=
  match nextPass s.snap q with
  | some r => { s with p := r, y := 0, prev := none }
  | none => complete s

/-- Entry of the reconstruct stage (45_filter.md R920, 46_interlace.md R1005). -/
def startReconstruct (s : State) : State :=
  let t := { s with status := { s.status with stage := .reconstruct }, engine := .reconstruct }
  if s.snap.interlace = 1 then seekPass 0 t else { t with p := 7, y := 0, prev := none }

/-- After a row: the next row of the image or pass, the next pass, or the end of the stage. -/
def nextRow (row : List Byte) (s : State) : State :=
  if s.y + 1 < s.snap.rowCount s.p then { s with y := s.y + 1, prev := some row }
  else if s.p < 7 then seekPass (s.p + 1) s
  else complete s

/-- The data bytes of the current scanline. -/
def scanline (s : State) : List Byte := readBytes s (filtRegion s) (rowOffset s + 1) (rowStride s)

/-- The current row, reconstructed with a predictor. -/
def reconRow (f : Predictor) (s : State) : List Byte := reconBytes f s.snap.bw s.prev (scanline s)

/-- ReconRow: reconstruct the current row, store it in place or scatter it, and go on to the next row
(45_filter.md R904, R920; 46_interlace.md R1005). -/
def filterElement (f : Predictor) (s : State) : State :=
  nextRow (reconRow f s) (writeBytes s.snap.dst (rasterOffset s) 0 (reconRow f s) s)

/-! ### The elements -/

/-- FILT_NONE (45_filter.md R910). -/
def execFiltNone (s : State) : Host.Outcome State Fault Refusal := .next (filterElement predNone s)

/-- FILT_SUB (45_filter.md R911). -/
def execFiltSub (s : State) : Host.Outcome State Fault Refusal := .next (filterElement predSub s)

/-- FILT_UP (45_filter.md R912). -/
def execFiltUp (s : State) : Host.Outcome State Fault Refusal := .next (filterElement predUp s)

/-- FILT_AVG (45_filter.md R913). -/
def execFiltAvg (s : State) : Host.Outcome State Fault Refusal := .next (filterElement predAvg s)

/-- FILT_PAETH (45_filter.md R914). -/
def execFiltPaeth (s : State) : Host.Outcome State Fault Refusal := .next (filterElement paeth s)

/-- FILT_RESERVED: FILTER_TYPE, with the offset of the FILT byte in the filtered buffer (45_filter.md R915). The
type's own value is not reported. -/
def execFiltReserved (_ft : Byte) (s : State) : Host.Outcome State Fault Refusal :=
  .next (raiseError .filterType (BitVec.ofNat 32 (rowOffset s)) s)

end Sys2Proof.Machine
end

