-- ==== Sys2Proof/Machine/Huffman.lean ====
section
/-! DEFINITION. Build and Decode: canonical Huffman trees and the two-level decode table (42_huffman.md). -/

namespace Sys2Proof.Machine

/-- rev(v, n), the n-bit reversal (00_scope.md R11). -/
def rev : Nat → Nat → Nat
  | _, 0 => 0
  | v, n + 1 => v % 2 * 2 ^ n + rev (v / 2) n

/-- How many symbols have a code (42_huffman.md R601). -/
def present (lens : List Nat) : Nat := (lens.filter (0 < ·)).length

/-- K, the Kraft sum in units of 2^-15 (42_huffman.md R601). -/
def kraft (lens : List Nat) : Nat := (lens.map fun l => if l = 0 then 0 else 2 ^ (15 - l)).sum

/-- The completeness check (42_huffman.md R601). -/
def accepted (lens : List Nat) : Bool := present lens ≤ 1 || kraft lens == 2 ^ 15

/-- blCount, with blCount[0] = 0 (42_huffman.md R602). -/
def blCount (lens : List Nat) (l : Nat) : Nat := if l = 0 then 0 else lens.count l

/-- nextCode before any symbol has its code (42_huffman.md R602). -/
def firstCode (lens : List Nat) : Nat → Nat
  | 0 => 0
  | l + 1 => (firstCode lens l + blCount lens l) * 2

/-- Step 3 of 42_huffman.md R602: each used symbol takes the next code of its length, masked to it; an unused symbol
is given 0. -/
def assignCodes (next : List Nat) : List Nat → List Nat
  | [] => []
  | l :: ls =>
    if l = 0 then 0 :: assignCodes next ls
    else
      let c := next.getD l 0
      c % 2 ^ l :: assignCodes (next.set l (c + 1)) ls

/-- The canonical codes, symbol by symbol (42_huffman.md R602). -/
def canonicalCodes (lens : List Nat) : List Nat :=
  assignCodes ((List.range 16).map (firstCode lens)) lens

/-- A used symbol, the length of its code and the bits that spell it, first stream bit in bit 0
(42_huffman.md R603). -/
structure Spelling where
  sym : Nat
  len : Nat
  bits : Nat
  deriving DecidableEq, Repr

/-- The spellings of the used symbols from symbol s on. -/
def spellings : Nat → List Nat → List Nat → List Spelling
  | s, l :: ls, c :: cs =>
    if l = 0 then spellings (s + 1) ls cs else ⟨s, l, rev c l⟩ :: spellings (s + 1) ls cs
  | _, _, _ => []

/-- maxlen[P] over the spellings longer than 9 bits (42_huffman.md R606). -/
def maxLen (long : List Spelling) (p : Nat) : Nat :=
  long.foldl (fun m r => if r.bits % 512 = p then max m r.len else m) 0

/-- The primary entry of an index no long code has as its prefix: a leaf where a short code's bits begin the index
(42_huffman.md R605), otherwise the sentinel (R609). -/
def shortEntry (short : List Spelling) (p : Nat) : Entry :=
  match short.find? fun r => p % 2 ^ r.len == r.bits with
  | some r => .leaf r.len r.sym
  | none => .invalid

/-- The primary part, `n` entries from index p on, the next free table index being `next`
(42_huffman.md R605 to R607). -/
def primaryTable (short long : List Spelling) : Nat → Nat → Nat → List Entry
  | 0, _, _ => []
  | n + 1, p, next =>
    let m := maxLen long p
    (if m = 0 then shortEntry short p else .link m next)
      :: primaryTable short long n (p + 1) (if m = 0 then next else next + 2 ^ (m - 9))

/-- The secondary entry at place j of prefix p's table (42_huffman.md R608, R609). -/
def longEntry (long : List Spelling) (p j : Nat) : Entry :=
  match long.find? fun r => r.bits % 512 == p && j % 2 ^ (r.len - 9) == r.bits / 512 with
  | some r => .leaf r.len r.sym
  | none => .invalid

/-- The secondary tables of the prefixes from p on, in increasing order (42_huffman.md R607). -/
def secondaryTables (long : List Spelling) : Nat → Nat → List Entry
  | 0, _ => []
  | n + 1, p =>
    let m := maxLen long p
    (if m = 0 then [] else (List.range (2 ^ (m - 9))).map (longEntry long p)) ++ secondaryTables long n (p + 1)

/-- The tree of a length set (42_huffman.md R602 to R610). -/
def makeTree (lens : List Nat) : Tree :=
  let codes := canonicalCodes lens
  let all := spellings 0 lens codes
  let short := all.filter (·.len ≤ 9)
  let long := all.filter (9 < ·.len)
  ⟨lens, codes, primaryTable short long 512 0 512 ++ secondaryTables long 512 0⟩

/-- Build: the tree, or none for BUILD_FAIL (42_huffman.md R600). -/
def build (lens : List Nat) : Option Tree := if accepted lens then some (makeTree lens) else none

/-- The fixed literal/length tree (43_inflate.md R704). -/
def fixedLl : Tree := makeTree fixedLlLens

/-- The fixed distance tree (43_inflate.md R704). -/
def fixedD : Tree := makeTree fixedDLens

/-- A decode's outcome: a symbol with its code consumed, or a cause with nothing consumed. -/
inductive Symbol where
  | sym (v : Nat) (s : State)
  | err (c : Cause)
  deriving DecidableEq, Repr

/-- An entry of a decode table; past the entries in use there is only the sentinel (log entry 15). -/
def Tree.entry (t : Tree) (k : Nat) : Entry := t.tab.getD k .invalid

/-- Advance(len) over a found code (42_huffman.md R620, 41_bitreader.md R505). -/
def takeCode (len v : Nat) (s : State) : Symbol :=
  match readBits len s with
  | none => .err .bitOverrun
  | some (_, t) => .sym v t

/-- Decode(T, invalidCause) (42_huffman.md R620). -/
def decodeSym (t : Tree) (invalid : Cause) (s : State) : Symbol :=
  match t.entry (peek s 9) with
  | .invalid => .err invalid
  | .leaf len v => takeCode len v s
  | .link m base =>
    match t.entry (base + peek s m / 512) with
    | .leaf len v => takeCode len v s
    | .invalid | .link _ _ => .err invalid

end Sys2Proof.Machine
end

