-- ==== Sys2Proof/Machine/Inflate.lean ====
section
/-! DEFINITION. The inflate stage: entry and end, the zlib-style wrapper, block headers, stored blocks and dynamic
headers (43_inflate.md). -/

namespace Sys2Proof.Machine

/-! ### Entry, block end, stream end -/

/-- Inflate-stage entry (43_inflate.md R700, 41_bitreader.md R509). -/
def enterInflate (s : State) : State :=
  { s with
    status := { s.status with stage := .inflate }
    bp := 0
    outCount := 0
    engine := if s.snap.zlib then .zhdr else .blockHeader
    codesNext := false
    matchLen := none }

/-- Block end (43_inflate.md R726). The stream end of the final block is the engine's next step. -/
def blockEnd (s : State) : State :=
  { s with engine := if s.bfinal then .streamEnd else .blockHeader }

/-- The inflate stage ends without error: DECODE goes on to the reconstruct stage, INFLATE is complete
(40_commands.md R403). -/
def endInflate (s : State) : State :=
  match s.cmd with
  | .decode => startReconstruct s
  | .inflate | .unfilter => complete s

/-- Stream end (43_inflate.md R712). -/
def streamEnd (s : State) : State :=
  if s.outCount.toNat < outLimit s then raiseError .outputShort s.outCount s
  else if s.snap.zlib then { s with engine := .ztrailer }
  else endInflate s

/-! ### The wrapper -/

/-- ZHDR (43_inflate.md R701). -/
def execZhdr (cmf flg : Byte) (s : State) : Host.Outcome State Fault Refusal :=
  let info := BitVec.ofNat 32 (cmf.toNat * 256 + flg.toNat)
  .next <|
    if s.snap.src.len.toNat < 2 then raiseError .zhdrTrunc s.snap.src.len s
    else if cmf.toNat % 16 ≠ 8 then raiseError .zhdrCm info s
    else if cmf.toNat / 16 > 7 then raiseError .zhdrCinfo info s
    else if flg.getLsbD 5 then raiseError .zhdrFdict info s
    else if (cmf.toNat * 256 + flg.toNat) % 31 ≠ 0 then raiseError .zhdrFcheck info s
    else { s with bp := 16, engine := .blockHeader }

/-- ZTRL (43_inflate.md R713). -/
def execZtrl (adler : Word) (s : State) : Host.Outcome State Fault Refusal :=
  let t := align s
  .next <|
    if t.bp.toNat / 8 + 4 > t.snap.src.len.toNat then raiseError .ztrailerTrunc 0 t
    else if adler ≠ Config.adler32 (outBytes t) then raiseError .adlerMismatch adler t
    else endInflate (skip 32 t)

/-! ### Block headers -/

/-- The fields of a block header (43_inflate.md R702, 10_state.md R122). -/
def beginBlock (bfinal : Bool) (btype : BitVec 2) (s : State) : State :=
  { s with bfinal := bfinal, btype := btype }

/-- BLK_STORED: the stored header comes next, at the byte boundary (43_inflate.md R720). -/
def execBlkStored (bfinal : Bool) (s : State) : Host.Outcome State Fault Refusal :=
  .next (align { beginBlock bfinal 0 s with engine := .stored })

/-- BLK_FIXED: the fixed trees, then the symbol loop (43_inflate.md R724). -/
def execBlkFixed (bfinal : Bool) (s : State) : Host.Outcome State Fault Refusal :=
  .next { beginBlock bfinal 1 s with ll := fixedLl, d := fixedD, engine := .symbols, matchLen := none }

/-- BLK_DYNAMIC: the dynamic header comes next (43_inflate.md R725). -/
def execBlkDynamic (bfinal : Bool) (s : State) : Host.Outcome State Fault Refusal :=
  .next { beginBlock bfinal 2 s with engine := .dynHeader, codesNext := false }

/-- BLK_RESERVED: BTYPE_RESERVED (43_inflate.md R723). -/
def execBlkReserved (bfinal : Bool) (s : State) : Host.Outcome State Fault Refusal :=
  .next (raiseError .btypeReserved 0 (beginBlock bfinal 3 s))

/-! ### Stored blocks -/

/-- STORED: the length check, the payload's bounds, the copy and the block end (43_inflate.md R721, R722). -/
def execStored (len nlen : BitVec 16) (s : State) : Host.Outcome State Fault Refusal :=
  .next <|
    if len.toNat + nlen.toNat ≠ 0xFFFF then
      raiseError .storedNlen (BitVec.ofNat 32 (nlen.toNat * 65536 + len.toNat)) s
    else if s.bp.toNat / 8 + len.toNat > s.snap.src.len.toNat then raiseError .storedTrunc (len.setWidth 32) s
    else if s.outCount.toNat + len.toNat > outLimit s then raiseError .outputOverflow (len.setWidth 32) s
    else blockEnd (skip (8 * len.toNat) (copyStored (s.bp.toNat / 8) len.toNat s))

/-! ### Dynamic headers -/

/-- n fields of w bits each, or the state at the Read that overran. -/
def readFields (w : Nat) : Nat → State → Except State (List Nat × State)
  | 0, s => .ok ([], s)
  | n + 1, s =>
    match readBits w s with
    | none => .error s
    | some (v, t) =>
      match readFields w n t with
      | .error u => .error u
      | .ok (vs, u) => .ok (v :: vs, u)

/-- The code-length code's lengths, symbol by symbol, from the fields as sent; a symbol not reached has length 0
(43_inflate.md R703, 30_encoding.md R334). -/
def clLens (fields : List Nat) : List Nat :=
  (List.range 19).map fun c => fields.getD (clOrder.idxOf c) 0

/-- The counts of a dynamic header (43_inflate.md R705). -/
def setCounts (hlit hdist : BitVec 5) (hclen : BitVec 4) (s : State) : State :=
  { s with hlit := hlit.toNat + 257, hdist := hdist.toNat + 1, hclen := hclen.toNat + 4 }

/-- DYNHDR: the counts and the code-length code; the code-length symbols come next (43_inflate.md R705, R703,
R706). -/
def execDynhdr (hlit hdist : BitVec 5) (hclen : BitVec 4) (s : State) : Host.Outcome State Fault Refusal :=
  .next <|
    match readFields 3 (hclen.toNat + 4) (setCounts hlit hdist hclen s) with
    | .error t => raiseError .bitOverrun 0 t
    | .ok (fields, t) =>
      match build (clLens fields) with
      | none => raiseError .treeBuildCl 0 t
      | some cl => { t with cl := cl, lens := [], codesNext := true }

/-- The number of code lengths a dynamic header sends (43_inflate.md R706). -/
def lensWanted (s : State) : Nat := s.hlit + s.hdist

/-- Append code lengths to those written so far. -/
def appendLens (xs : List Nat) (s : State) : State := { s with lens := s.lens ++ xs }

/-- A repeat of a code length: its count is a base plus an extra field (43_inflate.md R708 to R710). -/
def repeatLen (base extra l : Nat) (s : State) : State :=
  match readBits extra s with
  | none => raiseError .bitOverrun 0 s
  | some (e, t) =>
    if t.lens.length + (base + e) > lensWanted t then
      raiseError .clRepeatOverflow (BitVec.ofNat 32 (base + e)) t
    else appendLens (List.replicate (base + e) l) t

/-- CLSYM_LEN (43_inflate.md R707). -/
def execClsymLen (len : BitVec 4) (s : State) : Host.Outcome State Fault Refusal :=
  .next (appendLens [len.toNat] s)

/-- CLSYM_16 (43_inflate.md R708). -/
def execClsym16 (s : State) : Host.Outcome State Fault Refusal :=
  .next <|
    match s.lens.getLast? with
    | none => raiseError .clRepeatNoPrev 0 s
    | some l => repeatLen 3 2 l s

/-- CLSYM_17 (43_inflate.md R709). -/
def execClsym17 (s : State) : Host.Outcome State Fault Refusal := .next (repeatLen 3 3 0 s)

/-- CLSYM_18 (43_inflate.md R710). -/
def execClsym18 (s : State) : Host.Outcome State Fault Refusal := .next (repeatLen 11 7 0 s)

/-- LL.len from the code lengths (43_inflate.md R711). -/
def llLens (s : State) : List Nat :=
  (List.range 288).map fun k => if k < s.hlit then s.lens.getD k 0 else 0

/-- D.len from the code lengths (43_inflate.md R711). -/
def dLens (s : State) : List Nat :=
  (List.range 32).map fun k => if k < s.hdist then s.lens.getD (s.hlit + k) 0 else 0

/-- The final trees of a dynamic block, once every code length is there (43_inflate.md R711). -/
def finishTrees (s : State) : State :=
  if (llLens s).getD 256 0 = 0 then raiseError .eobZeroLength 0 s
  else
    match build (llLens s) with
    | none => raiseError .treeBuildLl 0 s
    | some ll =>
      match build (dLens s) with
      | none => raiseError .treeBuildD 0 s
      | some d => { s with ll := ll, d := d, engine := .symbols, matchLen := none }

end Sys2Proof.Machine
end

