-- ==== Sys2Proof/Machine/Commands.lean ====
section
/-! DEFINITION. The commands (40_commands.md): what an accepted write to CMD does. -/

namespace Sys2Proof.Machine

/-- The start sequence (40_commands.md R402); the snapshot is 10_state.md R129. -/
def startSequence (c : Command) (s : State) : State :=
  { s with
    status := { busy := true, done := false, err := false, ign := s.status.ign, stage := .idle }
    report := ⟨0, 0, 0⟩
    outCount := 0
    snap := s.regs
    cmd := c
    shownOut := 0
    shownStage := .idle
    abortIn := none
    raceIn := none }

/-- A command's first stage (40_commands.md R403). -/
def beginStages (s : State) : State :=
  match s.cmd with
  | .inflate | .decode => enterInflate s
  | .unfilter => startReconstruct s

/-- A write that starts a command: ignored while BUSY (40_commands.md R405); otherwise the start sequence, the start
checks, which end the command at once if one fails, and the first stage (R400, R401, R402; log entry 12). -/
def startCommand (c : Command) (s : State) : State :=
  if s.status.busy then ignoreWrite s
  else
    match startFailure c s.regs with
    | some (cause, info) => raiseError cause info (startSequence c s)
    | none => beginStages (startSequence c s)

/-- NOP (40_commands.md R440). -/
def execNop (s : State) : Host.Outcome State Fault Refusal :=
  .next (if s.status.busy then ignoreWrite s else s)

/-- INFLATE (40_commands.md R441). -/
def execInflate (s : State) : Host.Outcome State Fault Refusal := .next (startCommand .inflate s)

/-- UNFILTER (40_commands.md R442). -/
def execUnfilter (s : State) : Host.Outcome State Fault Refusal := .next (startCommand .unfilter s)

/-- DECODE (40_commands.md R443). -/
def execDecode (s : State) : Host.Outcome State Fault Refusal := .next (startCommand .decode s)

/-- ABORT (40_commands.md R444): nothing when idle; a running command keeps a finite, unspecified number of further
steps (log entry 8). A second ABORT changes nothing. -/
def execAbort (s : State) : Host.Outcome State Fault Refusal :=
  .next <|
    if s.status.busy = true ∧ s.abortIn = none then
      { s with abortIn := some (Config.freeNat s.draws), draws := s.draws + 1 }
    else s

/-- RESERVED_CMD (40_commands.md R445): BAD_CMD when idle, ignored while BUSY. -/
def execReservedCmd (op : BitVec 4) (s : State) : Host.Outcome State Fault Refusal :=
  .next <|
    if s.status.busy then ignoreWrite s
    else raiseError .badCmd (op.setWidth 32) { s with outCount := 0 }

end Sys2Proof.Machine
end

