-- ==== Sys2Proof/Machine/Symbols.lean ====
section
/-! DEFINITION. The symbol loop of a fixed or dynamic block: literals, end of block, length and distance codes
(44_symbols.md). Each code's constants stand in its own meaning, as its own rule gives them. -/

namespace Sys2Proof.Machine

/-! ### Shared parts -/

/-- A length code: base plus extra field; the distance symbol comes next (44_symbols.md R803). -/
def lengthSymbol (base extra : Nat) (s : State) : State :=
  match readBits extra s with
  | none => raiseError .bitOverrun 0 s
  | some (e, t) => { t with matchLen := some (base + e) }

/-- The too-far check and the match copy (44_symbols.md R891, R806). -/
def matchCopy (distance : Nat) (s : State) : State :=
  let length := s.matchLen.getD 0
  if distance > s.outCount.toNat then raiseError .distTooFar (BitVec.ofNat 32 distance) s
  else if s.outCount.toNat + length > outLimit s then raiseError .outputOverflow (BitVec.ofNat 32 length) s
  else { copyMatch distance length s with matchLen := none }

/-- A distance code: base plus extra field, then the match (44_symbols.md R804). -/
def distanceSymbol (base extra : Nat) (s : State) : State :=
  match readBits extra s with
  | none => raiseError .bitOverrun 0 s
  | some (e, t) => matchCopy (base + e) t

/-! ### Literals, end of block, reserved symbols -/

/-- LIT (44_symbols.md R801). -/
def execLit (b : Byte) (s : State) : Host.Outcome State Fault Refusal :=
  .next (if s.outCount.toNat ≥ outLimit s then raiseError .outputOverflow 1 s else emit b s)

/-- EOB (44_symbols.md R802). -/
def execEob (s : State) : Host.Outcome State Fault Refusal := .next (blockEnd s)

/-- LL_RESERVED (44_symbols.md R805). -/
def execLlReserved (v : BitVec 9) (s : State) : Host.Outcome State Fault Refusal :=
  .next (raiseError .llReservedSymbol (v.setWidth 32) s)

/-- D_RESERVED (44_symbols.md R892). -/
def execDReserved (v : BitVec 5) (s : State) : Host.Outcome State Fault Refusal :=
  .next (raiseError .dReservedSymbol (v.setWidth 32) s)

/-! ### Length codes -/

/-- LEN_257 (44_symbols.md R830). -/
def execLen257 (s : State) : Host.Outcome State Fault Refusal := .next (lengthSymbol 3 0 s)

/-- LEN_258 (44_symbols.md R831). -/
def execLen258 (s : State) : Host.Outcome State Fault Refusal := .next (lengthSymbol 4 0 s)

/-- LEN_259 (44_symbols.md R832). -/
def execLen259 (s : State) : Host.Outcome State Fault Refusal := .next (lengthSymbol 5 0 s)

/-- LEN_260 (44_symbols.md R833). -/
def execLen260 (s : State) : Host.Outcome State Fault Refusal := .next (lengthSymbol 6 0 s)

/-- LEN_261 (44_symbols.md R834). -/
def execLen261 (s : State) : Host.Outcome State Fault Refusal := .next (lengthSymbol 7 0 s)

/-- LEN_262 (44_symbols.md R835). -/
def execLen262 (s : State) : Host.Outcome State Fault Refusal := .next (lengthSymbol 8 0 s)

/-- LEN_263 (44_symbols.md R836). -/
def execLen263 (s : State) : Host.Outcome State Fault Refusal := .next (lengthSymbol 9 0 s)

/-- LEN_264 (44_symbols.md R837). -/
def execLen264 (s : State) : Host.Outcome State Fault Refusal := .next (lengthSymbol 10 0 s)

/-- LEN_265 (44_symbols.md R838). -/
def execLen265 (s : State) : Host.Outcome State Fault Refusal := .next (lengthSymbol 11 1 s)

/-- LEN_266 (44_symbols.md R839). -/
def execLen266 (s : State) : Host.Outcome State Fault Refusal := .next (lengthSymbol 13 1 s)

/-- LEN_267 (44_symbols.md R840). -/
def execLen267 (s : State) : Host.Outcome State Fault Refusal := .next (lengthSymbol 15 1 s)

/-- LEN_268 (44_symbols.md R841). -/
def execLen268 (s : State) : Host.Outcome State Fault Refusal := .next (lengthSymbol 17 1 s)

/-- LEN_269 (44_symbols.md R842). -/
def execLen269 (s : State) : Host.Outcome State Fault Refusal := .next (lengthSymbol 19 2 s)

/-- LEN_270 (44_symbols.md R843). -/
def execLen270 (s : State) : Host.Outcome State Fault Refusal := .next (lengthSymbol 23 2 s)

/-- LEN_271 (44_symbols.md R844). -/
def execLen271 (s : State) : Host.Outcome State Fault Refusal := .next (lengthSymbol 27 2 s)

/-- LEN_272 (44_symbols.md R845). -/
def execLen272 (s : State) : Host.Outcome State Fault Refusal := .next (lengthSymbol 31 2 s)

/-- LEN_273 (44_symbols.md R846). -/
def execLen273 (s : State) : Host.Outcome State Fault Refusal := .next (lengthSymbol 35 3 s)

/-- LEN_274 (44_symbols.md R847). -/
def execLen274 (s : State) : Host.Outcome State Fault Refusal := .next (lengthSymbol 43 3 s)

/-- LEN_275 (44_symbols.md R848). -/
def execLen275 (s : State) : Host.Outcome State Fault Refusal := .next (lengthSymbol 51 3 s)

/-- LEN_276 (44_symbols.md R849). -/
def execLen276 (s : State) : Host.Outcome State Fault Refusal := .next (lengthSymbol 59 3 s)

/-- LEN_277 (44_symbols.md R850). -/
def execLen277 (s : State) : Host.Outcome State Fault Refusal := .next (lengthSymbol 67 4 s)

/-- LEN_278 (44_symbols.md R851). -/
def execLen278 (s : State) : Host.Outcome State Fault Refusal := .next (lengthSymbol 83 4 s)

/-- LEN_279 (44_symbols.md R852). -/
def execLen279 (s : State) : Host.Outcome State Fault Refusal := .next (lengthSymbol 99 4 s)

/-- LEN_280 (44_symbols.md R853). -/
def execLen280 (s : State) : Host.Outcome State Fault Refusal := .next (lengthSymbol 115 4 s)

/-- LEN_281 (44_symbols.md R854). -/
def execLen281 (s : State) : Host.Outcome State Fault Refusal := .next (lengthSymbol 131 5 s)

/-- LEN_282 (44_symbols.md R855). -/
def execLen282 (s : State) : Host.Outcome State Fault Refusal := .next (lengthSymbol 163 5 s)

/-- LEN_283 (44_symbols.md R856). -/
def execLen283 (s : State) : Host.Outcome State Fault Refusal := .next (lengthSymbol 195 5 s)

/-- LEN_284 (44_symbols.md R857). -/
def execLen284 (s : State) : Host.Outcome State Fault Refusal := .next (lengthSymbol 227 5 s)

/-- LEN_285 (44_symbols.md R858). -/
def execLen285 (s : State) : Host.Outcome State Fault Refusal := .next (lengthSymbol 258 0 s)

/-! ### Distance codes -/

/-- DIST_0 (44_symbols.md R860). -/
def execDist0 (s : State) : Host.Outcome State Fault Refusal := .next (distanceSymbol 1 0 s)

/-- DIST_1 (44_symbols.md R861). -/
def execDist1 (s : State) : Host.Outcome State Fault Refusal := .next (distanceSymbol 2 0 s)

/-- DIST_2 (44_symbols.md R862). -/
def execDist2 (s : State) : Host.Outcome State Fault Refusal := .next (distanceSymbol 3 0 s)

/-- DIST_3 (44_symbols.md R863). -/
def execDist3 (s : State) : Host.Outcome State Fault Refusal := .next (distanceSymbol 4 0 s)

/-- DIST_4 (44_symbols.md R864). -/
def execDist4 (s : State) : Host.Outcome State Fault Refusal := .next (distanceSymbol 5 1 s)

/-- DIST_5 (44_symbols.md R865). -/
def execDist5 (s : State) : Host.Outcome State Fault Refusal := .next (distanceSymbol 7 1 s)

/-- DIST_6 (44_symbols.md R866). -/
def execDist6 (s : State) : Host.Outcome State Fault Refusal := .next (distanceSymbol 9 2 s)

/-- DIST_7 (44_symbols.md R867). -/
def execDist7 (s : State) : Host.Outcome State Fault Refusal := .next (distanceSymbol 13 2 s)

/-- DIST_8 (44_symbols.md R868). -/
def execDist8 (s : State) : Host.Outcome State Fault Refusal := .next (distanceSymbol 17 3 s)

/-- DIST_9 (44_symbols.md R869). -/
def execDist9 (s : State) : Host.Outcome State Fault Refusal := .next (distanceSymbol 25 3 s)

/-- DIST_10 (44_symbols.md R870). -/
def execDist10 (s : State) : Host.Outcome State Fault Refusal := .next (distanceSymbol 33 4 s)

/-- DIST_11 (44_symbols.md R871). -/
def execDist11 (s : State) : Host.Outcome State Fault Refusal := .next (distanceSymbol 49 4 s)

/-- DIST_12 (44_symbols.md R872). -/
def execDist12 (s : State) : Host.Outcome State Fault Refusal := .next (distanceSymbol 65 5 s)

/-- DIST_13 (44_symbols.md R873). -/
def execDist13 (s : State) : Host.Outcome State Fault Refusal := .next (distanceSymbol 97 5 s)

/-- DIST_14 (44_symbols.md R874). -/
def execDist14 (s : State) : Host.Outcome State Fault Refusal := .next (distanceSymbol 129 6 s)

/-- DIST_15 (44_symbols.md R875). -/
def execDist15 (s : State) : Host.Outcome State Fault Refusal := .next (distanceSymbol 193 6 s)

/-- DIST_16 (44_symbols.md R876). -/
def execDist16 (s : State) : Host.Outcome State Fault Refusal := .next (distanceSymbol 257 7 s)

/-- DIST_17 (44_symbols.md R877). -/
def execDist17 (s : State) : Host.Outcome State Fault Refusal := .next (distanceSymbol 385 7 s)

/-- DIST_18 (44_symbols.md R878). -/
def execDist18 (s : State) : Host.Outcome State Fault Refusal := .next (distanceSymbol 513 8 s)

/-- DIST_19 (44_symbols.md R879). -/
def execDist19 (s : State) : Host.Outcome State Fault Refusal := .next (distanceSymbol 769 8 s)

/-- DIST_20 (44_symbols.md R880). -/
def execDist20 (s : State) : Host.Outcome State Fault Refusal := .next (distanceSymbol 1025 9 s)

/-- DIST_21 (44_symbols.md R881). -/
def execDist21 (s : State) : Host.Outcome State Fault Refusal := .next (distanceSymbol 1537 9 s)

/-- DIST_22 (44_symbols.md R882). -/
def execDist22 (s : State) : Host.Outcome State Fault Refusal := .next (distanceSymbol 2049 10 s)

/-- DIST_23 (44_symbols.md R883). -/
def execDist23 (s : State) : Host.Outcome State Fault Refusal := .next (distanceSymbol 3073 10 s)

/-- DIST_24 (44_symbols.md R884). -/
def execDist24 (s : State) : Host.Outcome State Fault Refusal := .next (distanceSymbol 4097 11 s)

/-- DIST_25 (44_symbols.md R885). -/
def execDist25 (s : State) : Host.Outcome State Fault Refusal := .next (distanceSymbol 6145 11 s)

/-- DIST_26 (44_symbols.md R886). -/
def execDist26 (s : State) : Host.Outcome State Fault Refusal := .next (distanceSymbol 8193 12 s)

/-- DIST_27 (44_symbols.md R887). -/
def execDist27 (s : State) : Host.Outcome State Fault Refusal := .next (distanceSymbol 12289 12 s)

/-- DIST_28 (44_symbols.md R888). -/
def execDist28 (s : State) : Host.Outcome State Fault Refusal := .next (distanceSymbol 16385 13 s)

/-- DIST_29 (44_symbols.md R889). -/
def execDist29 (s : State) : Host.Outcome State Fault Refusal := .next (distanceSymbol 24577 13 s)

end Sys2Proof.Machine
end

