-- ==== Sys2Proof/Machine/HostPort.lean ====
section
/-! DEFINITION. The host's side: register reads and writes over the register window, memory reads and writes, and
the reset input (10_state.md section 2, 20_memory.md sections 5 and 7, 70_reset_and_hazards.md). A CMD write runs an
instruction: Machine/Fetch.lean hands it over. -/

namespace Sys2Proof.Machine

/-! ### The register window -/

/-- A register access the window supports: 32 bits at a multiple of 4 (20_memory.md R210). -/
def supported (off : BitVec 8) (bytes : Nat) : Bool := bytes == 4 && off.toNat % 4 == 0

/-- The value of the register at an offset; CMD and the reserved offsets read 0 (10_state.md R101 to R113). -/
def regValue (off : Nat) (s : State) : Word :=
  match off with
  | 0x00 => Config.idWord
  | 0x04 => ctrlWord s.regs.zlib s.irqEn
  | 0x0C => s.status.word
  | 0x10 => s.report.code
  | 0x14 => s.report.info
  | 0x18 => s.report.bitpos.setWidth 32
  | 0x1C => (s.report.bitpos >>> 32).setWidth 32
  | 0x20 => s.outCount
  | 0x24 => s.regs.src.base
  | 0x28 => s.regs.src.len
  | 0x2C => s.regs.dst.base
  | 0x30 => s.regs.dst.len
  | 0x34 => s.regs.work.base
  | 0x38 => s.regs.work.len
  | 0x3C => s.regs.imgW
  | 0x40 => s.regs.imgH
  | 0x44 => s.regs.fmtWord
  | _ => 0

/-- The registers that ignore a write while BUSY and set IGN: CTRL and the configuration registers
(70_reset_and_hazards.md R1210). -/
def isConfig (off : Nat) : Bool :=
  [0x04, 0x24, 0x28, 0x2C, 0x30, 0x34, 0x38, 0x3C, 0x40, 0x44].contains off

/-- Write a configuration register; reserved bits are dropped (10_state.md R104, R111 to R113). -/
def writeConfig (off : Nat) (v : Word) (s : State) : State :=
  match off with
  | 0x04 => { s with regs := { s.regs with zlib := v.getLsbD 0 }, irqEn := v.getLsbD 1 }
  | 0x24 => { s with regs := { s.regs with src := { s.regs.src with base := v } } }
  | 0x28 => { s with regs := { s.regs with src := { s.regs.src with len := v } } }
  | 0x2C => { s with regs := { s.regs with dst := { s.regs.dst with base := v } } }
  | 0x30 => { s with regs := { s.regs with dst := { s.regs.dst with len := v } } }
  | 0x34 => { s with regs := { s.regs with work := { s.regs.work with base := v } } }
  | 0x38 => { s with regs := { s.regs with work := { s.regs.work with len := v } } }
  | 0x3C => { s with regs := { s.regs with imgW := v } }
  | 0x40 => { s with regs := { s.regs with imgH := v } }
  | 0x44 =>
    { s with
      regs :=
        { s.regs with
          bitDepth := v.setWidth 8
          colorMode := (v >>> 8).setWidth 8
          interlace := (v >>> 16).setWidth 8 } }
  | _ => s

/-- A supported write to a register other than CMD: STATUS clears what the value has a 1 for, a configuration
register takes the value or ignores it while BUSY, every other offset ignores it (70_reset_and_hazards.md R1210). -/
def writeReg (off : Nat) (v : Word) (s : State) : State :=
  if off = 0x0C then { s with status := s.status.clear v }
  else if isConfig off then
    if s.status.busy then ignoreWrite s else writeConfig off v s
  else s

/-! ### Progress registers -/

/-- The most OUT_COUNT can come to in the running command (10_state.md R110). -/
def outMax (s : State) : Nat :=
  match s.cmd with
  | .inflate => s.snap.dst.len.toNat
  | .decode => s.snap.work.len.toNat
  | .unfilter => 0

/-- How far OUT_COUNT may have come: the engine's count, or anything once the host has written a region of the
running command (20_memory.md R215). -/
def outReached (s : State) : Nat := if s.raceIn.isSome then outMax s else s.outCount.toNat

/-- A read of OUT_COUNT while BUSY: a free value between the last one shown and the count reached
(10_state.md R110, 70_reset_and_hazards.md R1212; log entry 7). -/
def showOut (s : State) : State :=
  let v := s.shownOut.toNat + Config.freeNat s.draws % (outReached s - s.shownOut.toNat + 1)
  { s with hostData := BitVec.ofNat 32 v, shownOut := BitVec.ofNat 32 v, draws := s.draws + 1 }

/-- The values STAGE takes in a command, in order (40_commands.md R402, R403). -/
def stagePath (c : Command) : List Stage :=
  match c with
  | .inflate => [.idle, .inflate]
  | .unfilter => [.idle, .reconstruct]
  | .decode => [.idle, .inflate, .reconstruct]

/-- How far STAGE may have come. -/
def stageReached (s : State) : Nat := if s.raceIn.isSome then 2 else s.status.stage.code

/-- The values a read of STAGE may give now: none before the last one shown, none past the stage reached
(70_reset_and_hazards.md R1212). -/
def stageChoices (s : State) : List Stage :=
  (stagePath s.cmd).filter fun g => s.shownStage.code ≤ g.code && g.code ≤ stageReached s

/-- A read of STATUS while BUSY: STAGE is a free choice among those (10_state.md R106, 70_reset_and_hazards.md
R1212; log entry 7). -/
def showStage (s : State) : State :=
  let g := (stageChoices s).getD (Config.freeNat s.draws % (stageChoices s).length) s.shownStage
  { s with hostData := { s.status with stage := g }.word, shownStage := g, draws := s.draws + 1 }

/-! ### Host accesses -/

/-- A register read. One the window does not support returns a free value (20_memory.md R210, 93 I2; log
entry 10). -/
def readReg (off : BitVec 8) (bytes : Nat) (s : State) : State :=
  if !supported off bytes then { s with hostData := Config.freeWord s.draws, draws := s.draws + 1 }
  else if s.status.busy && off == 0x0C then showStage s
  else if s.status.busy && off == 0x20 then showOut s
  else { s with hostData := regValue off.toNat s }

/-- A memory read of one byte. A byte the running command writes reads as a free value (20_memory.md R215, 93 I6;
log entry 10). -/
def hostMemRead (a : Word) (s : State) : State :=
  if s.status.busy && (writtenRegions s.cmd s.snap).any (·.has a.toNat) then
    { s with hostData := (Config.freeByte s.draws a.toNat).setWidth 32, draws := s.draws + 1 }
  else { s with hostData := (s.mem.read a.toNat).setWidth 32 }

/-- A memory write of one byte. One into a region of the running command leaves the command a finite, unspecified
number of steps and any outcome (20_memory.md R215, 93 I5; log entry 9). -/
def hostMemWrite (a : Word) (v : Byte) (s : State) : State :=
  let t := { s with mem := s.mem.write a.toNat v }
  if s.status.busy && s.raceIn.isNone && (usedRegions s.cmd s.snap).any (·.has a.toNat) then
    { t with raceIn := some (Config.freeNat s.draws), draws := s.draws + 1 }
  else t

/-- The reset input (70_reset_and_hazards.md R1200, R1201): every register and the engine state at their reset
values, memory as it was but for the bytes a running command writes, which are free; the bus and the schedule are
not the CORE's (log entries 3, 4 and 21). -/
def resetEvent (s : State) : State :=
  let t := if s.status.busy then forgetRegions (writtenRegions s.cmd s.snap) s else s
  { State.reset with
    mem := t.mem, draws := t.draws, hostQueue := s.hostQueue, sched := s.sched, hostData := s.hostData }

/-! ### The platform's address map -/

/-- The offset in the register window of a bus address, if it lies there (10_state.md R101; log entry 11). -/
def windowOffset (a : Word) : Option (BitVec 8) :=
  if a.toNat < Config.mmioBase.toNat then none
  else if a.toNat - Config.mmioBase.toNat < 0x100 then some (BitVec.ofNat 8 (a.toNat - Config.mmioBase.toNat))
  else none

/-- A 32-bit register or one-byte memory read at a bus address. -/
def HostAccess.readAt (a : Word) : HostAccess :=
  match windowOffset a with
  | some off => .regRead off 4
  | none => .memRead a

/-- A 32-bit register or one-byte memory write at a bus address. -/
def HostAccess.writeAt (a v : Word) : HostAccess :=
  match windowOffset a with
  | some off => .regWrite off 4 v
  | none => .memWrite a (v.setWidth 8)

end Sys2Proof.Machine
end

