-- ==== Sys2Proof/Machine/Fetch.lean ====
section
/-! DEFINITION. What comes next: which agent moves, and which instruction it runs. The engine finds its next element
with the bit reader and the Huffman decoder, in the engine state R121 names; the host runs one by writing CMD. -/

namespace Sys2Proof.Machine

/-- What a step does. -/
inductive Turn where
  /-- Run an instruction in a state where its own bits are consumed. -/
  | run (i : Instr) (s : State)
  /-- No instruction: a host access that runs none, the end of a stream or of a dynamic header, an error of the
  element's own fetch. -/
  | quiet (s : State)
  /-- A value that spells no instruction. -/
  | reject (f : Format) (v : Nat)
  /-- An accepted ABORT stops the command in the middle of this instruction. -/
  | stop (i : Instr) (s : State)
  deriving DecidableEq, Repr

/-- Decode a value of a format and run it. -/
def elementTurn (f : Format) (v : Nat) (s : State) : Turn :=
  match decode f v with
  | .ok i => .run i s
  | .error _ => .reject f v

/-! ### The engine -/

/-- A stored block whose LEN and NLEN do not fit in SRC: STORED_TRUNC, class 5, as 90_conflicts.md C3 and 92 D10 rule
for "a stored block's LEN/NLEN and payload". Nothing is consumed. ERR_INFO is LEN (60_exceptions.md R1101) where SRC
holds its 16 bits; where it does not the spec states no value, and it is a free one. DEDUCED and DESIGN CHOICE, unsafe:
43_inflate.md R720 writes BIT_OVERRUN there (log entry 24). -/
def storedCut (s : State) : State :=
  if s.bp.toNat + 16 ≤ totalBits s then raiseError .storedTrunc (BitVec.ofNat 32 (peek s 16)) s
  else raiseError .storedTrunc (Config.freeWord s.draws) { s with draws := s.draws + 1 }

/-- A field that does not fit in SRC: BIT_OVERRUN, with nothing consumed (41_bitreader.md R504), but for a stored
block's LEN and NLEN. -/
def fieldCut (f : Format) (s : State) : State :=
  match f with
  | .stored => storedCut s
  | .cmd | .zhdr | .blkhdr | .dynhdr | .clsym | .llsym | .dsym | .ztrl | .filt => raiseError .bitOverrun 0 s

/-- An element that is a field of its format's width: Read(width) (41_bitreader.md R504). -/
def fetchField (f : Format) (s : State) : Turn :=
  match readBits f.width s with
  | none => .quiet (fieldCut f s)
  | some (v, t) => elementTurn f v t

/-- An element that is a decoded symbol: Decode(T, invalid) (42_huffman.md R620). -/
def fetchSymbol (f : Format) (t : Tree) (invalid : Cause) (s : State) : Turn :=
  match decodeSym t invalid s with
  | .err c => .quiet (raiseError c 0 s)
  | .sym v u => elementTurn f v u

/-- A byte of SRC, 0 past its end: no SRC byte at or past SRC_LEN is read (20_memory.md R207). -/
def srcByte (s : State) (j : Nat) : Nat :=
  if j < s.snap.src.len.toNat then (readByte s s.snap.src j).toNat else 0

/-- The zlib-style header as its 16-bit value; ZHDR itself checks that SRC holds it (43_inflate.md R701). -/
def headerValue (s : State) : Nat := srcByte s 0 * 256 + srcByte s 1

/-- The trailer as its 32-bit value, big-endian from the next byte boundary; ZTRL itself checks that SRC holds it
(43_inflate.md R713). -/
def trailerValue (s : State) : Nat :=
  let k := (align s).bp.toNat / 8
  ((srcByte s k * 256 + srcByte s (k + 1)) * 256 + srcByte s (k + 2)) * 256 + srcByte s (k + 3)

/-- The filter-type byte of the current row (45_filter.md R904). -/
def filterType (s : State) : Nat := (readByte s (filtRegion s) (rowOffset s)).toNat

/-- The engine's next element, by its state (10_state.md R121). -/
def fetchElement (s : State) : Turn :=
  match s.engine with
  | .idle => .quiet s
  | .zhdr => elementTurn .zhdr (headerValue s) s
  | .blockHeader => fetchField .blkhdr s
  | .stored => fetchField .stored s
  | .dynHeader =>
    if s.codesNext = false then fetchField .dynhdr s
    else if s.lens.length < lensWanted s then fetchSymbol .clsym s.cl .clInvalidSymbol s
    else .quiet (finishTrees s)
  | .symbols =>
    match s.matchLen with
    | none => fetchSymbol .llsym s.ll .llInvalidSymbol s
    | some _ => fetchSymbol .dsym s.d .dInvalidSymbol s
  | .streamEnd => .quiet (streamEnd s)
  | .ztrailer => elementTurn .ztrl (trailerValue s) s
  | .reconstruct => elementTurn .filt (filterType s) s

/-! ### Stops from outside -/

/-- An accepted ABORT takes effect: ABORTED. OUT_COUNT is the count emitted before the stop, which may lie inside
the element the engine was in: a free value up to what that element brings it to (40_commands.md R444, 93 I9; log
entry 8). -/
def abortStop (upTo : Word) (s : State) : State :=
  raiseError .aborted 0
    { s with
      outCount := s.outCount + BitVec.ofNat 32 (Config.freeNat s.draws % (upTo.toNat - s.outCount.toNat + 1))
      draws := s.draws + 1 }

/-- A command whose region the host has written ends: with DONE or with any cause, any ERR_INFO and ERR_BITPOS, and
an OUT_COUNT no less than one shown; its written regions are free (20_memory.md R215, 93 I5; log entry 9). -/
def endRace (s : State) : State :=
  let k := s.draws
  let t := forgetRegions (writtenRegions s.cmd s.snap) { s with draws := k + 3 }
  match Cause.all[Config.freeNat k % (Cause.all.length + 1)]? with
  | none =>
    { t with
      status := { busy := false, done := true, err := false, ign := s.status.ign, stage := .idle }
      outCount := BitVec.ofNat 32 (outMax s)
      engine := .idle
      abortIn := none
      raceIn := none }
  | some c =>
    { t with
      status := { busy := false, done := false, err := true, ign := s.status.ign, stage := .idle }
      report := ⟨c.word, Config.freeWord k, BitVec.ofNat 35 (Config.freeNat (k + 1))⟩
      outCount :=
        BitVec.ofNat 32 (s.shownOut.toNat + Config.freeNat (k + 2) % (outMax s - s.shownOut.toNat + 1))
      engine := .idle
      abortIn := none
      raceIn := none }

/-- A step of the engine. A command in a race, or with an ABORT accepted, counts down the steps it still has. -/
def engineTurn (s : State) : Turn :=
  if s.status.busy = false then .quiet s
  else
    match s.raceIn, s.abortIn with
    | some 0, _ => .quiet (endRace s)
    | some (n + 1), _ => .quiet { s with raceIn := some n }
    | none, some (n + 1) => fetchElement { s with abortIn := some n }
    | none, some 0 =>
      match fetchElement s with
      | .run i t => .stop i t
      | .quiet _ | .reject _ _ | .stop _ _ => .quiet (abortStop s.outCount s)
    | none, none => fetchElement s

/-! ### The host -/

/-- Deliver a host access. A supported write to CMD runs the command it spells (40_commands.md R400). -/
def deliver (a : HostAccess) (s : State) : Turn :=
  match a with
  | .regRead off bytes => .quiet (readReg off bytes s)
  | .regWrite off bytes v =>
    if !supported off bytes then .quiet s
    else if off = 0x08 then elementTurn .cmd v.toNat s
    else .quiet (writeReg off.toNat v s)
  | .memRead a => .quiet (hostMemRead a s)
  | .memWrite a v => .quiet (hostMemWrite a v s)
  | .reset => .quiet (resetEvent s)

/-- A step of the host: its oldest pending access, if it has one (70_reset_and_hazards.md R1211). -/
def hostTurn (s : State) : Turn :=
  match s.hostQueue with
  | [] => .quiet s
  | a :: q => deliver a { s with hostQueue := q }

/-! ### Which of the two -/

/-- The next turn: the schedule names the agent; with none named, a running command goes on and an idle CORE waits
for the host (70_reset_and_hazards.md R1220, 93 I8; log entry 6). -/
def nextTurn (s : State) : Turn :=
  match s.sched with
  | .host :: rest => hostTurn { s with sched := rest }
  | .engine :: rest => engineTurn { s with sched := rest }
  | [] => if s.status.busy then engineTurn s else hostTurn s

/-! ### Placing an instruction -/

/-- A tree in which the one symbol v has the code `0`. -/
def oneSymbolTree (n v : Nat) : Tree := makeTree ((List.range n).map fun k => if k = v then 1 else 0)

/-- Memory with these bytes from an address on. -/
def Memory.place : Memory → Nat → List Byte → Memory
  | m, _, [] => m
  | m, a, b :: bs => (Memory.write m a b).place (a + 1) bs

/-- The configuration a placed element runs under: SRC of 256 bytes at 0x1000, DST of 64 KiB at 0x20000. -/
def placedParams : Params :=
  { Params.zero with src := ⟨0x1000, 0x100⟩, dst := ⟨0x20000, 0x10000⟩ }

/-- A command that is running with these parameters, in an engine state, its SRC starting with these bytes, the
engine to move next. -/
def running (c : Command) (g : Stage) (e : Engine) (p : Params) (bytes : List Byte) (s : State) : State :=
  { s with
    regs := p
    snap := p
    status := { busy := true, done := false, err := false, ign := s.status.ign, stage := g }
    report := ⟨0, 0, 0⟩
    outCount := 0
    cmd := c
    bp := 0
    engine := e
    shownOut := 0
    shownStage := .idle
    abortIn := none
    raceIn := none
    mem := s.mem.place p.src.base.toNat bytes
    sched := .engine :: s.sched }

/-- A state in which the very next step runs the instruction a value of a format spells (log entry 13). -/
def placeElement (f : Format) (v : Nat) (s : State) : State :=
  let b (k : Nat) : Byte := BitVec.ofNat 8 (v / 256 ^ k)
  let inflating (e : Engine) (bytes : List Byte) : State := running .inflate .inflate e placedParams bytes s
  match f with
  | .cmd => { s with hostQueue := .regWrite 0x08 4 (BitVec.ofNat 32 v) :: s.hostQueue, sched := .host :: s.sched }
  | .zhdr => running .inflate .inflate .zhdr { placedParams with zlib := true } [b 1, b 0] s
  | .blkhdr => inflating .blockHeader [b 0]
  | .stored => inflating .stored [b 0, b 1, b 2, b 3]
  | .dynhdr => { inflating .dynHeader [b 0, b 1] with codesNext := false }
  | .clsym =>
    { inflating .dynHeader [0] with
      cl := oneSymbolTree 19 v, codesNext := true, hlit := 257, hdist := 1, lens := [] }
  | .llsym => { inflating .symbols [0] with ll := oneSymbolTree 288 v, matchLen := none }
  | .dsym => { inflating .symbols [0] with d := oneSymbolTree 32 v, matchLen := some 3 }
  | .ztrl => running .inflate .inflate .ztrailer { placedParams with zlib := true } [b 3, b 2, b 1, b 0] s
  | .filt =>
    { running .unfilter .reconstruct .reconstruct
        { Params.zero with
          src := ⟨0x1000, 2⟩, dst := ⟨0x20000, 1⟩, imgW := 1, imgH := 1, bitDepth := 8, colorMode := 0 }
        [b 0, 0] s with
      p := 7, y := 0, prev := none }

end Sys2Proof.Machine
end

