-- ==== Sys2Proof/Machine/Step.lean ====
section
/-! DEFINITION. One step of the machine, and where its next instruction stands. -/

namespace Sys2Proof.Machine

/-- One step: a stream element, a command, a host access or an end of the engine's own (70_reset_and_hazards.md
R1220; log entry 6). -/
def step (s : State) : Host.Outcome State Fault Refusal :=
  match nextTurn s with
  | .run i t => exec i t
  | .quiet t => .next t
  | .reject f v => .refused (.undecodable f v)
  | .stop i t =>
    match exec i t with
    | .next u => .next (abortStop u.outCount t)
    | .fault r => .fault r
    | .refused r => .refused r

/-- The state whose next step runs the instruction of a word of the opcode table (log entry 13). -/
def State.withFetchWord (s : State) (nbits w : Nat) : State :=
  match tableFormat nbits w with
  | none => s
  | some f => placeElement f w s

end Sys2Proof.Machine
end

