-- ==== Sys2Proof/Safety.lean ====
section
/-! DEFINITION. What holds in every state a run reaches, and the terms the statements use. -/

namespace Sys2Proof.Machine

/-- STATUS.STAGE in an engine state (10_state.md R106, R121). -/
def Engine.stage : Engine → Stage
  | .idle => .idle
  | .zhdr | .blockHeader | .stored | .dynHeader | .symbols | .streamEnd | .ztrailer => .inflate
  | .reconstruct => .reconstruct

/-- An entry of a tree of n symbols: a leaf holds a code length of 1 to 15 and a symbol of the alphabet
(42_huffman.md R604). -/
def Entry.fits (n : Nat) : Entry → Bool
  | .invalid => true
  | .leaf len sym => 1 ≤ len && len ≤ 15 && sym < n
  | .link _ _ => true

/-- Every entry of a tree fits an alphabet of n symbols. -/
def Tree.fits (n : Nat) (t : Tree) : Bool := t.tab.all (Entry.fits n)

/-- The row the reconstruct stage stands at: a pass exactly when the image is interlaced, a row of a non-empty pass,
and a previous row of the same stride exactly when the row is not the first (10_state.md R128, 45_filter.md R901). -/
structure RowInv (s : State) : Prop where
  pass : s.p ≤ 7 ∧ (s.p < 7 ↔ s.snap.interlace = 1)
  row : s.y < s.snap.rowCount s.p
  wide : 0 < s.snap.rowWidth s.p
  above : s.prev.map List.length = if s.y = 0 then none else some (rowStride s)

/-- The invariant of the machine. -/
structure Invariant (s : State) : Prop where
  /-- Memory keeps its canonical form. -/
  memory : s.mem.wf = true
  /-- IDLE is the only engine state with BUSY = 0 (10_state.md R121). -/
  idle : s.status.busy = false ↔ s.engine = .idle
  /-- STAGE follows the engine state (10_state.md R106). -/
  stage : s.status.stage = s.engine.stage
  /-- While a command runs: no DONE, no ERR, no report, the snapshot equal to the registers (10_state.md R129), and
  every start check passed (40_commands.md R424). -/
  running : s.status.busy = true →
    s.status.done = false ∧ s.status.err = false ∧ s.report = ⟨0, 0, 0⟩ ∧ s.snap = s.regs
      ∧ startFailure s.cmd s.snap = none
  /-- With no command running there is none to stop. -/
  resting : s.status.busy = false → s.abortIn = none ∧ s.raceIn = none
  /-- DONE and ERR are never both 1 (10_state.md R106). -/
  ended : ¬(s.status.done = true ∧ s.status.err = true)
  /-- After success: no report, and OUT_COUNT the whole output (10_state.md R110). -/
  finished : s.status.done = true → s.report = ⟨0, 0, 0⟩ ∧ s.outCount.toNat = outMax s
  /-- What reads have shown of OUT_COUNT and STAGE has been reached, and STAGE on the command's path. -/
  shown : s.status.busy = true →
    s.shownOut.toNat ≤ outReached s ∧ s.shownStage.code ≤ stageReached s ∧ s.shownStage ∈ stagePath s.cmd
  /-- The inflate stage: the cursor inside the stream (10_state.md R120), the output inside its region
  (10_state.md R123). -/
  inflating : s.engine.stage = .inflate →
    s.cmd ≠ .unfilter ∧ s.bp.toNat ≤ totalBits s ∧ s.outCount.toNat ≤ outLimit s
  /-- The reconstruct stage: the whole output is there, and the row is one of the image's. -/
  reconstructing : s.engine = .reconstruct → s.cmd ≠ .inflate ∧ s.outCount.toNat = outMax s ∧ RowInv s
  /-- The wrapper's elements are read only with CTRL.ZLIB = 1 (43_inflate.md R701, R713). -/
  header : s.engine = .zhdr → s.snap.zlib = true ∧ s.bp = 0
  /-- The trailer comes after the whole output (43_inflate.md R712). -/
  trailer : s.engine = .ztrailer → s.snap.zlib = true ∧ s.outCount.toNat = outLimit s
  /-- A stored header is byte-aligned (43_inflate.md R720). -/
  aligned : s.engine = .stored → s.bp.toNat % 8 = 0
  /-- The counts lie in their ranges (10_state.md R126). -/
  counts : (257 ≤ s.hlit ∧ s.hlit ≤ 288) ∧ (1 ≤ s.hdist ∧ s.hdist ≤ 32) ∧ (4 ≤ s.hclen ∧ s.hclen ≤ 19)
  /-- The code lengths written so far are at most as many as announced, each at most 15 (43_inflate.md R706). -/
  lengths : s.engine = .dynHeader → s.codesNext = true →
    s.lens.length ≤ lensWanted s ∧ ∀ l ∈ s.lens, l ≤ 15
  /-- The trees hold symbols of their alphabets (10_state.md R124). -/
  trees : s.ll.fits 288 = true ∧ s.d.fits 32 = true ∧ s.cl.fits 19 = true

/-- An address that lies in none of these regions. -/
def Outside (rs : List Region) (a : Nat) : Prop := ∀ r ∈ rs, r.has a = false

/-- A region inside memory (20_memory.md R202). -/
def Region.inside (r : Region) : Prop := r.base.toNat + r.len.toNat ≤ memorySize

/-- The engine moves next, undisturbed: a command runs, no ABORT and no race is pending, and the schedule does not
name the host. -/
def EngineNext (s : State) : Prop :=
  s.status.busy = true ∧ s.abortIn = none ∧ s.raceIn = none ∧ s.sched.head? ≠ some .host

/-- The host moves next. -/
def HostNext (s : State) : Prop :=
  s.sched.head? = some .host ∨ (s.sched = [] ∧ s.status.busy = false)

/-- The state once the schedule's head is taken. -/
def takeTurn (s : State) : State := { s with sched := s.sched.tail }

/-- n steps of the machine, stopping at a fault or refusal (then none). -/
def steps : Nat → State → Option State
  | 0, s => some s
  | n + 1, s =>
    match step s with
    | .next t => steps n t
    | .fault _ | .refused _ => none

/-- The rows of an image, over all its passes when it is interlaced. -/
def imageRows (p : Params) : Nat :=
  if p.interlace = 1 then ((List.range 7).map p.rowCount).sum else p.rowCount 7

end Sys2Proof.Machine
end

