-- ==== Sys2Proof/Certificates/Slice0/Obligations.lean ====
section
/-! DEFINITION. The statements for the provers. Each docstring names the rule it formalises. -/

namespace Sys2Proof.Statements

open Sys2Proof.Machine

/-- The length codes with their bases and extra widths (30_encoding.md R331). -/
def lengthRows : List (Instr × Nat × Nat) :=
  [(.len257, 3, 0), (.len258, 4, 0), (.len259, 5, 0), (.len260, 6, 0), (.len261, 7, 0), (.len262, 8, 0),
   (.len263, 9, 0), (.len264, 10, 0), (.len265, 11, 1), (.len266, 13, 1), (.len267, 15, 1), (.len268, 17, 1),
   (.len269, 19, 2), (.len270, 23, 2), (.len271, 27, 2), (.len272, 31, 2), (.len273, 35, 3), (.len274, 43, 3),
   (.len275, 51, 3), (.len276, 59, 3), (.len277, 67, 4), (.len278, 83, 4), (.len279, 99, 4), (.len280, 115, 4),
   (.len281, 131, 5), (.len282, 163, 5), (.len283, 195, 5), (.len284, 227, 5), (.len285, 258, 0)]

/-- The distance codes with their bases and extra widths (30_encoding.md R333). -/
def distanceRows : List (Instr × Nat × Nat) :=
  [(.dist0, 1, 0), (.dist1, 2, 0), (.dist2, 3, 0), (.dist3, 4, 0), (.dist4, 5, 1), (.dist5, 7, 1),
   (.dist6, 9, 2), (.dist7, 13, 2), (.dist8, 17, 3), (.dist9, 25, 3), (.dist10, 33, 4), (.dist11, 49, 4),
   (.dist12, 65, 5), (.dist13, 97, 5), (.dist14, 129, 6), (.dist15, 193, 6), (.dist16, 257, 7), (.dist17, 385, 7),
   (.dist18, 513, 8), (.dist19, 769, 8), (.dist20, 1025, 9), (.dist21, 1537, 9), (.dist22, 2049, 10),
   (.dist23, 3073, 10), (.dist24, 4097, 11), (.dist25, 6145, 11), (.dist26, 8193, 12), (.dist27, 12289, 12),
   (.dist28, 16385, 13), (.dist29, 24577, 13)]

/-- The filter types with their predictors, from the neighbours a, b and c (45_filter.md R910 to R914). -/
def filterRows : List (Instr × Predictor) :=
  [(.filtNone, fun _ _ _ => 0), (.filtSub, fun a _ _ => a), (.filtUp, fun _ b _ => b),
   (.filtAvg, fun a b _ => (a + b) / 2), (.filtPaeth, paeth)]

/-- The commands that run, with their instructions. -/
def startRows : List (Instr × Command) := [(.inflate, .inflate), (.unfilter, .unfilter), (.decode, .decode)]

/-- The RW registers with the bits of them that are stored (10_state.md R104, R111 to R113). -/
def configMasks : List (Nat × Word) :=
  [(0x04, 0x3), (0x24, 0xFFFFFFFF), (0x28, 0xFFFFFFFF), (0x2C, 0xFFFFFFFF), (0x30, 0xFFFFFFFF),
   (0x34, 0xFFFFFFFF), (0x38, 0xFFFFFFFF), (0x3C, 0xFFFFFFFF), (0x40, 0xFFFFFFFF), (0x44, 0x00FFFFFF)]

/-- The legal pairs of color mode and bit depth (10_state.md R142). -/
def legalFormats : List (Nat × Nat) :=
  [(0, 1), (0, 2), (0, 4), (0, 8), (0, 16), (2, 8), (2, 16), (3, 1), (3, 2), (3, 4), (3, 8), (4, 8), (4, 16), (6, 8),
   (6, 16)]

/-- CLORDER, the order the code-length code's lengths are sent in (30_encoding.md R334). -/
def orderOfLengths : List Nat := [16, 17, 18, 0, 8, 7, 9, 6, 10, 5, 11, 4, 12, 3, 13, 2, 14, 1, 15]

/-- The fixed literal/length code lengths, symbol by symbol (43_inflate.md R704). -/
def fixedLengths : List Nat :=
  (List.range 288).map fun s => if s < 144 then 8 else if s < 256 then 9 else if s < 280 then 7 else 8

/-- The passes: startX, startY, dx and dy (46_interlace.md R1000). -/
def passRows : List (Nat × Lattice) :=
  [(0, ⟨0, 0, 8, 8⟩), (1, ⟨4, 0, 8, 8⟩), (2, ⟨0, 4, 4, 8⟩), (3, ⟨2, 0, 4, 4⟩), (4, ⟨0, 2, 2, 4⟩), (5, ⟨1, 0, 2, 2⟩),
   (6, ⟨0, 1, 1, 2⟩)]

/-- STAGE as the host reads it: 0 idle, 1 the inflate stage, 2 the reconstruct stage (10_state.md R106). -/
def stageNumber : Stage → Nat
  | .idle => 0
  | .inflate => 1
  | .reconstruct => 2

/-- STATUS as the host reads it: BUSY, DONE, ERR and IGN in bits 0 to 3, STAGE in bits [5:4], the rest 0
(10_state.md R106). -/
def statusBits (f : Status) : Word :=
  BitVec.ofNat 32 (f.busy.toNat + 2 * f.done.toNat + 4 * f.err.toNat + 8 * f.ign.toNat + 16 * stageNumber f.stage)

/-- What the host reads at each offset below the reserved ones, by the rules of the registers (10_state.md R103 to
R113): ERR_BITPOS_LO has bits [31:0] of the 35-bit position and ERR_BITPOS_HI bits [34:32]. -/
def readValues (s : State) : List (Nat × Word) :=
  [(0x00, 0x44460001), (0x04, BitVec.ofNat 32 (s.regs.zlib.toNat + 2 * s.irqEn.toNat)), (0x08, 0),
   (0x0C, statusBits s.status), (0x10, s.report.code), (0x14, s.report.info), (0x18, BitVec.ofNat 32 (s.report.bitpos.toNat % 2 ^ 32)),
   (0x1C, BitVec.ofNat 32 (s.report.bitpos.toNat / 2 ^ 32)), (0x20, s.outCount), (0x24, s.regs.src.base),
   (0x28, s.regs.src.len), (0x2C, s.regs.dst.base), (0x30, s.regs.dst.len), (0x34, s.regs.work.base),
   (0x38, s.regs.work.len), (0x3C, s.regs.imgW), (0x40, s.regs.imgH),
   (0x44, BitVec.ofNat 32
      (s.regs.bitDepth.toNat + 2 ^ 8 * s.regs.colorMode.toNat + 2 ^ 16 * s.regs.interlace.toNat))]

/-- The color modes with their channels (10_state.md R140). -/
def channelRows : List (Nat × Nat) := [(0, 1), (2, 3), (3, 1), (4, 2), (6, 4)]

/-- Bits per pixel: the channels of the color mode times the bit depth (10_state.md R141). -/
def pixelBits (p : Params) : Nat := (channelRows.lookup p.colorMode.toNat).getD 0 * p.bitDepth.toNat

/-- The data bytes of a scanline of w pixels, ceil(w * bpp / 8) (10_state.md R141). -/
def scanlineBytes (p : Params) (w : Nat) : Nat := (w * pixelBits p + 7) / 8

/-- The bytes of one pass in the filtered buffer: none for an empty pass (30_encoding.md R342). -/
def bytesOfPass (p : Params) (q : Nat) : Nat :=
  let w := passWidth p.imgW.toNat q
  let h := passHeight p.imgH.toNat q
  if w = 0 ∨ h = 0 then 0 else h * (1 + scanlineBytes p w)

/-- RAW_SIZE, the bytes of the raster (40_commands.md R423). -/
def rasterBytes (p : Params) : Nat := p.imgH.toNat * scanlineBytes p p.imgW.toNat

/-- FILT_SIZE, the bytes of the filtered buffer (40_commands.md R423). -/
def filteredBytes (p : Params) : Nat :=
  if p.interlace = 1 then ((List.range 7).map (bytesOfPass p)).sum
  else p.imgH.toNat * (1 + scanlineBytes p p.imgW.toNat)

/-- The state with its status replaced by that of a command ended with an error. -/
def failed (s : State) : Status := ⟨false, false, true, s.status.ign, .idle⟩

/-- A region wraps (20_memory.md R202). -/
abbrev wraps (r : Region) : Prop := r.base.toNat + r.len.toNat > 2 ^ 32

/-- Two regions overlap (20_memory.md R203). -/
abbrev meet (a b : Region) : Prop :=
  (a.len ≠ 0 ∧ b.len ≠ 0) ∧ a.base.toNat < b.base.toNat + b.len.toNat ∧ b.base.toNat < a.base.toNat + a.len.toNat

/-- The checks UNFILTER and DECODE make before their region checks (40_commands.md R420 to R423, R424). -/
def imageFailure (p : Params) (rest : Option Failure) : Option Failure :=
  if p.colorMode.toNat ∉ [0, 2, 3, 4, 6] then some (.fmtColorMode, p.colorMode.setWidth 32)
  else if (p.colorMode.toNat, p.bitDepth.toNat) ∉ legalFormats then some (.fmtBitDepth, p.bitDepth.setWidth 32)
  else if p.interlace ≠ 0 ∧ p.interlace ≠ 1 then some (.fmtInterlace, p.interlace.setWidth 32)
  else if p.imgW = 0 ∨ p.imgH = 0 then some (.cfgDimZero, 0)
  else if p.interlace = 1 ∧ pixelBits p < 8 then some (.subbyteInterlace, BitVec.ofNat 32 (pixelBits p))
  else if filteredBytes p ≥ 2 ^ 32 ∨ rasterBytes p ≥ 2 ^ 32 then some (.cfgSizeOverflow, 0)
  else rest

/-- The bit reader. Bit j of Peek(n), and of the n-bit field at any other place k of the stream, is bit k mod 8 of SRC
byte k div 8, counted from the cursor or from that place, and 0 at or past the end of SRC (41_bitreader.md R500 to
R502). Consuming n bits moves the cursor n on (R504), Align moves it to the next byte boundary (R506), and from there
bytes are read as they stand in SRC (R507); none of them changes anything else. -/
def BitReader : Prop :=
  ∀ s : State,
    let bit (k : Nat) : Bool := decide (k < 8 * s.snap.src.len.toNat) && (readByte s s.snap.src (k / 8)).getLsbD (k % 8)
    totalBits s = 8 * s.snap.src.len.toNat
    ∧ (∀ n, peek s n < 2 ^ n ∧ ∀ j, j < n → (peek s n).testBit j = bit (s.bp.toNat + j))
    ∧ (∀ k n, streamField s k n < 2 ^ n ∧ ∀ j, j < n → (streamField s k n).testBit j = bit (k + j))
    ∧ (s.snap.src.inside → ∀ k, k < s.snap.src.len.toNat → readByte s s.snap.src k = s.mem.read (s.snap.src.base.toNat + k))
    ∧ (∀ n, skip n s = { s with bp := s.bp + BitVec.ofNat 35 n })
    ∧ align s = { s with bp := BitVec.ofNat 35 (8 * ((s.bp.toNat + 7) / 8)) }
    ∧ ∀ j, alignedByte s j = readByte s s.snap.src (s.bp.toNat / 8 + j)

/-- Every value of every format, with the instruction it spells: CMD by its low four bits, the field formats field by
field, the symbols and filter types value by value (30_encoding.md R300, R301, R310, R316, R320 to R322, R330 to R333,
R335, R340). -/
def ValuesSpell : Prop :=
  (∀ w : Word, ∀ i,
    (w.toNat % 16, i) ∈ [(0, Instr.nop), (1, .inflate), (2, .unfilter), (3, .decode), (15, .abort)]
      ∨ (4 ≤ w.toNat % 16 ∧ w.toNat % 16 ≤ 14 ∧ i = .reservedCmd (BitVec.ofNat 4 w.toNat)) →
    decode .cmd w.toNat = .ok i)
  ∧ (∀ cmf flg : Byte, decode .zhdr (256 * cmf.toNat + flg.toNat) = .ok (.zhdr cmf flg))
  ∧ (∀ b : Bool,
      (List.range 4).map (fun t => decode .blkhdr (b.toNat + 2 * t))
        = [.ok (.blkStored b), .ok (.blkFixed b), .ok (.blkDynamic b), .ok (.blkReserved b)])
  ∧ (∀ len nlen : BitVec 16, decode .stored (len.toNat + 2 ^ 16 * nlen.toNat) = .ok (.stored len nlen))
  ∧ (∀ (hlit hdist : BitVec 5) (hclen : BitVec 4),
      decode .dynhdr (hlit.toNat + 2 ^ 5 * hdist.toNat + 2 ^ 10 * hclen.toNat) = .ok (.dynhdr hlit hdist hclen))
  ∧ (∀ l : BitVec 4, decode .clsym l.toNat = .ok (.clsymLen l))
  ∧ (List.range' 16 3).map (decode .clsym) = [.ok .clsym16, .ok .clsym17, .ok .clsym18]
  ∧ (∀ b : Byte, decode .llsym b.toNat = .ok (.lit b))
  ∧ (List.range' 256 32).map (decode .llsym)
      = [.ok .eob] ++ lengthRows.map (fun r => .ok r.1) ++ [.ok (.llReserved 286), .ok (.llReserved 287)]
  ∧ (List.range 32).map (decode .dsym)
      = distanceRows.map (fun r => .ok r.1) ++ [.ok (.dReserved 30), .ok (.dReserved 31)]
  ∧ (∀ v : Word, decode .ztrl v.toNat = .ok (.ztrl v))
  ∧ (List.range 5).map (decode .filt) = filterRows.map (fun r => .ok r.1)
  ∧ ∀ ft : Byte, 5 ≤ ft.toNat → decode .filt ft.toNat = .ok (.filtReserved ft)

/-- nextCode[l], before any symbol has its code (42_huffman.md R602). -/
def nextCode (lens : List Nat) : Nat → Nat
  | 0 => 0
  | l + 1 => (nextCode lens l + if l = 0 then 0 else lens.count l) * 2

/-- The canonical codes: a used symbol has the next code of its length, in symbol order, masked to its length
(42_huffman.md R602); and the reversal that the decoder compares: bit j of rev(v, n) is bit n - 1 - j of v (R603). -/
def CanonicalCodes : Prop :=
  (∀ (lens : List Nat) (k l : Nat), (∀ x ∈ lens, x ≤ 15) → lens[k]? = some l → 0 < l →
    (canonicalCodes lens)[k]? = some ((nextCode lens l + (lens.take k).count l) % 2 ^ l))
  ∧ ∀ v n : Nat, rev v n < 2 ^ n ∧ ∀ j, j < n → (rev v n).testBit j = v.testBit (n - 1 - j)

/-- The regions a command writes and those it uses (20_memory.md R204), the bytes of a region (R202), and where the
inflate stage writes: WORK for DECODE, otherwise DST (10_state.md R123, 40_commands.md R403). -/
def RegionsOfCommands : Prop :=
  (∀ p : Params,
    [Command.inflate, .unfilter, .decode].map (writtenRegions · p) = [[p.dst], [p.dst], [p.work, p.dst]]
    ∧ [Command.inflate, .unfilter, .decode].map (usedRegions · p) = [[p.src, p.dst], [p.src, p.dst], [p.src, p.dst, p.work]])
  ∧ (∀ (r : Region) (a : Nat), r.has a = true ↔ r.base.toNat ≤ a ∧ a < r.base.toNat + r.len.toNat)
  ∧ (∀ (r : Region) (i : Nat), r.inside → i < r.len.toNat → r.addr i = r.base.toNat + i)
  ∧ ∀ s : State,
      outRegion s = (if s.cmd = .decode then s.snap.work else s.snap.dst) ∧ outLimit s = (outRegion s).len.toNat

/-- The symbol k of a length set has a code, and the stream spells it at the cursor (42_huffman.md R603). -/
def Spells (s : State) (lens : List Nat) (k : Nat) : Prop :=
  0 < lens.getD k 0 ∧ peek s (lens.getD k 0) = rev ((canonicalCodes lens).getD k 0) (lens.getD k 0)

/-- Where the rows of the filtered buffer stand: in WORK for DECODE and in SRC for UNFILTER (40_commands.md R403),
with the bits per pixel and byte width of 10_state.md R140 and R141 and the dimensions and emptiness of the passes
(46_interlace.md R1001); scanline y of an image (30_encoding.md R341) or
of a pass, behind the passes before it (R342, 46_interlace.md R1003), its data bytes after its FILT byte; and the size
of the whole (40_commands.md R423). -/
def FilteredLayout : Prop :=
  ∀ s : State,
    let c := s.snap
    let stride (w : Nat) : Nat := (w * c.bpp + 7) / 8
    (∀ m n, (m, n) ∈ channelRows → c.colorMode.toNat = m → c.bpp = n * c.bitDepth.toNat) ∧ c.bw = max 1 (c.bpp / 8)
    ∧ c.rowWidth 7 = c.imgW.toNat ∧ c.rowCount 7 = c.imgH.toNat
    ∧ (∀ q, q < 7 → c.rowWidth q = passWidth c.imgW.toNat q ∧ c.rowCount q = passHeight c.imgH.toNat q
        ∧ (c.emptyPass q = true ↔ c.rowWidth q = 0 ∨ c.rowCount q = 0))
    ∧ filtRegion s = (if s.cmd = .decode then c.work else c.src)
    ∧ (s.p = 7 → rowStride s = stride c.imgW.toNat ∧ rowOffset s = s.y * (1 + stride c.imgW.toNat))
    ∧ (s.p < 7 → rowStride s = stride (passWidth c.imgW.toNat s.p)
        ∧ rowOffset s =
          ((List.range s.p).map (bytesOfPass c)).sum + s.y * (1 + stride (passWidth c.imgW.toNat s.p)))
    ∧ (scanline s).length = rowStride s
    ∧ (∀ k, k < rowStride s → (scanline s).getD k 0 = readByte s (filtRegion s) (rowOffset s + 1 + k))
    ∧ (c.interlace = 0 → c.filtSize = c.imgH.toNat * (1 + stride c.imgW.toNat))
    ∧ (c.interlace = 1 → c.filtSize = ((List.range 7).map (bytesOfPass c)).sum)

/-- The host delivers this access next, with these behind it. -/
def HostDelivers (s : State) (a : HostAccess) (q : List HostAccess) : Prop := HostNext s ∧ s.hostQueue = a :: q

/-- The state once the schedule's head and the queue's head are taken. -/
def taken (s : State) (q : List HostAccess) : State := { takeTurn s with hostQueue := q }

end Sys2Proof.Statements

open Sys2Proof Sys2Proof.Machine Sys2Proof.Statements

/-! ### Encoding -/

/-- Decoding an encoded well-formed instruction gives it back, in every format, every operand at every value. -/
def Obligations.DecodeOfEncode : Prop :=
  ∀ i : Instr, i.wf = true → decode i.format (encode i) = .ok i

/-- A value that decodes gives a well-formed instruction of its format, and encoding that gives the value back; of a
CMD word the low four bits, since bits [31:4] are ignored (30_encoding.md R300). -/
def Obligations.EncodeOfDecode : Prop :=
  ∀ (f : Format) (v : Nat) (i : Instr), decode f v = .ok i →
    i.format = f ∧ i.wf = true ∧ encode i = if f = .cmd then v % 16 else v

/-- "within each of the formats CMD (OP), BLKHDR, CLSYM (0..18), LLSYM (0..287), DSYM (0..31) and FILT exactly one
row selects each value" (30_encoding.md R350), and the decoder gives that row's instruction; it rejects CLSYM above
18 and LLSYM above 287, and nothing else of a format's width. The values with their instructions are written out
(ValuesSpell). -/
def Obligations.OneRowSelectsEachValue : Prop :=
  ValuesSpell
  ∧ (∀ f ∈ [Format.cmd, .blkhdr, .clsym, .llsym, .dsym, .filt], ∀ (v : Nat) (i : Instr), decode f v = .ok i →
    (opcodeRows.filter fun r => r.selects f v).map (·.row) = [i.row])
  ∧ ∀ (f : Format) (v : Nat), v < 2 ^ f.width →
      ((∃ r, decode f v = .error r) ↔ (f = .clsym ∧ 19 ≤ v) ∨ (f = .llsym ∧ 288 ≤ v))

/-- Words written out from the spec's encodings decode to the instructions they stand for. -/
def Obligations.WordsDecode : Prop :=
  decode .cmd 0x12345671 = .ok .inflate ∧ decode .cmd 0x0000000F = .ok .abort
  ∧ decode .cmd 0x00000007 = .ok (.reservedCmd 7) ∧ decode .zhdr 0x7801 = .ok (.zhdr 0x78 0x01)
  ∧ decode .blkhdr 0b001 = .ok (.blkStored true) ∧ decode .blkhdr 0b101 = .ok (.blkDynamic true)
  ∧ decode .stored 0xFFFA0005 = .ok (.stored 5 0xFFFA) ∧ decode .dynhdr 0x3C1D = .ok (.dynhdr 29 0 15)
  ∧ decode .clsym 17 = .ok .clsym17 ∧ decode .llsym 0x41 = .ok (.lit 0x41) ∧ decode .llsym 284 = .ok .len284
  ∧ decode .llsym 286 = .ok (.llReserved 286) ∧ decode .dsym 29 = .ok .dist29
  ∧ decode .ztrl 0x00440043 = .ok (.ztrl 0x00440043) ∧ decode .filt 4 = .ok .filtPaeth
  ∧ decode .filt 0x80 = .ok (.filtReserved 0x80)

/-! ### A step runs the decoded instruction -/

/-- When the engine moves next and the bits at the cursor decode, the step is exec of the instruction, at the state
with the element's own field or code consumed. When its fetch fails the step raises, with nothing consumed: a BLKHDR or
DYNHDR field past the end of SRC is BIT_OVERRUN (41_bitreader.md R504), a STORED field STORED_TRUNC (90_conflicts.md
C3), a symbol's decode has its own cause (42_huffman.md R620, R621), SRC_LEN < 2 is ZHDR_TRUNC and a trailer cut short
ZTRAILER_TRUNC. What the bit reader reads
is written out (BitReader: R500 to R502). That one step is one
element is the model's granularity (log entry 6); that a STORED field cut short is STORED_TRUNC, with its LEN in ERR_INFO where
SRC holds it and any value otherwise, is the model's reading of C3 against R720, which names BIT_OVERRUN (log entry
24). -/
def Obligations.EngineStepRunsDecoded : Prop :=
  BitReader
  ∧ ∀ s : State, EngineNext s →
    (∀ (e : Engine) (f : Format) (n : Nat),
      (e, f, n) ∈ [(Engine.blockHeader, Format.blkhdr, 3), (.stored, .stored, 32), (.dynHeader, .dynhdr, 14)] →
      s.engine = e → (e = .dynHeader → s.codesNext = false) →
      (s.bp.toNat + n ≤ totalBits s → ∀ i, decode f (peek s n) = .ok i → step s = exec i (skip n (takeTurn s)))
      ∧ (totalBits s < s.bp.toNat + n → e ≠ .stored → step s = .next (raiseError .bitOverrun 0 (takeTurn s))))
    ∧ (s.engine = .stored → totalBits s < s.bp.toNat + 32 →
        (s.bp.toNat + 16 ≤ totalBits s →
          step s = .next (raiseError .storedTrunc (BitVec.ofNat 32 (peek s 16)) (takeTurn s)))
        ∧ (totalBits s < s.bp.toNat + 16 →
          ∃ w k, step s = .next (raiseError .storedTrunc w { takeTurn s with draws := k })))
    ∧ (s.engine = .dynHeader → s.codesNext = true → s.lens.length < s.hlit + s.hdist →
        (∀ v t i, decodeSym s.cl .clInvalidSymbol (takeTurn s) = .sym v t → decode .clsym v = .ok i → step s = exec i t)
        ∧ ∀ c, decodeSym s.cl .clInvalidSymbol (takeTurn s) = .err c → step s = .next (raiseError c 0 (takeTurn s)))
    ∧ (s.engine = .symbols → s.matchLen = none →
        (∀ v t i, decodeSym s.ll .llInvalidSymbol (takeTurn s) = .sym v t → decode .llsym v = .ok i → step s = exec i t)
        ∧ ∀ c, decodeSym s.ll .llInvalidSymbol (takeTurn s) = .err c → step s = .next (raiseError c 0 (takeTurn s)))
    ∧ (s.engine = .symbols → s.matchLen ≠ none →
        (∀ v t i, decodeSym s.d .dInvalidSymbol (takeTurn s) = .sym v t → decode .dsym v = .ok i → step s = exec i t)
        ∧ ∀ c, decodeSym s.d .dInvalidSymbol (takeTurn s) = .err c → step s = .next (raiseError c 0 (takeTurn s)))
    ∧ (s.engine = .zhdr →
        (2 ≤ s.snap.src.len.toNat →
          ∀ i, decode .zhdr ((readByte s s.snap.src 0).toNat * 256 + (readByte s s.snap.src 1).toNat) = .ok i →
          step s = exec i (takeTurn s))
        ∧ (s.snap.src.len.toNat < 2 → step s = .next (raiseError .zhdrTrunc s.snap.src.len (takeTurn s))))
    ∧ (s.engine = .ztrailer →
        ((align s).bp.toNat / 8 + 4 ≤ s.snap.src.len.toNat →
          ∀ i, decode .ztrl
            ((((alignedByte (align s) 0).toNat * 256 + (alignedByte (align s) 1).toNat) * 256
              + (alignedByte (align s) 2).toNat) * 256 + (alignedByte (align s) 3).toNat) = .ok i →
          step s = exec i (takeTurn s))
        ∧ (s.snap.src.len.toNat < (align s).bp.toNat / 8 + 4 →
            step s = .next (raiseError .ztrailerTrunc 0 (align (takeTurn s)))))
    ∧ (s.engine = .reconstruct →
        ∀ i, decode .filt (readByte s (filtRegion s) (rowOffset s)).toNat = .ok i → step s = exec i (takeTurn s))

/-- "A host write of word w to CMD ... acts on OP = w[3:0]" (40_commands.md R400): the step that delivers it is exec
of the command the word spells. The queue of host accesses is the model's (log entry 6). -/
def Obligations.HostStepRunsCommand : Prop :=
  ∀ (s : State) (w : Word) (q : List HostAccess), HostDelivers s (.regWrite 0x08 4 w) q →
    decode .cmd w.toNat = .ok (decodeCmd (w.toNat % 16)) ∧ step s = exec (decodeCmd (w.toNat % 16)) (taken s q)

/-! ### Commands -/

/-- A CMD write while BUSY: ABORT for OP = 0xF, otherwise ignored but for IGN (40_commands.md R405). -/
def Obligations.BusyIgnoresCommands : Prop :=
  ∀ (s : State) (w : Word), s.status.busy = true →
    (w.toNat % 16 = 15 → decodeCmd (w.toNat % 16) = .abort)
    ∧ (w.toNat % 16 ≠ 15 →
        exec (decodeCmd (w.toNat % 16)) s = .next { s with status := { s.status with ign := true } })

/-- INFLATE and DECODE from idle, every start check passed: the start sequence (40_commands.md R402) and the entry of
the inflate stage (43_inflate.md R700), in one step. That the start checks are in the same step is the model's choice
(log entry 12). -/
def Obligations.InflateAndDecodeStart : Prop :=
  ∀ (i : Instr) (c : Command) (s : State), (i, c) ∈ startRows → c ≠ .unfilter → s.status.busy = false →
    startFailure c s.regs = none →
    exec i s =
      .next
        { s with
          status := ⟨true, false, false, s.status.ign, .inflate⟩
          report := ⟨0, 0, 0⟩
          outCount := 0
          snap := s.regs
          cmd := c
          bp := 0
          engine := if s.regs.zlib then .zhdr else .blockHeader
          codesNext := false
          matchLen := none
          shownOut := 0
          shownStage := .idle
          abortIn := none
          raceIn := none }

/-- UNFILTER from idle, every start check passed: the start sequence (40_commands.md R402) and the entry of the
reconstruct stage at the first row of the image (45_filter.md R920) or of pass 0 (46_interlace.md R1005), which is
never empty. That the start checks are in the same step is the model's choice (log entry 12). -/
def Obligations.UnfilterStarts : Prop :=
  ∀ s : State, s.status.busy = false → startFailure .unfilter s.regs = none →
    exec .unfilter s =
      .next
        { s with
          status := ⟨true, false, false, s.status.ign, .reconstruct⟩
          report := ⟨0, 0, 0⟩
          outCount := 0
          snap := s.regs
          cmd := .unfilter
          engine := .reconstruct
          p := if s.regs.interlace = 1 then 0 else 7
          y := 0
          prev := none
          shownOut := 0
          shownStage := .idle
          abortIn := none
          raceIn := none }

/-- The start checks of the three commands and their order: "the first that fails raises and no later one is made"
(40_commands.md R424), with the legal formats (10_state.md R142) and the sizes (R423) written out. -/
def Obligations.StartChecksInOrder : Prop :=
  ∀ p : Params,
    startFailure .inflate p =
      (if wraps p.src then some (.cfgRegionWrap, 1)
      else if wraps p.dst then some (.cfgRegionWrap, 2)
      else if meet p.src p.dst then some (.cfgOverlap, 0x21)
      else none)
    ∧ startFailure .unfilter p =
      imageFailure p
        (if wraps p.src then some (.cfgRegionWrap, 1)
        else if wraps p.dst then some (.cfgRegionWrap, 2)
        else if p.src.len.toNat ≠ filteredBytes p then some (.cfgSizeMismatch, 1)
        else if p.dst.len.toNat ≠ rasterBytes p then some (.cfgSizeMismatch, 2)
        else if meet p.src p.dst then some (.cfgOverlap, 0x21)
        else none)
    ∧ startFailure .decode p =
      imageFailure p
        (if wraps p.src then some (.cfgRegionWrap, 1)
        else if wraps p.dst then some (.cfgRegionWrap, 2)
        else if wraps p.work then some (.cfgRegionWrap, 3)
        else if p.work.len.toNat ≠ filteredBytes p then some (.cfgSizeMismatch, 3)
        else if p.dst.len.toNat ≠ rasterBytes p then some (.cfgSizeMismatch, 2)
        else if meet p.src p.dst then some (.cfgOverlap, 0x21)
        else if meet p.src p.work then some (.cfgOverlap, 0x31)
        else if meet p.work p.dst then some (.cfgOverlap, 0x23)
        else none)

/-- "a failing check ends the command with its error at once" (40_commands.md R401): no byte of memory has
changed. That the start sequence and the failing check are one step is the model's choice (log entry 12). -/
def Obligations.FailedStartChecks : Prop :=
  ∀ (i : Instr) (c : Command) (s : State) (cause : Cause) (info : Word), (i, c) ∈ startRows →
    s.status.busy = false → startFailure c s.regs = some (cause, info) →
    exec i s =
      .next
        { s with
          status := failed s
          report := ⟨cause.word, info, 0⟩
          outCount := 0
          snap := s.regs
          cmd := c
          engine := .idle
          shownOut := 0
          shownStage := .idle
          abortIn := none
          raceIn := none }

/-- A reserved OP: BAD_CMD when idle, ignored with IGN while BUSY (40_commands.md R445). -/
def Obligations.ReservedCommandElement : Prop :=
  ∀ (op : BitVec 4) (s : State), 4 ≤ op.toNat → op.toNat ≤ 14 →
    (∀ w : Word, w.toNat % 16 = op.toNat → decode .cmd w.toNat = .ok (.reservedCmd op))
    ∧ (s.status.busy = false → s.status.stage = .idle →
      exec (.reservedCmd op) s =
        .next
          { s with
            status := failed s
            report := ⟨0x601, op.setWidth 32, 0⟩
            outCount := 0
            engine := .idle
            abortIn := none
            raceIn := none })
    ∧ (s.status.busy = true →
        exec (.reservedCmd op) s = .next { s with status := { s.status with ign := true } })

/-- NOP, the written word's bits [31:4] ignored: "if STATUS.BUSY = 0 then (nothing) else STATUS.IGN <- 1"
(40_commands.md R440). -/
def Obligations.NopElement : Prop :=
  ∀ s : State,
    (∀ w : Word, w.toNat % 16 = 0 → decode .cmd w.toNat = .ok .nop)
    ∧ (s.status.busy = false → exec .nop s = .next s)
    ∧ (s.status.busy = true → exec .nop s = .next { s with status := { s.status with ign := true } })

/-- ABORT (40_commands.md R444): nothing when idle; a running command is left some number of engine steps and nothing
else changes, and a second ABORT changes nothing. When they are used up it "ends with raise Error(ABORTED, 0)":
ERR_BITPOS is 0, OUT_COUNT at least the count emitted before the step, IGN and the configuration as they were. The
count of steps in State is the model's form of the rule's unspecified number (log entries 5 and 8). -/
def Obligations.AbortElement : Prop :=
  ∀ s : State,
    (s.status.busy = false → exec .abort s = .next s)
    ∧ (s.status.busy = true → s.abortIn = none →
        ∃ n k : Nat, exec .abort s = .next { s with abortIn := some n, draws := k })
    ∧ (s.status.busy = true → s.abortIn ≠ none → exec .abort s = .next s)
    ∧ (Invariant s → s.status.busy = true → s.raceIn = none → s.abortIn = some 0 → s.sched.head? ≠ some .host →
        ∃ t, step s = .next t ∧ t.status = failed s ∧ t.report = ⟨0x770, 0, 0⟩ ∧ t.engine = .idle ∧ t.regs = s.regs
          ∧ s.outCount.toNat ≤ t.outCount.toNat ∧ t.outCount.toNat ≤ outMax s)

/-- "the engine stops after a finite, unspecified number of further steps" (40_commands.md R444): with n steps
granted, the command has ended n + 1 engine steps later, with ABORTED or with its own completion. The count of steps
in State and the schedule are the model's (log entries 6 and 8). -/
def Obligations.AbortedCommandEnds : Prop :=
  ∀ (s : State) (n : Nat), Invariant s → s.status.busy = true → s.raceIn = none → s.abortIn = some n → s.sched = [] →
    ∃ k t, k ≤ n + 1 ∧ steps k s = some t ∧ t.status.busy = false ∧ (t.status.done = true ∨ t.status.err = true)

/-! ### Completion and errors -/

/-- Successful completion: "STATUS.BUSY <- 0; STATUS.STAGE <- 0; STATUS.DONE <- 1"; the error registers and OUT_COUNT
keep their values (40_commands.md R404). Memory changes only in WORK, and only after DECODE (20_memory.md R220). That
WORK takes free bytes at the completion is the model's form (log entry 3). -/
def Obligations.CompletionEndsCommand : Prop :=
  ∀ s : State, ∃ (m : Memory) (k : Nat),
    complete s =
      { s with
        status := { s.status with busy := false, stage := .idle, done := true }
        engine := .idle
        abortIn := none
        raceIn := none
        mem := m
        draws := k }
    ∧ (s.cmd ≠ .decode → m = s.mem)
    ∧ (s.mem.wf = true → s.snap.work.inside → ∀ a, s.snap.work.has a = false → m.read a = s.mem.read a)

/-- The stream's end (43_inflate.md R712): OUTPUT_SHORT, the trailer, or the end of the inflate stage, which completes
INFLATE and takes DECODE to the first row of the image or of pass 0 (40_commands.md R403). That the stream's end is a
step of its own is the model's granularity (log entry 6). -/
def Obligations.StreamEndStep : Prop :=
  ∀ s : State, EngineNext s → s.engine = .streamEnd →
    (s.outCount.toNat < outLimit s → step s = .next (raiseError .outputShort s.outCount (takeTurn s)))
    ∧ (outLimit s ≤ s.outCount.toNat → s.snap.zlib = true → step s = .next { takeTurn s with engine := .ztrailer })
    ∧ (outLimit s ≤ s.outCount.toNat → s.snap.zlib = false → s.cmd = .inflate → step s = .next (complete (takeTurn s)))
    ∧ (outLimit s ≤ s.outCount.toNat → s.snap.zlib = false → s.cmd = .decode → s.snap.imgW ≠ 0 → s.snap.imgH ≠ 0 →
        step s =
          .next
            { takeTurn s with
              status := { s.status with stage := .reconstruct }
              engine := .reconstruct
              p := if s.snap.interlace = 1 then 0 else 7
              y := 0
              prev := none })

/-- raise Error(cause, info) "ends the running command at once, in one atomic step" (60_exceptions.md R1130): the
error registers and STATUS as the rule says, the engine idle, OUT_COUNT and the configuration kept. Memory changes in
no byte when no stage has begun, and otherwise only in the written regions, which take free bytes (20_memory.md R221;
log entry 3). -/
def Obligations.RaiseErrorEndsCommand : Prop :=
  ∀ (c : Cause) (info : Word) (s : State), ∃ (m : Memory) (k : Nat),
    raiseError c info s =
      { s with
        report :=
          ⟨BitVec.ofNat 32 (c.cls * 256 + c.code), info,
            if s.status.stage = .inflate ∧ c ≠ .aborted then s.bp else 0⟩
        status := failed s
        engine := .idle
        abortIn := none
        raceIn := none
        mem := m
        draws := k }
    ∧ (s.status.stage = .idle → m = s.mem)
    ∧ (s.mem.wf = true → (∀ r ∈ writtenRegions s.cmd s.snap, r.inside) →
        m.wf = true ∧ ∀ a, Outside (writtenRegions s.cmd s.snap) a → m.read a = s.mem.read a)

/-- "SRC and every byte outside the written regions are unchanged" by an error (20_memory.md R221); an error raised
before a stage has begun changes no byte at all. SRC is outside the written regions of a running command, whose
regions passed their checks. That the written regions take free bytes at the error is the model's form (log
entry 3). -/
def Obligations.ErrorKeepsOtherMemory : Prop :=
  ∀ (c : Cause) (info : Word) (s : State), s.mem.wf = true → (∀ r ∈ writtenRegions s.cmd s.snap, r.inside) →
    (∀ a, Outside (writtenRegions s.cmd s.snap) a → (raiseError c info s).mem.read a = s.mem.read a)
    ∧ (s.status.stage = .idle → (raiseError c info s).mem = s.mem)
    ∧ (Invariant s → s.status.busy = true → ∀ j, j < s.snap.src.len.toNat →
        readByte (raiseError c info s) s.snap.src j = readByte s s.snap.src j)

/-- ERR_CODE of every cause, in the order of the table (60_exceptions.md R1101); no two agree. -/
def Obligations.CauseCodes : Prop :=
  Cause.all.map Cause.word =
    [0x601, 0x602, 0x603, 0x604, 0x605, 0x606, 0x310, 0x311, 0x312, 0x313, 0x314, 0x315, 0x316, 0x420, 0x421, 0x422,
     0x423, 0x424, 0x425, 0x426, 0x427, 0x428, 0x429, 0x42A, 0x42B, 0x42C, 0x42D, 0x42E, 0x42F, 0x430, 0x431, 0x540,
     0x541, 0x542, 0x543, 0x250, 0x770]
  ∧ (∀ c : Cause, c ∈ Cause.all) ∧ (∀ c e : Cause, c.word = e.word → c = e)

/-- "irq = CTRL.IRQ_EN and (STATUS.DONE or STATUS.ERR)": it rises at completion and at an error while IRQ_EN = 1 and
when IRQ_EN is set while DONE or ERR is 1, falls when the host clears both, at a command start and when IRQ_EN is
cleared, and IGN does not raise it (60_exceptions.md R1120). -/
def Obligations.InterruptOutput : Prop :=
  (∀ s : State, irq s = true ↔ s.irqEn = true ∧ (s.status.done = true ∨ s.status.err = true))
  ∧ (∀ s : State, irq (complete s) = s.irqEn) ∧ (∀ c info s, irq (raiseError c info s) = s.irqEn)
  ∧ (∀ s : State, irq (ignoreWrite s) = irq s) ∧ (∀ c s, irq (startSequence c s) = false)
  ∧ (∀ s : State, irq (writeReg 0x0C 0x6 s) = false)
  ∧ (∀ (s : State) (v : Word), s.status.busy = false →
      irq (writeReg 0x04 v s) = (v.getLsbD 1 && (s.status.done || s.status.err)))

/-! ### The host's side -/

/-- Every register reads its reset value (10_state.md R102, R146), the interrupt output is 0 and the engine idle. That
memory then lists nothing is the model's choice (log entry 1). -/
def Obligations.ResetRegisters : Prop :=
  (∀ off : BitVec 8, off.toNat % 4 = 0 →
    (readReg off 4 State.reset).hostData = if off = 0 then 0x44460001 else 0)
  ∧ irq State.reset = false ∧ State.reset.engine = .idle ∧ State.reset.mem = []

/-- "A host read of any RW register returns the value last written to its non-reserved bits (or the reset value),
whatever the engine is doing; the engine never writes RW registers" (10_state.md R114): a write to one while idle
changes that register alone, a read gives its value and changes nothing else, and a step of the engine keeps it. And
what the host reads of every register is the value the register's rule names, from its own fields in their own bits
(R103 to R113; STATUS and OUT_COUNT while BUSY are ProgressReads'), and 0 at a reserved offset (R102). -/
def Obligations.RegisterReadBack : Prop :=
  (∀ (s : State) (off : Nat) (mask : Word), (off, mask) ∈ configMasks →
    regValue off State.reset = 0
    ∧ (∀ v q, HostDelivers s (.regWrite (BitVec.ofNat 8 off) 4 v) q → s.status.busy = false →
        ∃ t, step s = .next t ∧ regValue off t = v &&& mask ∧ ∀ o, o ≠ off → regValue o t = regValue o s)
    ∧ (∀ q, HostDelivers s (.regRead (BitVec.ofNat 8 off) 4) q →
        step s = .next { taken s q with hostData := regValue off s })
    ∧ (∀ t, Invariant s → s.status.busy = true → s.sched.head? ≠ some .host → step s = .next t →
        regValue off t = regValue off s))
  ∧ ∀ (s : State) (off : Nat) (q : List HostAccess), HostDelivers s (.regRead (BitVec.ofNat 8 off) 4) q →
      (∀ w, (off, w) ∈ readValues s → (s.status.busy = true → off ≠ 0x0C ∧ off ≠ 0x20) →
        step s = .next { taken s q with hostData := w })
      ∧ (0x48 ≤ off → off < 0x100 → off % 4 = 0 → step s = .next { taken s q with hostData := 0 })

/-- "the engine never writes RW registers" (10_state.md R114), and no command does: an instruction leaves the
configuration, the interrupt enable, the bus and the schedule as they are. The bus and the schedule are the model's
fields (log entry 6). -/
def Obligations.InstructionsKeepConfiguration : Prop :=
  ∀ (i : Instr) (s t : State), exec i s = .next t →
    t.regs = s.regs ∧ t.irqEn = s.irqEn ∧ t.hostQueue = s.hostQueue ∧ t.sched = s.sched ∧ t.hostData = s.hostData

/-- Register writes (70_reset_and_hazards.md R1210): while BUSY a configuration register keeps its value and IGN is
set, and STATUS takes the write; busy or not, every other offset but CMD ignores it, without IGN. The queue of host
accesses is the model's (log entry 6). -/
def Obligations.RegisterWritesWhileBusy : Prop :=
  ∀ (s : State) (off : BitVec 8) (v : Word) (q : List HostAccess), HostDelivers s (.regWrite off 4 v) q →
    off.toNat % 4 = 0 →
    (s.status.busy = true → off.toNat ∈ configMasks.map Prod.fst →
      step s = .next { taken s q with status := { s.status with ign := true } })
    ∧ (s.status.busy = true → off = 0x0C → s.status.done = false → s.status.err = false →
        step s = .next { taken s q with status := { s.status with ign := s.status.ign && !v.getLsbD 3 } })
    ∧ (off.toNat ∉ configMasks.map Prod.fst → off ≠ 0x0C → off ≠ 0x08 → step s = .next (taken s q))

/-- STATUS is write-1-to-clear in DONE, ERR and IGN and read-only elsewhere (10_state.md R106): the step that delivers
a write of STATUS, while BUSY as when idle, clears those bits and changes nothing else. The queue of host accesses is
the model's (log entry 6). -/
def Obligations.StatusWriteOneToClear : Prop :=
  ∀ (s : State) (v : Word),
    (∀ q, HostDelivers s (.regWrite 0x0C 4 v) q →
      step s =
        .next
          { taken s q with
            status :=
              { s.status with
                done := s.status.done && !v.getLsbD 1
                err := s.status.err && !v.getLsbD 2
                ign := s.status.ign && !v.getLsbD 3 } })
    ∧ regValue 0x0C (writeReg 0x0C v s) = regValue 0x0C s &&& ~~~(v &&& 0xE)
    ∧ ∀ o, o ≠ 0x0C → regValue o (writeReg 0x0C v s) = regValue o s

/-- "a write of that kind has no effect on any register and a read returns an unspecified value"
(20_memory.md R210). -/
def Obligations.UnsupportedAccesses : Prop :=
  ∀ (s : State) (off : BitVec 8) (bytes : Nat) (v : Word) (q : List HostAccess),
    bytes ≠ 4 ∨ off.toNat % 4 ≠ 0 →
    (HostDelivers s (.regWrite off bytes v) q → step s = .next (taken s q))
    ∧ (HostDelivers s (.regRead off bytes) q →
        ∃ w k, step s = .next { taken s q with hostData := w, draws := k })

/-- While BUSY a read of OUT_COUNT gives a value no less than one shown before and no more than the count reached
(10_state.md R110), a read of STATUS a STAGE between the last shown and the one reached (70_reset_and_hazards.md
R1212); neither changes anything else. The last value shown and the draw count are the model's fields (log entries 5
and 7). -/
def Obligations.ProgressReads : Prop :=
  ∀ (s : State) (q : List HostAccess), Invariant s → s.status.busy = true → s.raceIn = none →
    (HostDelivers s (.regRead 0x20 4) q →
      ∃ (w : Word) (k : Nat), step s = .next { taken s q with hostData := w, shownOut := w, draws := k }
        ∧ s.shownOut.toNat ≤ w.toNat ∧ w.toNat ≤ s.outCount.toNat)
    ∧ (HostDelivers s (.regRead 0x0C 4) q →
        ∃ (g : Stage) (k : Nat),
          step s =
            .next { taken s q with hostData := statusBits { s.status with stage := g }, shownStage := g, draws := k }
          ∧ stageNumber s.shownStage ≤ stageNumber g ∧ stageNumber g ≤ stageNumber s.status.stage
          ∧ (s.cmd = .inflate → g ≠ .reconstruct) ∧ (s.cmd = .unfilter → g ≠ .inflate))

/-- Host memory accesses: a write changes its own byte alone, and only one into a region of a running command starts a
race; a read of a byte no running command writes gives the byte (20_memory.md R215). The count of steps a race leaves
and the free value of a read are the model's form (log entries 9 and 10). -/
def Obligations.HostMemoryAccesses : Prop :=
  ∀ (s : State) (a : Word) (v : Byte) (q : List HostAccess), s.mem.wf = true →
    (HostDelivers s (.memWrite a v) q →
      ∃ t, step s = .next t ∧ (∀ b, t.mem.read b = if b = a.toNat then v else s.mem.read b) ∧ t.regs = s.regs
        ∧ t.status = s.status ∧ t.outCount = s.outCount
        ∧ ((s.status.busy = false ∨ Outside (usedRegions s.cmd s.snap) a.toNat) → t.raceIn = s.raceIn)
        ∧ (s.status.busy = true → ¬Outside (usedRegions s.cmd s.snap) a.toNat → t.raceIn ≠ none))
    ∧ (HostDelivers s (.memRead a) q →
        ∃ t, step s = .next t ∧ t.mem = s.mem
          ∧ ((s.status.busy = false ∨ Outside (writtenRegions s.cmd s.snap) a.toNat) →
              t.hostData = (s.mem.read a.toNat).setWidth 32))

/-- A command whose region the host has written ends with DONE or with an error, and changes no byte outside its
written regions (20_memory.md R215): with n steps left to it, left to itself, within n + 1 engine steps; with none
left, in the next engine step, whatever the schedule holds behind it. The count of steps a race leaves is the model's
form (log entry 9). -/
def Obligations.RacedCommandEnds : Prop :=
  ∀ (s : State) (n : Nat), Invariant s → s.raceIn = some n →
    let ended (t : State) : Prop :=
      t.status.busy = false ∧ t.status.done = !t.status.err ∧ t.regs = s.regs
        ∧ ∀ a, Outside (writtenRegions s.cmd s.snap) a → t.mem.read a = s.mem.read a
    (s.sched = [] → ∃ k t, k ≤ n + 1 ∧ steps k s = some t ∧ ended t)
    ∧ (n = 0 → s.sched.head? ≠ some .host → ∃ t, step s = .next t ∧ ended t)

/-- The reset input: every register at its reset value, the engine idle, the interrupt output 0
(70_reset_and_hazards.md R1200); memory unchanged, but for the written regions of a command it abandons (R1201). The
reset input as a host event is the model's form (log entry 21). -/
def Obligations.ResetInput : Prop :=
  ∀ (s : State) (q : List HostAccess), Invariant s → HostDelivers s .reset q →
    ∃ t, step s = .next t ∧ (∀ off, regValue off t = regValue off State.reset) ∧ t.engine = .idle ∧ irq t = false
      ∧ (s.status.busy = false → t.mem = s.mem)
      ∧ ∀ a, Outside (writtenRegions s.cmd s.snap) a → t.mem.read a = s.mem.read a

/-! ### Memory and the whole machine -/

/-- "MemRead(a, 1), which returns Mem[a], and MemWrite(a, 1, v), which sets Mem[a] <- v" (20_memory.md R206); the
canonical form is kept, and equal bytes mean equal memories. The canonical form and the value of an unlisted byte are
the model's (log entry 1). -/
def Obligations.MemoryPrimitives : Prop :=
  (∀ (m : Memory) (a b : Nat) (v : Byte), m.wf = true → a < memorySize →
    (m.write a v).wf = true ∧ (m.write a v).read b = if b = a then v else m.read b)
  ∧ ∀ m n : Memory, m.wf = true → n.wf = true → (∀ a, m.read a = n.read a) → m = n

/-- The invariant holds after reset. The invariant is the model's own. -/
def Obligations.ResetKeepsInvariant : Prop := Invariant State.reset

/-- Every step keeps the invariant, from every state that has it. The invariant is the model's own. -/
def Obligations.StepKeepsInvariant : Prop := ∀ s t : State, Invariant s → step s = .next t → Invariant t

/-- "no behaviour of the CORE hangs" (70_reset_and_hazards.md R1221, 93 part 1): every step answers a next state. The
invariant is the model's own. -/
def Obligations.StepAlwaysAnswers : Prop := ∀ s : State, Invariant s → ∃ t, step s = .next t

/-- "The engine never writes the SRC region and never ... writes a byte outside the regions its command uses"
(20_memory.md R205), with the regions of each command written out (RegionsOfCommands: R202, R204). -/
def Obligations.EngineWritesOnlyWrittenRegions : Prop :=
  RegionsOfCommands
  ∧ ∀ (s t : State) (a : Nat), Invariant s → s.status.busy = true → s.sched.head? ≠ some .host → step s = .next t →
    Outside (writtenRegions s.cmd s.snap) a → t.mem.read a = s.mem.read a

/-- "no element moves it backwards" (10_state.md R120), and "OUT_COUNT never decreases" (70_reset_and_hazards.md
R1212): an engine step, with or without an ABORT pending, never lowers the cursor of a stage that goes on, nor the
count. Only a race, whose outcome is open (20_memory.md R215), is left out. -/
def Obligations.EngineNeverGoesBack : Prop :=
  ∀ s t : State, Invariant s → s.status.busy = true → s.raceIn = none → s.sched.head? ≠ some .host →
    step s = .next t →
    s.outCount.toNat ≤ t.outCount.toNat ∧ (t.status.stage = .inflate → s.bp.toNat ≤ t.bp.toNat)

/-- "Every command ends" (70_reset_and_hazards.md R1221): left to itself, a running command has ended within a number
of engine steps that its stream and its image bound. The bound counts the model's steps (log entry 6). -/
def Obligations.EveryCommandEnds : Prop :=
  ∀ s : State, Invariant s → EngineNext s → s.sched = [] →
    ∃ n t, n ≤ 2 * totalBits s + imageRows s.snap + 2 ∧ steps n s = some t ∧ t.status.busy = false
      ∧ t.status.done = !t.status.err

/-! ### The inflate stage -/

/-- ZHDR's checks, in their order, and its success; ERR_BITPOS is 0 for every error of it (43_inflate.md R701). -/
def Obligations.ZhdrElement : Prop :=
  ∀ (cmf flg : Byte) (s : State),
    let h := cmf.toNat * 256 + flg.toNat
    let info := BitVec.ofNat 32 h
    (s.bp = 0 → ∀ (c : Cause) (x : Word), (raiseError c x s).report = ⟨c.word, x, 0⟩)
    ∧ exec (.zhdr cmf flg) s = .next (
      if s.snap.src.len.toNat < 2 then raiseError .zhdrTrunc s.snap.src.len s
      else if cmf.toNat % 16 ≠ 8 then raiseError .zhdrCm info s
      else if cmf.toNat / 16 > 7 then raiseError .zhdrCinfo info s
      else if flg.toNat / 32 % 2 = 1 then raiseError .zhdrFdict info s
      else if h % 31 ≠ 0 then raiseError .zhdrFcheck info s
      else { s with bp := 16, engine := .blockHeader })

/-- The four block types: a stored block goes on at the next byte boundary (43_inflate.md R720), a fixed one with the
trees of the fixed lengths, 8, 9, 7 and 8 over the four ranges and 5 for every distance (R724, R704), a dynamic one with its header (R725), and BTYPE 3 is an error (R723). -/
def Obligations.BlockHeaderElements : Prop :=
  ∀ (b : Bool) (s : State),
    (∃ c : BitCursor, exec (.blkStored b) s = .next { s with bfinal := b, btype := 0, engine := .stored, bp := c }
      ∧ (s.bp.toNat ≤ totalBits s →
          c.toNat % 8 = 0 ∧ s.bp.toNat ≤ c.toNat ∧ c.toNat < s.bp.toNat + 8 ∧ c.toNat ≤ totalBits s))
    ∧ exec (.blkFixed b) s =
        .next
          { s with
            bfinal := b, btype := 1, ll := makeTree fixedLengths, d := makeTree (List.replicate 32 5), engine := .symbols,
            matchLen := none }
    ∧ exec (.blkDynamic b) s =
        .next { s with bfinal := b, btype := 2, engine := .dynHeader, codesNext := false }
    ∧ exec (.blkReserved b) s = .next (raiseError .btypeReserved 0 { s with bfinal := b, btype := 3 })

/-- The checks of a stored block, in their order, and the copy (43_inflate.md R721, R722, R726). -/
def Obligations.StoredElement : Prop :=
  ∀ (len nlen : BitVec 16) (s : State),
    exec (.stored len nlen) s = .next (
      if len.toNat + nlen.toNat ≠ 0xFFFF then
        raiseError .storedNlen (BitVec.ofNat 32 (nlen.toNat * 65536 + len.toNat)) s
      else if s.bp.toNat / 8 + len.toNat > s.snap.src.len.toNat then
        raiseError .storedTrunc (BitVec.ofNat 32 len.toNat) s
      else if s.outCount.toNat + len.toNat > outLimit s then
        raiseError .outputOverflow (BitVec.ofNat 32 len.toNat) s
      else
        { copyStored (s.bp.toNat / 8) len.toNat s with
          bp := s.bp + BitVec.ofNat 35 (8 * len.toNat)
          engine := if s.bfinal then .streamEnd else .blockHeader })

/-- The payload copy: the output grows by the SRC bytes, in order; every other byte of memory, and every other field,
is as before (43_inflate.md R722, 44_symbols.md R807). -/
def Obligations.StoredPayloadCopied : Prop :=
  ∀ (k n : Nat) (s : State), s.mem.wf = true → s.snap.src.inside → (outRegion s).inside →
    s.snap.src.overlaps (outRegion s) = false → k + n ≤ s.snap.src.len.toNat →
    s.outCount.toNat + n ≤ outLimit s →
    let t := copyStored k n s
    t = { s with mem := t.mem, outCount := t.outCount }
    ∧ t.outCount.toNat = s.outCount.toNat + n
    ∧ (∀ j, j < n → readByte t (outRegion s) (s.outCount.toNat + j) = readByte s s.snap.src (k + j))
    ∧ ∀ a, (∀ j, j < n → a ≠ (outRegion s).addr (s.outCount.toNat + j)) → t.mem.read a = s.mem.read a

/-- A dynamic header's counts and code-length code (43_inflate.md R705, R703): the HCLEN 3-bit fields give the lengths
of the symbols in the order of CLORDER (30_encoding.md R334), the rest 0; the tree is built from them. That CL keeps its
old contents in the two failing branches, where R703 has written some lengths and 42_huffman.md R600 leaves a failed
tree unspecified, is the model's choice (log entry 4). -/
def Obligations.DynhdrElement : Prop :=
  ∀ (hlit hdist : BitVec 5) (hclen : BitVec 4) (s : State),
    let n := hclen.toNat + 4
    let field (j : Nat) : Nat := streamField s (s.bp.toNat + 3 * j) 3
    let lens := (List.range 19).map fun c => if orderOfLengths.idxOf c < n then field (orderOfLengths.idxOf c) else 0
    let counted := { s with hlit := hlit.toNat + 257, hdist := hdist.toNat + 1, hclen := n }
    (s.bp.toNat + 3 * n ≤ totalBits s →
      exec (.dynhdr hlit hdist hclen) s = .next (
        if 2 ≤ present lens ∧ kraft lens ≠ 2 ^ 15 then
          raiseError .treeBuildCl 0 { counted with bp := s.bp + BitVec.ofNat 35 (3 * n) }
        else
          { counted with
            bp := s.bp + BitVec.ofNat 35 (3 * n), cl := makeTree lens, lens := [], codesNext := true }))
    ∧ (totalBits s < s.bp.toNat + 3 * n → s.bp.toNat ≤ totalBits s →
        exec (.dynhdr hlit hdist hclen) s = .next (
          raiseError .bitOverrun 0
            { counted with bp := s.bp + BitVec.ofNat 35 (3 * ((totalBits s - s.bp.toNat) / 3)) }))

/-- The code-length symbols (43_inflate.md R707 to R710): a length, and the three repeats with their extra fields and
their overflow. -/
def Obligations.CodeLengthElements : Prop :=
  ∀ s : State,
    let again (base extra l : Nat) : State :=
      if s.bp.toNat + extra > totalBits s then raiseError .bitOverrun 0 s
      else
        let r := base + peek s extra
        let t := { s with bp := s.bp + BitVec.ofNat 35 extra }
        if s.lens.length + r > s.hlit + s.hdist then raiseError .clRepeatOverflow (BitVec.ofNat 32 r) t
        else { t with lens := s.lens ++ List.replicate r l }
    (∀ len : BitVec 4, exec (.clsymLen len) s = .next { s with lens := s.lens ++ [len.toNat] })
    ∧ (s.lens = [] → exec .clsym16 s = .next (raiseError .clRepeatNoPrev 0 s))
    ∧ (∀ l, s.lens.getLast? = some l → exec .clsym16 s = .next (again 3 2 l))
    ∧ exec .clsym17 s = .next (again 3 3 0) ∧ exec .clsym18 s = .next (again 11 7 0)

/-- The final trees of a dynamic block, once the lengths are there (43_inflate.md R711): the checks in their order,
then the symbol loop over the trees of the two length sets. That this is a step of its own is the model's granularity
(log entry 6). That LL and D keep their old contents in the three failing branches, where R711 has written the lengths
and 42_huffman.md R600 leaves a failed tree unspecified, is the model's choice (log entry 4). -/
def Obligations.FinalTreesStep : Prop :=
  ∀ s : State, EngineNext s → s.engine = .dynHeader → s.codesNext = true → s.lens.length = s.hlit + s.hdist →
    257 ≤ s.hlit → s.hlit ≤ 288 → s.hdist ≤ 32 →
    let ll := s.lens.take s.hlit ++ List.replicate (288 - s.hlit) 0
    let d := s.lens.drop s.hlit ++ List.replicate (32 - s.hdist) 0
    step s = .next (
      if s.lens.getD 256 0 = 0 then raiseError .eobZeroLength 0 (takeTurn s)
      else if 2 ≤ present ll ∧ kraft ll ≠ 2 ^ 15 then raiseError .treeBuildLl 0 (takeTurn s)
      else if 2 ≤ present d ∧ kraft d ≠ 2 ^ 15 then raiseError .treeBuildD 0 (takeTurn s)
      else { takeTurn s with ll := makeTree ll, d := makeTree d, engine := .symbols, matchLen := none })

/-! ### Huffman trees -/

/-- "If present >= 2 and K != 2^15, Build fails" and "If present <= 1 the set is accepted whatever the single length
is" (42_huffman.md R601). -/
def Obligations.BuildAcceptsExactlyCompleteSets : Prop :=
  ∀ lens : List Nat,
    let count := (lens.filter fun l => 0 < l).length
    let sum := (lens.map fun l => if 0 < l then 2 ^ (15 - l) else 0).sum
    (build lens = none ↔ 2 ≤ count ∧ sum ≠ 2 ^ 15) ∧ ∀ t, build lens = some t → t = makeTree lens ∧ t.len = lens

/-- A decode of a tree built from an accepted length set finds the symbol whose canonical code the stream spells
(42_huffman.md R603, R605 to R608, R620) and consumes exactly that code. Where the stream spells no symbol the decode
meets the invalid sentinel, whose cause comes before any overrun, with nothing consumed (R609, R621); with two or more
used symbols that never happens, since the stream always spells one (R609). The codes themselves are those of R602
(CanonicalCodes). -/
def Obligations.DecodeFindsSpelledSymbol : Prop :=
  CanonicalCodes
  ∧ ∀ (lens : List Nat) (t : Tree) (invalid : Cause) (s : State), (∀ l ∈ lens, l ≤ 15) → build lens = some t →
    (∀ k, k < lens.length → Spells s lens k →
      decodeSym t invalid s =
        if s.bp.toNat + lens.getD k 0 > totalBits s then .err .bitOverrun else .sym k (skip (lens.getD k 0) s))
    ∧ ((∀ k, k < lens.length → ¬Spells s lens k) → decodeSym t invalid s = .err invalid)
    ∧ (2 ≤ present lens → ∃ k, k < lens.length ∧ Spells s lens k)

/-! ### Symbols -/

/-- Emit: "MemWrite(O_BASE + outCount, 1, v); outCount <- outCount + 1" (44_symbols.md R807); nothing else changes. -/
def Obligations.EmitWritesOneByte : Prop :=
  ∀ (v : Byte) (s : State), s.mem.wf = true → s.outCount.toNat < outLimit s →
    emit v s = { s with mem := (emit v s).mem, outCount := (emit v s).outCount }
    ∧ (emit v s).outCount.toNat = s.outCount.toNat + 1
    ∧ ∀ a, (emit v s).mem.read a = if a = (outRegion s).addr s.outCount.toNat then v else s.mem.read a

/-- A literal (44_symbols.md R801) and the end of a block (R802, 43_inflate.md R726). -/
def Obligations.LiteralAndEndElements : Prop :=
  ∀ s : State,
    (∀ b : Byte, exec (.lit b) s = .next (
      if s.outCount.toNat ≥ outLimit s then raiseError .outputOverflow 1 s else emit b s))
    ∧ exec .eob s = .next { s with engine := if s.bfinal then .streamEnd else .blockHeader }

/-- The reserved elements: LLSYM 286 and 287 (44_symbols.md R805), DSYM 30 and 31 before any extra bits (R892), and
FILT 5 to 255, with the offset of the FILT byte (45_filter.md R915). -/
def Obligations.ReservedElements : Prop :=
  ∀ s : State,
    (∀ v : BitVec 9, v.toNat = 286 ∨ v.toNat = 287 →
      exec (.llReserved v) s = .next (raiseError .llReservedSymbol (v.setWidth 32) s))
    ∧ (∀ d : BitVec 5, d.toNat = 30 ∨ d.toNat = 31 →
      exec (.dReserved d) s = .next (raiseError .dReservedSymbol (d.setWidth 32) s))
    ∧ (∀ ft : Byte, 5 ≤ ft.toNat →
      exec (.filtReserved ft) s = .next (raiseError .filterType (BitVec.ofNat 32 (rowOffset s)) s))

/-- A length code: "length <- LBASE[k] + Read(LEXTRA[k])", then the distance symbol (44_symbols.md R803). -/
def Obligations.LengthElements : Prop :=
  ∀ (i : Instr) (base extra : Nat) (s : State), (i, base, extra) ∈ lengthRows →
    (s.bp.toNat + extra ≤ totalBits s →
      exec i s =
        .next { s with bp := s.bp + BitVec.ofNat 35 extra, matchLen := some (base + peek s extra) })
    ∧ (totalBits s < s.bp.toNat + extra → exec i s = .next (raiseError .bitOverrun 0 s))

/-- A distance code: "distance <- DBASE[d] + Read(DEXTRA[d])", the too-far check, the overflow check and the copy
(44_symbols.md R804, R891, R806). -/
def Obligations.DistanceElements : Prop :=
  ∀ (i : Instr) (base extra length : Nat) (s : State), (i, base, extra) ∈ distanceRows →
    s.matchLen = some length →
    let distance := base + peek s extra
    let t := { s with bp := s.bp + BitVec.ofNat 35 extra }
    exec i s = .next (
      if totalBits s < s.bp.toNat + extra then raiseError .bitOverrun 0 s
      else if distance > s.outCount.toNat then raiseError .distTooFar (BitVec.ofNat 32 distance) t
      else if s.outCount.toNat + length > outLimit s then raiseError .outputOverflow (BitVec.ofNat 32 length) t
      else { copyMatch distance length t with matchLen := none })

/-- The match copy: "each byte read is the one distance positions behind the byte being written, so when distance <
length the copy repeats bytes it has just written" (44_symbols.md R806); every other byte of memory, and every other
field, is as before. -/
def Obligations.MatchCopyRepeats : Prop :=
  ∀ (distance length : Nat) (s : State), s.mem.wf = true → (outRegion s).inside → 1 ≤ distance →
    distance ≤ s.outCount.toNat → s.outCount.toNat + length ≤ outLimit s →
    let t := copyMatch distance length s
    t = { s with mem := t.mem, outCount := t.outCount }
    ∧ t.outCount.toNat = s.outCount.toNat + length
    ∧ (∀ j, j < length →
        readByte t (outRegion s) (s.outCount.toNat + j)
          = readByte t (outRegion s) (s.outCount.toNat + j - distance)
        ∧ readByte t (outRegion s) (s.outCount.toNat + j)
          = readByte s (outRegion s) (s.outCount.toNat - distance + j % distance))
    ∧ ∀ a, (∀ j, j < length → a ≠ (outRegion s).addr (s.outCount.toNat + j)) → t.mem.read a = s.mem.read a

/-- The trailer, from the next byte boundary (43_inflate.md R713): ZTRAILER_TRUNC, ADLER_MISMATCH, or the end of the
inflate stage (40_commands.md R403). The checksum is that of the bytes the inflate stage has written. -/
def Obligations.ZtrlElement : Prop :=
  ∀ (v : Word) (s : State),
    let t := { s with bp := BitVec.ofNat 35 (8 * ((s.bp.toNat + 7) / 8)) }
    outBytes s = (List.range s.outCount.toNat).map (fun j => readByte s (outRegion s) j)
    ∧ (t.bp.toNat / 8 + 4 > s.snap.src.len.toNat → exec (.ztrl v) s = .next (raiseError .ztrailerTrunc 0 t))
    ∧ (t.bp.toNat / 8 + 4 ≤ s.snap.src.len.toNat → v ≠ Config.adler32 (outBytes s) →
        exec (.ztrl v) s = .next (raiseError .adlerMismatch v t))
    ∧ (t.bp.toNat / 8 + 4 ≤ s.snap.src.len.toNat → v = Config.adler32 (outBytes s) → s.cmd = .inflate →
        exec (.ztrl v) s = .next (complete { s with bp := t.bp + 32 }))
    ∧ (t.bp.toNat / 8 + 4 ≤ s.snap.src.len.toNat → v = Config.adler32 (outBytes s) → s.cmd = .decode →
        s.snap.imgW ≠ 0 → s.snap.imgH ≠ 0 →
        exec (.ztrl v) s =
          .next
            { s with
              bp := t.bp + 32
              status := { s.status with stage := .reconstruct }
              engine := .reconstruct
              p := if s.snap.interlace = 1 then 0 else 7
              y := 0
              prev := none })

/-! ### The reconstruct stage -/

/-- A filter element (45_filter.md R904): the reconstructed row is stored at its raster offsets and nowhere else; then
the next row of the image or pass has it above (R920), or the next non-empty pass starts with no row above
(46_interlace.md R1005), or the command is complete. -/
def Obligations.FilterElements : Prop :=
  ∀ (i : Instr) (f : Predictor) (s : State), (i, f) ∈ filterRows → s.mem.wf = true →
    let row := reconBytes f s.snap.bw s.prev (scanline s)
    let m := (writeBytes s.snap.dst (rasterOffset s) 0 row s).mem
    (∀ a, (∀ j, j < rowStride s → a ≠ s.snap.dst.addr (rasterOffset s j)) → m.read a = s.mem.read a)
    ∧ (s.y + 1 < s.snap.rowCount s.p →
        exec i s = .next { s with mem := m, y := s.y + 1, prev := some row })
    ∧ (s.snap.rowCount s.p ≤ s.y + 1 → s.p = 7 → exec i s = .next (complete { s with mem := m }))
    ∧ (∀ q, s.snap.rowCount s.p ≤ s.y + 1 → s.p < q → q < 7 → s.snap.emptyPass q = false →
        (∀ r, s.p < r → r < q → s.snap.emptyPass r = true) →
        exec i s = .next { s with mem := m, p := q, y := 0, prev := none })
    ∧ (s.snap.rowCount s.p ≤ s.y + 1 → s.p < 7 → (∀ r, s.p < r → r < 7 → s.snap.emptyPass r = true) →
        exec i s = .next (complete { s with mem := m }))

/-- Where a row is read from in the filtered buffer (FilteredLayout: 30_encoding.md R341, R342, 46_interlace.md R1003),
which is also the offset that FILTER_TYPE reports, and where its bytes go: in place at y * stride + i for a
non-interlaced image (45_filter.md R920), and to pixel
(startX + px * dx, startY + py * dy) of the raster for a pass (46_interlace.md R1005); the offsets of a row of the
image lie inside RAW_SIZE and no two agree. -/
def Obligations.RowBytesStored : Prop :=
  FilteredLayout
  ∧ ∀ (bs : List Byte) (s : State), s.mem.wf = true → s.snap.dst.inside → s.snap.dst.len.toNat = s.snap.rawSize →
    bs.length = rowStride s → s.y < s.snap.rowCount s.p →
    (s.p = 7 → ∀ j, j < rowStride s →
      (writeBytes s.snap.dst (rasterOffset s) 0 bs s).mem.read (s.snap.dst.base.toNat + s.y * rowStride s + j)
        = bs.getD j 0)
    ∧ (s.p < 7 → s.snap.bpp % 8 = 0 → ∀ px k, px < s.snap.rowWidth s.p → k < s.snap.bpp / 8 →
      (writeBytes s.snap.dst (rasterOffset s) 0 bs s).mem.read
          (s.snap.dst.base.toNat
            + (((adam7 s.p).startY + s.y * (adam7 s.p).dy) * s.snap.imgW.toNat
                + ((adam7 s.p).startX + px * (adam7 s.p).dx)) * (s.snap.bpp / 8) + k)
        = bs.getD (px * (s.snap.bpp / 8) + k) 0)

/-- "recon[i] <- (x + pred_ft(a, b, c)) mod 256" with the neighbours of R902 (45_filter.md R903, R904). -/
def Obligations.ReconstructedByte : Prop :=
  ∀ (f : Predictor) (bw : Nat) (prev : Option (List Byte)) (scan : List Byte) (i : Nat), 1 ≤ bw → i < scan.length →
    let recon := reconBytes f bw prev scan
    let a := if bw ≤ i then (recon.getD (i - bw) 0).toNat else 0
    let b := match prev with | none => 0 | some r => (r.getD i 0).toNat
    let c := match prev with | none => 0 | some r => if bw ≤ i then (r.getD (i - bw) 0).toNat else 0
    recon.length = scan.length ∧ (recon.getD i 0).toNat = ((scan.getD i 0).toNat + f a b c) % 256

/-- The Paeth predictor picks the neighbour nearest to a + b - c, ties to a, then b (45_filter.md R906). -/
def Obligations.PaethPicksNearest : Prop :=
  ∀ a b c : Nat,
    let dist (x : Nat) : Nat := ((a : Int) + b - c - x).natAbs
    (dist a ≤ dist b → dist a ≤ dist c → paeth a b c = a)
    ∧ (¬(dist a ≤ dist b ∧ dist a ≤ dist c) → dist b ≤ dist c → paeth a b c = b)
    ∧ (¬(dist a ≤ dist b ∧ dist a ≤ dist c) → ¬dist b ≤ dist c → paeth a b c = c)

/-- "for every filter type 0–4 ... filter(unfilter(row, prevRow)) == row", and the other way round (45_filter.md
R922). The rule derives it for the filter types 0 to 4; that it holds for any predictor at all, and both ways round,
goes beyond its words. -/
def Obligations.FilterRoundTrip : Prop :=
  ∀ (f : Predictor) (bw : Nat) (prev : Option (List Byte)) (row : List Byte), 1 ≤ bw →
    filterBytes f bw prev (reconBytes f bw prev row) = row ∧ reconBytes f bw prev (filterBytes f bw prev row) = row

/-- "sum over p of passWidth(p) * passHeight(p) = IMG_W * IMG_H, and every pixel (x, y) of the image belongs to
exactly one pass p" (46_interlace.md R1002, which derives it from the pass table of R1000 and R1001); the table and
the dimensions are written out. -/
def Obligations.PassesPartitionImage : Prop :=
  ∀ w h : Nat,
    (∀ p g, (p, g) ∈ passRows →
      adam7 p = g ∧ passWidth w p = (if w > g.startX then (w - g.startX + (g.dx - 1)) / g.dx else 0)
        ∧ passHeight h p = if h > g.startY then (h - g.startY + (g.dy - 1)) / g.dy else 0)
    ∧ ((List.range 7).map fun p => passWidth w p * passHeight h p).sum = w * h
    ∧ ∀ x y, x < w → y < h →
        ∃ p px py, (p < 7 ∧ px < passWidth w p ∧ py < passHeight h p
            ∧ x = (adam7 p).startX + px * (adam7 p).dx ∧ y = (adam7 p).startY + py * (adam7 p).dy)
          ∧ ∀ q qx qy, q < 7 → x = (adam7 q).startX + qx * (adam7 q).dx →
              y = (adam7 q).startY + qy * (adam7 q).dy → q = p ∧ qx = px ∧ qy = py
end

