-- ==== Sys2Proof/Laws/State.lean ====
section
/-! SUPPORT. What each named update of State does to each field: one lemma per field, so that no later proof unfolds
a record update. -/

namespace Sys2Proof.Machine

/-! ### writeByte -/

@[simp] theorem writeByte_irqEn (r : Region) (i : Nat) (v : Byte) (s : State) : (writeByte r i v s).irqEn = s.irqEn := rfl
@[simp] theorem writeByte_regs (r : Region) (i : Nat) (v : Byte) (s : State) : (writeByte r i v s).regs = s.regs := rfl
@[simp] theorem writeByte_status (r : Region) (i : Nat) (v : Byte) (s : State) : (writeByte r i v s).status = s.status := rfl
@[simp] theorem writeByte_report (r : Region) (i : Nat) (v : Byte) (s : State) : (writeByte r i v s).report = s.report := rfl
@[simp] theorem writeByte_outCount (r : Region) (i : Nat) (v : Byte) (s : State) : (writeByte r i v s).outCount = s.outCount := rfl
@[simp] theorem writeByte_snap (r : Region) (i : Nat) (v : Byte) (s : State) : (writeByte r i v s).snap = s.snap := rfl
@[simp] theorem writeByte_cmd (r : Region) (i : Nat) (v : Byte) (s : State) : (writeByte r i v s).cmd = s.cmd := rfl
@[simp] theorem writeByte_bp (r : Region) (i : Nat) (v : Byte) (s : State) : (writeByte r i v s).bp = s.bp := rfl
@[simp] theorem writeByte_engine (r : Region) (i : Nat) (v : Byte) (s : State) : (writeByte r i v s).engine = s.engine := rfl
@[simp] theorem writeByte_bfinal (r : Region) (i : Nat) (v : Byte) (s : State) : (writeByte r i v s).bfinal = s.bfinal := rfl
@[simp] theorem writeByte_btype (r : Region) (i : Nat) (v : Byte) (s : State) : (writeByte r i v s).btype = s.btype := rfl
@[simp] theorem writeByte_ll (r : Region) (i : Nat) (v : Byte) (s : State) : (writeByte r i v s).ll = s.ll := rfl
@[simp] theorem writeByte_d (r : Region) (i : Nat) (v : Byte) (s : State) : (writeByte r i v s).d = s.d := rfl
@[simp] theorem writeByte_cl (r : Region) (i : Nat) (v : Byte) (s : State) : (writeByte r i v s).cl = s.cl := rfl
@[simp] theorem writeByte_hlit (r : Region) (i : Nat) (v : Byte) (s : State) : (writeByte r i v s).hlit = s.hlit := rfl
@[simp] theorem writeByte_hdist (r : Region) (i : Nat) (v : Byte) (s : State) : (writeByte r i v s).hdist = s.hdist := rfl
@[simp] theorem writeByte_hclen (r : Region) (i : Nat) (v : Byte) (s : State) : (writeByte r i v s).hclen = s.hclen := rfl
@[simp] theorem writeByte_lens (r : Region) (i : Nat) (v : Byte) (s : State) : (writeByte r i v s).lens = s.lens := rfl
@[simp] theorem writeByte_codesNext (r : Region) (i : Nat) (v : Byte) (s : State) : (writeByte r i v s).codesNext = s.codesNext := rfl
@[simp] theorem writeByte_matchLen (r : Region) (i : Nat) (v : Byte) (s : State) : (writeByte r i v s).matchLen = s.matchLen := rfl
@[simp] theorem writeByte_p (r : Region) (i : Nat) (v : Byte) (s : State) : (writeByte r i v s).p = s.p := rfl
@[simp] theorem writeByte_y (r : Region) (i : Nat) (v : Byte) (s : State) : (writeByte r i v s).y = s.y := rfl
@[simp] theorem writeByte_prev (r : Region) (i : Nat) (v : Byte) (s : State) : (writeByte r i v s).prev = s.prev := rfl
@[simp] theorem writeByte_mem (r : Region) (i : Nat) (v : Byte) (s : State) : (writeByte r i v s).mem = s.mem.write (r.addr i) v := rfl
@[simp] theorem writeByte_draws (r : Region) (i : Nat) (v : Byte) (s : State) : (writeByte r i v s).draws = s.draws := rfl
@[simp] theorem writeByte_shownOut (r : Region) (i : Nat) (v : Byte) (s : State) : (writeByte r i v s).shownOut = s.shownOut := rfl
@[simp] theorem writeByte_shownStage (r : Region) (i : Nat) (v : Byte) (s : State) : (writeByte r i v s).shownStage = s.shownStage := rfl
@[simp] theorem writeByte_abortIn (r : Region) (i : Nat) (v : Byte) (s : State) : (writeByte r i v s).abortIn = s.abortIn := rfl
@[simp] theorem writeByte_raceIn (r : Region) (i : Nat) (v : Byte) (s : State) : (writeByte r i v s).raceIn = s.raceIn := rfl
@[simp] theorem writeByte_hostQueue (r : Region) (i : Nat) (v : Byte) (s : State) : (writeByte r i v s).hostQueue = s.hostQueue := rfl
@[simp] theorem writeByte_sched (r : Region) (i : Nat) (v : Byte) (s : State) : (writeByte r i v s).sched = s.sched := rfl
@[simp] theorem writeByte_hostData (r : Region) (i : Nat) (v : Byte) (s : State) : (writeByte r i v s).hostData = s.hostData := rfl

/-! ### skip -/

@[simp] theorem skip_irqEn (n : Nat) (s : State) : (skip n s).irqEn = s.irqEn := rfl
@[simp] theorem skip_regs (n : Nat) (s : State) : (skip n s).regs = s.regs := rfl
@[simp] theorem skip_status (n : Nat) (s : State) : (skip n s).status = s.status := rfl
@[simp] theorem skip_report (n : Nat) (s : State) : (skip n s).report = s.report := rfl
@[simp] theorem skip_outCount (n : Nat) (s : State) : (skip n s).outCount = s.outCount := rfl
@[simp] theorem skip_snap (n : Nat) (s : State) : (skip n s).snap = s.snap := rfl
@[simp] theorem skip_cmd (n : Nat) (s : State) : (skip n s).cmd = s.cmd := rfl
@[simp] theorem skip_bp (n : Nat) (s : State) : (skip n s).bp = s.bp + BitVec.ofNat 35 n := rfl
@[simp] theorem skip_engine (n : Nat) (s : State) : (skip n s).engine = s.engine := rfl
@[simp] theorem skip_bfinal (n : Nat) (s : State) : (skip n s).bfinal = s.bfinal := rfl
@[simp] theorem skip_btype (n : Nat) (s : State) : (skip n s).btype = s.btype := rfl
@[simp] theorem skip_ll (n : Nat) (s : State) : (skip n s).ll = s.ll := rfl
@[simp] theorem skip_d (n : Nat) (s : State) : (skip n s).d = s.d := rfl
@[simp] theorem skip_cl (n : Nat) (s : State) : (skip n s).cl = s.cl := rfl
@[simp] theorem skip_hlit (n : Nat) (s : State) : (skip n s).hlit = s.hlit := rfl
@[simp] theorem skip_hdist (n : Nat) (s : State) : (skip n s).hdist = s.hdist := rfl
@[simp] theorem skip_hclen (n : Nat) (s : State) : (skip n s).hclen = s.hclen := rfl
@[simp] theorem skip_lens (n : Nat) (s : State) : (skip n s).lens = s.lens := rfl
@[simp] theorem skip_codesNext (n : Nat) (s : State) : (skip n s).codesNext = s.codesNext := rfl
@[simp] theorem skip_matchLen (n : Nat) (s : State) : (skip n s).matchLen = s.matchLen := rfl
@[simp] theorem skip_p (n : Nat) (s : State) : (skip n s).p = s.p := rfl
@[simp] theorem skip_y (n : Nat) (s : State) : (skip n s).y = s.y := rfl
@[simp] theorem skip_prev (n : Nat) (s : State) : (skip n s).prev = s.prev := rfl
@[simp] theorem skip_mem (n : Nat) (s : State) : (skip n s).mem = s.mem := rfl
@[simp] theorem skip_draws (n : Nat) (s : State) : (skip n s).draws = s.draws := rfl
@[simp] theorem skip_shownOut (n : Nat) (s : State) : (skip n s).shownOut = s.shownOut := rfl
@[simp] theorem skip_shownStage (n : Nat) (s : State) : (skip n s).shownStage = s.shownStage := rfl
@[simp] theorem skip_abortIn (n : Nat) (s : State) : (skip n s).abortIn = s.abortIn := rfl
@[simp] theorem skip_raceIn (n : Nat) (s : State) : (skip n s).raceIn = s.raceIn := rfl
@[simp] theorem skip_hostQueue (n : Nat) (s : State) : (skip n s).hostQueue = s.hostQueue := rfl
@[simp] theorem skip_sched (n : Nat) (s : State) : (skip n s).sched = s.sched := rfl
@[simp] theorem skip_hostData (n : Nat) (s : State) : (skip n s).hostData = s.hostData := rfl

/-! ### align -/

@[simp] theorem align_irqEn (s : State) : (align s).irqEn = s.irqEn := rfl
@[simp] theorem align_regs (s : State) : (align s).regs = s.regs := rfl
@[simp] theorem align_status (s : State) : (align s).status = s.status := rfl
@[simp] theorem align_report (s : State) : (align s).report = s.report := rfl
@[simp] theorem align_outCount (s : State) : (align s).outCount = s.outCount := rfl
@[simp] theorem align_snap (s : State) : (align s).snap = s.snap := rfl
@[simp] theorem align_cmd (s : State) : (align s).cmd = s.cmd := rfl
@[simp] theorem align_bp (s : State) : (align s).bp = BitVec.ofNat 35 ((s.bp.toNat + 7) / 8 * 8) := rfl
@[simp] theorem align_engine (s : State) : (align s).engine = s.engine := rfl
@[simp] theorem align_bfinal (s : State) : (align s).bfinal = s.bfinal := rfl
@[simp] theorem align_btype (s : State) : (align s).btype = s.btype := rfl
@[simp] theorem align_ll (s : State) : (align s).ll = s.ll := rfl
@[simp] theorem align_d (s : State) : (align s).d = s.d := rfl
@[simp] theorem align_cl (s : State) : (align s).cl = s.cl := rfl
@[simp] theorem align_hlit (s : State) : (align s).hlit = s.hlit := rfl
@[simp] theorem align_hdist (s : State) : (align s).hdist = s.hdist := rfl
@[simp] theorem align_hclen (s : State) : (align s).hclen = s.hclen := rfl
@[simp] theorem align_lens (s : State) : (align s).lens = s.lens := rfl
@[simp] theorem align_codesNext (s : State) : (align s).codesNext = s.codesNext := rfl
@[simp] theorem align_matchLen (s : State) : (align s).matchLen = s.matchLen := rfl
@[simp] theorem align_p (s : State) : (align s).p = s.p := rfl
@[simp] theorem align_y (s : State) : (align s).y = s.y := rfl
@[simp] theorem align_prev (s : State) : (align s).prev = s.prev := rfl
@[simp] theorem align_mem (s : State) : (align s).mem = s.mem := rfl
@[simp] theorem align_draws (s : State) : (align s).draws = s.draws := rfl
@[simp] theorem align_shownOut (s : State) : (align s).shownOut = s.shownOut := rfl
@[simp] theorem align_shownStage (s : State) : (align s).shownStage = s.shownStage := rfl
@[simp] theorem align_abortIn (s : State) : (align s).abortIn = s.abortIn := rfl
@[simp] theorem align_raceIn (s : State) : (align s).raceIn = s.raceIn := rfl
@[simp] theorem align_hostQueue (s : State) : (align s).hostQueue = s.hostQueue := rfl
@[simp] theorem align_sched (s : State) : (align s).sched = s.sched := rfl
@[simp] theorem align_hostData (s : State) : (align s).hostData = s.hostData := rfl

/-! ### emit -/

@[simp] theorem emit_irqEn (v : Byte) (s : State) : (emit v s).irqEn = s.irqEn := rfl
@[simp] theorem emit_regs (v : Byte) (s : State) : (emit v s).regs = s.regs := rfl
@[simp] theorem emit_status (v : Byte) (s : State) : (emit v s).status = s.status := rfl
@[simp] theorem emit_report (v : Byte) (s : State) : (emit v s).report = s.report := rfl
@[simp] theorem emit_outCount (v : Byte) (s : State) : (emit v s).outCount = s.outCount + 1 := rfl
@[simp] theorem emit_snap (v : Byte) (s : State) : (emit v s).snap = s.snap := rfl
@[simp] theorem emit_cmd (v : Byte) (s : State) : (emit v s).cmd = s.cmd := rfl
@[simp] theorem emit_bp (v : Byte) (s : State) : (emit v s).bp = s.bp := rfl
@[simp] theorem emit_engine (v : Byte) (s : State) : (emit v s).engine = s.engine := rfl
@[simp] theorem emit_bfinal (v : Byte) (s : State) : (emit v s).bfinal = s.bfinal := rfl
@[simp] theorem emit_btype (v : Byte) (s : State) : (emit v s).btype = s.btype := rfl
@[simp] theorem emit_ll (v : Byte) (s : State) : (emit v s).ll = s.ll := rfl
@[simp] theorem emit_d (v : Byte) (s : State) : (emit v s).d = s.d := rfl
@[simp] theorem emit_cl (v : Byte) (s : State) : (emit v s).cl = s.cl := rfl
@[simp] theorem emit_hlit (v : Byte) (s : State) : (emit v s).hlit = s.hlit := rfl
@[simp] theorem emit_hdist (v : Byte) (s : State) : (emit v s).hdist = s.hdist := rfl
@[simp] theorem emit_hclen (v : Byte) (s : State) : (emit v s).hclen = s.hclen := rfl
@[simp] theorem emit_lens (v : Byte) (s : State) : (emit v s).lens = s.lens := rfl
@[simp] theorem emit_codesNext (v : Byte) (s : State) : (emit v s).codesNext = s.codesNext := rfl
@[simp] theorem emit_matchLen (v : Byte) (s : State) : (emit v s).matchLen = s.matchLen := rfl
@[simp] theorem emit_p (v : Byte) (s : State) : (emit v s).p = s.p := rfl
@[simp] theorem emit_y (v : Byte) (s : State) : (emit v s).y = s.y := rfl
@[simp] theorem emit_prev (v : Byte) (s : State) : (emit v s).prev = s.prev := rfl
@[simp] theorem emit_mem (v : Byte) (s : State) : (emit v s).mem = s.mem.write ((outRegion s).addr s.outCount.toNat) v := rfl
@[simp] theorem emit_draws (v : Byte) (s : State) : (emit v s).draws = s.draws := rfl
@[simp] theorem emit_shownOut (v : Byte) (s : State) : (emit v s).shownOut = s.shownOut := rfl
@[simp] theorem emit_shownStage (v : Byte) (s : State) : (emit v s).shownStage = s.shownStage := rfl
@[simp] theorem emit_abortIn (v : Byte) (s : State) : (emit v s).abortIn = s.abortIn := rfl
@[simp] theorem emit_raceIn (v : Byte) (s : State) : (emit v s).raceIn = s.raceIn := rfl
@[simp] theorem emit_hostQueue (v : Byte) (s : State) : (emit v s).hostQueue = s.hostQueue := rfl
@[simp] theorem emit_sched (v : Byte) (s : State) : (emit v s).sched = s.sched := rfl
@[simp] theorem emit_hostData (v : Byte) (s : State) : (emit v s).hostData = s.hostData := rfl

/-! ### ignoreWrite -/

@[simp] theorem ignoreWrite_irqEn (s : State) : (ignoreWrite s).irqEn = s.irqEn := rfl
@[simp] theorem ignoreWrite_regs (s : State) : (ignoreWrite s).regs = s.regs := rfl
@[simp] theorem ignoreWrite_status (s : State) : (ignoreWrite s).status = { s.status with ign := true } := rfl
@[simp] theorem ignoreWrite_report (s : State) : (ignoreWrite s).report = s.report := rfl
@[simp] theorem ignoreWrite_outCount (s : State) : (ignoreWrite s).outCount = s.outCount := rfl
@[simp] theorem ignoreWrite_snap (s : State) : (ignoreWrite s).snap = s.snap := rfl
@[simp] theorem ignoreWrite_cmd (s : State) : (ignoreWrite s).cmd = s.cmd := rfl
@[simp] theorem ignoreWrite_bp (s : State) : (ignoreWrite s).bp = s.bp := rfl
@[simp] theorem ignoreWrite_engine (s : State) : (ignoreWrite s).engine = s.engine := rfl
@[simp] theorem ignoreWrite_bfinal (s : State) : (ignoreWrite s).bfinal = s.bfinal := rfl
@[simp] theorem ignoreWrite_btype (s : State) : (ignoreWrite s).btype = s.btype := rfl
@[simp] theorem ignoreWrite_ll (s : State) : (ignoreWrite s).ll = s.ll := rfl
@[simp] theorem ignoreWrite_d (s : State) : (ignoreWrite s).d = s.d := rfl
@[simp] theorem ignoreWrite_cl (s : State) : (ignoreWrite s).cl = s.cl := rfl
@[simp] theorem ignoreWrite_hlit (s : State) : (ignoreWrite s).hlit = s.hlit := rfl
@[simp] theorem ignoreWrite_hdist (s : State) : (ignoreWrite s).hdist = s.hdist := rfl
@[simp] theorem ignoreWrite_hclen (s : State) : (ignoreWrite s).hclen = s.hclen := rfl
@[simp] theorem ignoreWrite_lens (s : State) : (ignoreWrite s).lens = s.lens := rfl
@[simp] theorem ignoreWrite_codesNext (s : State) : (ignoreWrite s).codesNext = s.codesNext := rfl
@[simp] theorem ignoreWrite_matchLen (s : State) : (ignoreWrite s).matchLen = s.matchLen := rfl
@[simp] theorem ignoreWrite_p (s : State) : (ignoreWrite s).p = s.p := rfl
@[simp] theorem ignoreWrite_y (s : State) : (ignoreWrite s).y = s.y := rfl
@[simp] theorem ignoreWrite_prev (s : State) : (ignoreWrite s).prev = s.prev := rfl
@[simp] theorem ignoreWrite_mem (s : State) : (ignoreWrite s).mem = s.mem := rfl
@[simp] theorem ignoreWrite_draws (s : State) : (ignoreWrite s).draws = s.draws := rfl
@[simp] theorem ignoreWrite_shownOut (s : State) : (ignoreWrite s).shownOut = s.shownOut := rfl
@[simp] theorem ignoreWrite_shownStage (s : State) : (ignoreWrite s).shownStage = s.shownStage := rfl
@[simp] theorem ignoreWrite_abortIn (s : State) : (ignoreWrite s).abortIn = s.abortIn := rfl
@[simp] theorem ignoreWrite_raceIn (s : State) : (ignoreWrite s).raceIn = s.raceIn := rfl
@[simp] theorem ignoreWrite_hostQueue (s : State) : (ignoreWrite s).hostQueue = s.hostQueue := rfl
@[simp] theorem ignoreWrite_sched (s : State) : (ignoreWrite s).sched = s.sched := rfl
@[simp] theorem ignoreWrite_hostData (s : State) : (ignoreWrite s).hostData = s.hostData := rfl

/-! ### blockEnd -/

@[simp] theorem blockEnd_irqEn (s : State) : (blockEnd s).irqEn = s.irqEn := rfl
@[simp] theorem blockEnd_regs (s : State) : (blockEnd s).regs = s.regs := rfl
@[simp] theorem blockEnd_status (s : State) : (blockEnd s).status = s.status := rfl
@[simp] theorem blockEnd_report (s : State) : (blockEnd s).report = s.report := rfl
@[simp] theorem blockEnd_outCount (s : State) : (blockEnd s).outCount = s.outCount := rfl
@[simp] theorem blockEnd_snap (s : State) : (blockEnd s).snap = s.snap := rfl
@[simp] theorem blockEnd_cmd (s : State) : (blockEnd s).cmd = s.cmd := rfl
@[simp] theorem blockEnd_bp (s : State) : (blockEnd s).bp = s.bp := rfl
@[simp] theorem blockEnd_engine (s : State) : (blockEnd s).engine = if s.bfinal then .streamEnd else .blockHeader := rfl
@[simp] theorem blockEnd_bfinal (s : State) : (blockEnd s).bfinal = s.bfinal := rfl
@[simp] theorem blockEnd_btype (s : State) : (blockEnd s).btype = s.btype := rfl
@[simp] theorem blockEnd_ll (s : State) : (blockEnd s).ll = s.ll := rfl
@[simp] theorem blockEnd_d (s : State) : (blockEnd s).d = s.d := rfl
@[simp] theorem blockEnd_cl (s : State) : (blockEnd s).cl = s.cl := rfl
@[simp] theorem blockEnd_hlit (s : State) : (blockEnd s).hlit = s.hlit := rfl
@[simp] theorem blockEnd_hdist (s : State) : (blockEnd s).hdist = s.hdist := rfl
@[simp] theorem blockEnd_hclen (s : State) : (blockEnd s).hclen = s.hclen := rfl
@[simp] theorem blockEnd_lens (s : State) : (blockEnd s).lens = s.lens := rfl
@[simp] theorem blockEnd_codesNext (s : State) : (blockEnd s).codesNext = s.codesNext := rfl
@[simp] theorem blockEnd_matchLen (s : State) : (blockEnd s).matchLen = s.matchLen := rfl
@[simp] theorem blockEnd_p (s : State) : (blockEnd s).p = s.p := rfl
@[simp] theorem blockEnd_y (s : State) : (blockEnd s).y = s.y := rfl
@[simp] theorem blockEnd_prev (s : State) : (blockEnd s).prev = s.prev := rfl
@[simp] theorem blockEnd_mem (s : State) : (blockEnd s).mem = s.mem := rfl
@[simp] theorem blockEnd_draws (s : State) : (blockEnd s).draws = s.draws := rfl
@[simp] theorem blockEnd_shownOut (s : State) : (blockEnd s).shownOut = s.shownOut := rfl
@[simp] theorem blockEnd_shownStage (s : State) : (blockEnd s).shownStage = s.shownStage := rfl
@[simp] theorem blockEnd_abortIn (s : State) : (blockEnd s).abortIn = s.abortIn := rfl
@[simp] theorem blockEnd_raceIn (s : State) : (blockEnd s).raceIn = s.raceIn := rfl
@[simp] theorem blockEnd_hostQueue (s : State) : (blockEnd s).hostQueue = s.hostQueue := rfl
@[simp] theorem blockEnd_sched (s : State) : (blockEnd s).sched = s.sched := rfl
@[simp] theorem blockEnd_hostData (s : State) : (blockEnd s).hostData = s.hostData := rfl

/-! ### beginBlock -/

@[simp] theorem beginBlock_irqEn (b : Bool) (t : BitVec 2) (s : State) : (beginBlock b t s).irqEn = s.irqEn := rfl
@[simp] theorem beginBlock_regs (b : Bool) (t : BitVec 2) (s : State) : (beginBlock b t s).regs = s.regs := rfl
@[simp] theorem beginBlock_status (b : Bool) (t : BitVec 2) (s : State) : (beginBlock b t s).status = s.status := rfl
@[simp] theorem beginBlock_report (b : Bool) (t : BitVec 2) (s : State) : (beginBlock b t s).report = s.report := rfl
@[simp] theorem beginBlock_outCount (b : Bool) (t : BitVec 2) (s : State) : (beginBlock b t s).outCount = s.outCount := rfl
@[simp] theorem beginBlock_snap (b : Bool) (t : BitVec 2) (s : State) : (beginBlock b t s).snap = s.snap := rfl
@[simp] theorem beginBlock_cmd (b : Bool) (t : BitVec 2) (s : State) : (beginBlock b t s).cmd = s.cmd := rfl
@[simp] theorem beginBlock_bp (b : Bool) (t : BitVec 2) (s : State) : (beginBlock b t s).bp = s.bp := rfl
@[simp] theorem beginBlock_engine (b : Bool) (t : BitVec 2) (s : State) : (beginBlock b t s).engine = s.engine := rfl
@[simp] theorem beginBlock_bfinal (b : Bool) (t : BitVec 2) (s : State) : (beginBlock b t s).bfinal = b := rfl
@[simp] theorem beginBlock_btype (b : Bool) (t : BitVec 2) (s : State) : (beginBlock b t s).btype = t := rfl
@[simp] theorem beginBlock_ll (b : Bool) (t : BitVec 2) (s : State) : (beginBlock b t s).ll = s.ll := rfl
@[simp] theorem beginBlock_d (b : Bool) (t : BitVec 2) (s : State) : (beginBlock b t s).d = s.d := rfl
@[simp] theorem beginBlock_cl (b : Bool) (t : BitVec 2) (s : State) : (beginBlock b t s).cl = s.cl := rfl
@[simp] theorem beginBlock_hlit (b : Bool) (t : BitVec 2) (s : State) : (beginBlock b t s).hlit = s.hlit := rfl
@[simp] theorem beginBlock_hdist (b : Bool) (t : BitVec 2) (s : State) : (beginBlock b t s).hdist = s.hdist := rfl
@[simp] theorem beginBlock_hclen (b : Bool) (t : BitVec 2) (s : State) : (beginBlock b t s).hclen = s.hclen := rfl
@[simp] theorem beginBlock_lens (b : Bool) (t : BitVec 2) (s : State) : (beginBlock b t s).lens = s.lens := rfl
@[simp] theorem beginBlock_codesNext (b : Bool) (t : BitVec 2) (s : State) : (beginBlock b t s).codesNext = s.codesNext := rfl
@[simp] theorem beginBlock_matchLen (b : Bool) (t : BitVec 2) (s : State) : (beginBlock b t s).matchLen = s.matchLen := rfl
@[simp] theorem beginBlock_p (b : Bool) (t : BitVec 2) (s : State) : (beginBlock b t s).p = s.p := rfl
@[simp] theorem beginBlock_y (b : Bool) (t : BitVec 2) (s : State) : (beginBlock b t s).y = s.y := rfl
@[simp] theorem beginBlock_prev (b : Bool) (t : BitVec 2) (s : State) : (beginBlock b t s).prev = s.prev := rfl
@[simp] theorem beginBlock_mem (b : Bool) (t : BitVec 2) (s : State) : (beginBlock b t s).mem = s.mem := rfl
@[simp] theorem beginBlock_draws (b : Bool) (t : BitVec 2) (s : State) : (beginBlock b t s).draws = s.draws := rfl
@[simp] theorem beginBlock_shownOut (b : Bool) (t : BitVec 2) (s : State) : (beginBlock b t s).shownOut = s.shownOut := rfl
@[simp] theorem beginBlock_shownStage (b : Bool) (t : BitVec 2) (s : State) : (beginBlock b t s).shownStage = s.shownStage := rfl
@[simp] theorem beginBlock_abortIn (b : Bool) (t : BitVec 2) (s : State) : (beginBlock b t s).abortIn = s.abortIn := rfl
@[simp] theorem beginBlock_raceIn (b : Bool) (t : BitVec 2) (s : State) : (beginBlock b t s).raceIn = s.raceIn := rfl
@[simp] theorem beginBlock_hostQueue (b : Bool) (t : BitVec 2) (s : State) : (beginBlock b t s).hostQueue = s.hostQueue := rfl
@[simp] theorem beginBlock_sched (b : Bool) (t : BitVec 2) (s : State) : (beginBlock b t s).sched = s.sched := rfl
@[simp] theorem beginBlock_hostData (b : Bool) (t : BitVec 2) (s : State) : (beginBlock b t s).hostData = s.hostData := rfl

/-! ### setCounts -/

@[simp] theorem setCounts_irqEn (a b : BitVec 5) (c : BitVec 4) (s : State) : (setCounts a b c s).irqEn = s.irqEn := rfl
@[simp] theorem setCounts_regs (a b : BitVec 5) (c : BitVec 4) (s : State) : (setCounts a b c s).regs = s.regs := rfl
@[simp] theorem setCounts_status (a b : BitVec 5) (c : BitVec 4) (s : State) : (setCounts a b c s).status = s.status := rfl
@[simp] theorem setCounts_report (a b : BitVec 5) (c : BitVec 4) (s : State) : (setCounts a b c s).report = s.report := rfl
@[simp] theorem setCounts_outCount (a b : BitVec 5) (c : BitVec 4) (s : State) : (setCounts a b c s).outCount = s.outCount := rfl
@[simp] theorem setCounts_snap (a b : BitVec 5) (c : BitVec 4) (s : State) : (setCounts a b c s).snap = s.snap := rfl
@[simp] theorem setCounts_cmd (a b : BitVec 5) (c : BitVec 4) (s : State) : (setCounts a b c s).cmd = s.cmd := rfl
@[simp] theorem setCounts_bp (a b : BitVec 5) (c : BitVec 4) (s : State) : (setCounts a b c s).bp = s.bp := rfl
@[simp] theorem setCounts_engine (a b : BitVec 5) (c : BitVec 4) (s : State) : (setCounts a b c s).engine = s.engine := rfl
@[simp] theorem setCounts_bfinal (a b : BitVec 5) (c : BitVec 4) (s : State) : (setCounts a b c s).bfinal = s.bfinal := rfl
@[simp] theorem setCounts_btype (a b : BitVec 5) (c : BitVec 4) (s : State) : (setCounts a b c s).btype = s.btype := rfl
@[simp] theorem setCounts_ll (a b : BitVec 5) (c : BitVec 4) (s : State) : (setCounts a b c s).ll = s.ll := rfl
@[simp] theorem setCounts_d (a b : BitVec 5) (c : BitVec 4) (s : State) : (setCounts a b c s).d = s.d := rfl
@[simp] theorem setCounts_cl (a b : BitVec 5) (c : BitVec 4) (s : State) : (setCounts a b c s).cl = s.cl := rfl
@[simp] theorem setCounts_hlit (a b : BitVec 5) (c : BitVec 4) (s : State) : (setCounts a b c s).hlit = a.toNat + 257 := rfl
@[simp] theorem setCounts_hdist (a b : BitVec 5) (c : BitVec 4) (s : State) : (setCounts a b c s).hdist = b.toNat + 1 := rfl
@[simp] theorem setCounts_hclen (a b : BitVec 5) (c : BitVec 4) (s : State) : (setCounts a b c s).hclen = c.toNat + 4 := rfl
@[simp] theorem setCounts_lens (a b : BitVec 5) (c : BitVec 4) (s : State) : (setCounts a b c s).lens = s.lens := rfl
@[simp] theorem setCounts_codesNext (a b : BitVec 5) (c : BitVec 4) (s : State) : (setCounts a b c s).codesNext = s.codesNext := rfl
@[simp] theorem setCounts_matchLen (a b : BitVec 5) (c : BitVec 4) (s : State) : (setCounts a b c s).matchLen = s.matchLen := rfl
@[simp] theorem setCounts_p (a b : BitVec 5) (c : BitVec 4) (s : State) : (setCounts a b c s).p = s.p := rfl
@[simp] theorem setCounts_y (a b : BitVec 5) (c : BitVec 4) (s : State) : (setCounts a b c s).y = s.y := rfl
@[simp] theorem setCounts_prev (a b : BitVec 5) (c : BitVec 4) (s : State) : (setCounts a b c s).prev = s.prev := rfl
@[simp] theorem setCounts_mem (a b : BitVec 5) (c : BitVec 4) (s : State) : (setCounts a b c s).mem = s.mem := rfl
@[simp] theorem setCounts_draws (a b : BitVec 5) (c : BitVec 4) (s : State) : (setCounts a b c s).draws = s.draws := rfl
@[simp] theorem setCounts_shownOut (a b : BitVec 5) (c : BitVec 4) (s : State) : (setCounts a b c s).shownOut = s.shownOut := rfl
@[simp] theorem setCounts_shownStage (a b : BitVec 5) (c : BitVec 4) (s : State) : (setCounts a b c s).shownStage = s.shownStage := rfl
@[simp] theorem setCounts_abortIn (a b : BitVec 5) (c : BitVec 4) (s : State) : (setCounts a b c s).abortIn = s.abortIn := rfl
@[simp] theorem setCounts_raceIn (a b : BitVec 5) (c : BitVec 4) (s : State) : (setCounts a b c s).raceIn = s.raceIn := rfl
@[simp] theorem setCounts_hostQueue (a b : BitVec 5) (c : BitVec 4) (s : State) : (setCounts a b c s).hostQueue = s.hostQueue := rfl
@[simp] theorem setCounts_sched (a b : BitVec 5) (c : BitVec 4) (s : State) : (setCounts a b c s).sched = s.sched := rfl
@[simp] theorem setCounts_hostData (a b : BitVec 5) (c : BitVec 4) (s : State) : (setCounts a b c s).hostData = s.hostData := rfl

/-! ### appendLens -/

@[simp] theorem appendLens_irqEn (xs : List Nat) (s : State) : (appendLens xs s).irqEn = s.irqEn := rfl
@[simp] theorem appendLens_regs (xs : List Nat) (s : State) : (appendLens xs s).regs = s.regs := rfl
@[simp] theorem appendLens_status (xs : List Nat) (s : State) : (appendLens xs s).status = s.status := rfl
@[simp] theorem appendLens_report (xs : List Nat) (s : State) : (appendLens xs s).report = s.report := rfl
@[simp] theorem appendLens_outCount (xs : List Nat) (s : State) : (appendLens xs s).outCount = s.outCount := rfl
@[simp] theorem appendLens_snap (xs : List Nat) (s : State) : (appendLens xs s).snap = s.snap := rfl
@[simp] theorem appendLens_cmd (xs : List Nat) (s : State) : (appendLens xs s).cmd = s.cmd := rfl
@[simp] theorem appendLens_bp (xs : List Nat) (s : State) : (appendLens xs s).bp = s.bp := rfl
@[simp] theorem appendLens_engine (xs : List Nat) (s : State) : (appendLens xs s).engine = s.engine := rfl
@[simp] theorem appendLens_bfinal (xs : List Nat) (s : State) : (appendLens xs s).bfinal = s.bfinal := rfl
@[simp] theorem appendLens_btype (xs : List Nat) (s : State) : (appendLens xs s).btype = s.btype := rfl
@[simp] theorem appendLens_ll (xs : List Nat) (s : State) : (appendLens xs s).ll = s.ll := rfl
@[simp] theorem appendLens_d (xs : List Nat) (s : State) : (appendLens xs s).d = s.d := rfl
@[simp] theorem appendLens_cl (xs : List Nat) (s : State) : (appendLens xs s).cl = s.cl := rfl
@[simp] theorem appendLens_hlit (xs : List Nat) (s : State) : (appendLens xs s).hlit = s.hlit := rfl
@[simp] theorem appendLens_hdist (xs : List Nat) (s : State) : (appendLens xs s).hdist = s.hdist := rfl
@[simp] theorem appendLens_hclen (xs : List Nat) (s : State) : (appendLens xs s).hclen = s.hclen := rfl
@[simp] theorem appendLens_lens (xs : List Nat) (s : State) : (appendLens xs s).lens = s.lens ++ xs := rfl
@[simp] theorem appendLens_codesNext (xs : List Nat) (s : State) : (appendLens xs s).codesNext = s.codesNext := rfl
@[simp] theorem appendLens_matchLen (xs : List Nat) (s : State) : (appendLens xs s).matchLen = s.matchLen := rfl
@[simp] theorem appendLens_p (xs : List Nat) (s : State) : (appendLens xs s).p = s.p := rfl
@[simp] theorem appendLens_y (xs : List Nat) (s : State) : (appendLens xs s).y = s.y := rfl
@[simp] theorem appendLens_prev (xs : List Nat) (s : State) : (appendLens xs s).prev = s.prev := rfl
@[simp] theorem appendLens_mem (xs : List Nat) (s : State) : (appendLens xs s).mem = s.mem := rfl
@[simp] theorem appendLens_draws (xs : List Nat) (s : State) : (appendLens xs s).draws = s.draws := rfl
@[simp] theorem appendLens_shownOut (xs : List Nat) (s : State) : (appendLens xs s).shownOut = s.shownOut := rfl
@[simp] theorem appendLens_shownStage (xs : List Nat) (s : State) : (appendLens xs s).shownStage = s.shownStage := rfl
@[simp] theorem appendLens_abortIn (xs : List Nat) (s : State) : (appendLens xs s).abortIn = s.abortIn := rfl
@[simp] theorem appendLens_raceIn (xs : List Nat) (s : State) : (appendLens xs s).raceIn = s.raceIn := rfl
@[simp] theorem appendLens_hostQueue (xs : List Nat) (s : State) : (appendLens xs s).hostQueue = s.hostQueue := rfl
@[simp] theorem appendLens_sched (xs : List Nat) (s : State) : (appendLens xs s).sched = s.sched := rfl
@[simp] theorem appendLens_hostData (xs : List Nat) (s : State) : (appendLens xs s).hostData = s.hostData := rfl

/-! ### forgetRegions -/

@[simp] theorem forgetRegions_irqEn (rs : List Region) (s : State) : (forgetRegions rs s).irqEn = s.irqEn := rfl
@[simp] theorem forgetRegions_regs (rs : List Region) (s : State) : (forgetRegions rs s).regs = s.regs := rfl
@[simp] theorem forgetRegions_status (rs : List Region) (s : State) : (forgetRegions rs s).status = s.status := rfl
@[simp] theorem forgetRegions_report (rs : List Region) (s : State) : (forgetRegions rs s).report = s.report := rfl
@[simp] theorem forgetRegions_outCount (rs : List Region) (s : State) : (forgetRegions rs s).outCount = s.outCount := rfl
@[simp] theorem forgetRegions_snap (rs : List Region) (s : State) : (forgetRegions rs s).snap = s.snap := rfl
@[simp] theorem forgetRegions_cmd (rs : List Region) (s : State) : (forgetRegions rs s).cmd = s.cmd := rfl
@[simp] theorem forgetRegions_bp (rs : List Region) (s : State) : (forgetRegions rs s).bp = s.bp := rfl
@[simp] theorem forgetRegions_engine (rs : List Region) (s : State) : (forgetRegions rs s).engine = s.engine := rfl
@[simp] theorem forgetRegions_bfinal (rs : List Region) (s : State) : (forgetRegions rs s).bfinal = s.bfinal := rfl
@[simp] theorem forgetRegions_btype (rs : List Region) (s : State) : (forgetRegions rs s).btype = s.btype := rfl
@[simp] theorem forgetRegions_ll (rs : List Region) (s : State) : (forgetRegions rs s).ll = s.ll := rfl
@[simp] theorem forgetRegions_d (rs : List Region) (s : State) : (forgetRegions rs s).d = s.d := rfl
@[simp] theorem forgetRegions_cl (rs : List Region) (s : State) : (forgetRegions rs s).cl = s.cl := rfl
@[simp] theorem forgetRegions_hlit (rs : List Region) (s : State) : (forgetRegions rs s).hlit = s.hlit := rfl
@[simp] theorem forgetRegions_hdist (rs : List Region) (s : State) : (forgetRegions rs s).hdist = s.hdist := rfl
@[simp] theorem forgetRegions_hclen (rs : List Region) (s : State) : (forgetRegions rs s).hclen = s.hclen := rfl
@[simp] theorem forgetRegions_lens (rs : List Region) (s : State) : (forgetRegions rs s).lens = s.lens := rfl
@[simp] theorem forgetRegions_codesNext (rs : List Region) (s : State) : (forgetRegions rs s).codesNext = s.codesNext := rfl
@[simp] theorem forgetRegions_matchLen (rs : List Region) (s : State) : (forgetRegions rs s).matchLen = s.matchLen := rfl
@[simp] theorem forgetRegions_p (rs : List Region) (s : State) : (forgetRegions rs s).p = s.p := rfl
@[simp] theorem forgetRegions_y (rs : List Region) (s : State) : (forgetRegions rs s).y = s.y := rfl
@[simp] theorem forgetRegions_prev (rs : List Region) (s : State) : (forgetRegions rs s).prev = s.prev := rfl
@[simp] theorem forgetRegions_mem (rs : List Region) (s : State) : (forgetRegions rs s).mem = rs.foldl (fun m r => m.forget s.draws r r.len.toNat) s.mem := rfl
@[simp] theorem forgetRegions_draws (rs : List Region) (s : State) : (forgetRegions rs s).draws = s.draws + 1 := rfl
@[simp] theorem forgetRegions_shownOut (rs : List Region) (s : State) : (forgetRegions rs s).shownOut = s.shownOut := rfl
@[simp] theorem forgetRegions_shownStage (rs : List Region) (s : State) : (forgetRegions rs s).shownStage = s.shownStage := rfl
@[simp] theorem forgetRegions_abortIn (rs : List Region) (s : State) : (forgetRegions rs s).abortIn = s.abortIn := rfl
@[simp] theorem forgetRegions_raceIn (rs : List Region) (s : State) : (forgetRegions rs s).raceIn = s.raceIn := rfl
@[simp] theorem forgetRegions_hostQueue (rs : List Region) (s : State) : (forgetRegions rs s).hostQueue = s.hostQueue := rfl
@[simp] theorem forgetRegions_sched (rs : List Region) (s : State) : (forgetRegions rs s).sched = s.sched := rfl
@[simp] theorem forgetRegions_hostData (rs : List Region) (s : State) : (forgetRegions rs s).hostData = s.hostData := rfl

/-! ### raiseError and complete -/

/-- Everything raiseError writes, but for memory and the draw counter. -/
theorem raiseError_eq (c : Cause) (info : Word) (s : State) :
    raiseError c info s =
      { s with
        report := ⟨c.word, info, if s.status.stage = .inflate ∧ c ≠ .aborted then s.bp else 0⟩
        status := ⟨false, false, true, s.status.ign, .idle⟩
        engine := .idle
        abortIn := none
        raceIn := none
        mem := (raiseError c info s).mem
        draws := (raiseError c info s).draws } := by
  unfold raiseError
  split <;> rfl

/-- Everything complete writes, but for memory and the draw counter. -/
theorem complete_eq (s : State) :
    complete s =
      { s with
        status := ⟨false, true, s.status.err, s.status.ign, .idle⟩
        engine := .idle
        abortIn := none
        raceIn := none
        mem := (complete s).mem
        draws := (complete s).draws } := by
  unfold complete
  split <;> rfl

@[simp] theorem raiseError_irqEn (c : Cause) (i : Word) (s : State) : (raiseError c i s).irqEn = s.irqEn := by
  rw [raiseError_eq]
@[simp] theorem raiseError_regs (c : Cause) (i : Word) (s : State) : (raiseError c i s).regs = s.regs := by
  rw [raiseError_eq]
@[simp] theorem raiseError_status (c : Cause) (i : Word) (s : State) : (raiseError c i s).status = ⟨false, false, true, s.status.ign, .idle⟩ := by
  rw [raiseError_eq]
@[simp] theorem raiseError_report (c : Cause) (i : Word) (s : State) : (raiseError c i s).report = ⟨c.word, i, if s.status.stage = .inflate ∧ c ≠ .aborted then s.bp else 0⟩ := by
  rw [raiseError_eq]
@[simp] theorem raiseError_outCount (c : Cause) (i : Word) (s : State) : (raiseError c i s).outCount = s.outCount := by
  rw [raiseError_eq]
@[simp] theorem raiseError_snap (c : Cause) (i : Word) (s : State) : (raiseError c i s).snap = s.snap := by
  rw [raiseError_eq]
@[simp] theorem raiseError_cmd (c : Cause) (i : Word) (s : State) : (raiseError c i s).cmd = s.cmd := by
  rw [raiseError_eq]
@[simp] theorem raiseError_bp (c : Cause) (i : Word) (s : State) : (raiseError c i s).bp = s.bp := by
  rw [raiseError_eq]
@[simp] theorem raiseError_engine (c : Cause) (i : Word) (s : State) : (raiseError c i s).engine = .idle := by
  rw [raiseError_eq]
@[simp] theorem raiseError_bfinal (c : Cause) (i : Word) (s : State) : (raiseError c i s).bfinal = s.bfinal := by
  rw [raiseError_eq]
@[simp] theorem raiseError_btype (c : Cause) (i : Word) (s : State) : (raiseError c i s).btype = s.btype := by
  rw [raiseError_eq]
@[simp] theorem raiseError_ll (c : Cause) (i : Word) (s : State) : (raiseError c i s).ll = s.ll := by
  rw [raiseError_eq]
@[simp] theorem raiseError_d (c : Cause) (i : Word) (s : State) : (raiseError c i s).d = s.d := by
  rw [raiseError_eq]
@[simp] theorem raiseError_cl (c : Cause) (i : Word) (s : State) : (raiseError c i s).cl = s.cl := by
  rw [raiseError_eq]
@[simp] theorem raiseError_hlit (c : Cause) (i : Word) (s : State) : (raiseError c i s).hlit = s.hlit := by
  rw [raiseError_eq]
@[simp] theorem raiseError_hdist (c : Cause) (i : Word) (s : State) : (raiseError c i s).hdist = s.hdist := by
  rw [raiseError_eq]
@[simp] theorem raiseError_hclen (c : Cause) (i : Word) (s : State) : (raiseError c i s).hclen = s.hclen := by
  rw [raiseError_eq]
@[simp] theorem raiseError_lens (c : Cause) (i : Word) (s : State) : (raiseError c i s).lens = s.lens := by
  rw [raiseError_eq]
@[simp] theorem raiseError_codesNext (c : Cause) (i : Word) (s : State) : (raiseError c i s).codesNext = s.codesNext := by
  rw [raiseError_eq]
@[simp] theorem raiseError_matchLen (c : Cause) (i : Word) (s : State) : (raiseError c i s).matchLen = s.matchLen := by
  rw [raiseError_eq]
@[simp] theorem raiseError_p (c : Cause) (i : Word) (s : State) : (raiseError c i s).p = s.p := by
  rw [raiseError_eq]
@[simp] theorem raiseError_y (c : Cause) (i : Word) (s : State) : (raiseError c i s).y = s.y := by
  rw [raiseError_eq]
@[simp] theorem raiseError_prev (c : Cause) (i : Word) (s : State) : (raiseError c i s).prev = s.prev := by
  rw [raiseError_eq]
@[simp] theorem raiseError_shownOut (c : Cause) (i : Word) (s : State) : (raiseError c i s).shownOut = s.shownOut := by
  rw [raiseError_eq]
@[simp] theorem raiseError_shownStage (c : Cause) (i : Word) (s : State) : (raiseError c i s).shownStage = s.shownStage := by
  rw [raiseError_eq]
@[simp] theorem raiseError_abortIn (c : Cause) (i : Word) (s : State) : (raiseError c i s).abortIn = none := by
  rw [raiseError_eq]
@[simp] theorem raiseError_raceIn (c : Cause) (i : Word) (s : State) : (raiseError c i s).raceIn = none := by
  rw [raiseError_eq]
@[simp] theorem raiseError_hostQueue (c : Cause) (i : Word) (s : State) : (raiseError c i s).hostQueue = s.hostQueue := by
  rw [raiseError_eq]
@[simp] theorem raiseError_sched (c : Cause) (i : Word) (s : State) : (raiseError c i s).sched = s.sched := by
  rw [raiseError_eq]
@[simp] theorem raiseError_hostData (c : Cause) (i : Word) (s : State) : (raiseError c i s).hostData = s.hostData := by
  rw [raiseError_eq]

@[simp] theorem complete_irqEn (s : State) : (complete s).irqEn = s.irqEn := by
  rw [complete_eq]
@[simp] theorem complete_regs (s : State) : (complete s).regs = s.regs := by
  rw [complete_eq]
@[simp] theorem complete_status (s : State) : (complete s).status = ⟨false, true, s.status.err, s.status.ign, .idle⟩ := by
  rw [complete_eq]
@[simp] theorem complete_report (s : State) : (complete s).report = s.report := by
  rw [complete_eq]
@[simp] theorem complete_outCount (s : State) : (complete s).outCount = s.outCount := by
  rw [complete_eq]
@[simp] theorem complete_snap (s : State) : (complete s).snap = s.snap := by
  rw [complete_eq]
@[simp] theorem complete_cmd (s : State) : (complete s).cmd = s.cmd := by
  rw [complete_eq]
@[simp] theorem complete_bp (s : State) : (complete s).bp = s.bp := by
  rw [complete_eq]
@[simp] theorem complete_engine (s : State) : (complete s).engine = .idle := by
  rw [complete_eq]
@[simp] theorem complete_bfinal (s : State) : (complete s).bfinal = s.bfinal := by
  rw [complete_eq]
@[simp] theorem complete_btype (s : State) : (complete s).btype = s.btype := by
  rw [complete_eq]
@[simp] theorem complete_ll (s : State) : (complete s).ll = s.ll := by
  rw [complete_eq]
@[simp] theorem complete_d (s : State) : (complete s).d = s.d := by
  rw [complete_eq]
@[simp] theorem complete_cl (s : State) : (complete s).cl = s.cl := by
  rw [complete_eq]
@[simp] theorem complete_hlit (s : State) : (complete s).hlit = s.hlit := by
  rw [complete_eq]
@[simp] theorem complete_hdist (s : State) : (complete s).hdist = s.hdist := by
  rw [complete_eq]
@[simp] theorem complete_hclen (s : State) : (complete s).hclen = s.hclen := by
  rw [complete_eq]
@[simp] theorem complete_lens (s : State) : (complete s).lens = s.lens := by
  rw [complete_eq]
@[simp] theorem complete_codesNext (s : State) : (complete s).codesNext = s.codesNext := by
  rw [complete_eq]
@[simp] theorem complete_matchLen (s : State) : (complete s).matchLen = s.matchLen := by
  rw [complete_eq]
@[simp] theorem complete_p (s : State) : (complete s).p = s.p := by
  rw [complete_eq]
@[simp] theorem complete_y (s : State) : (complete s).y = s.y := by
  rw [complete_eq]
@[simp] theorem complete_prev (s : State) : (complete s).prev = s.prev := by
  rw [complete_eq]
@[simp] theorem complete_shownOut (s : State) : (complete s).shownOut = s.shownOut := by
  rw [complete_eq]
@[simp] theorem complete_shownStage (s : State) : (complete s).shownStage = s.shownStage := by
  rw [complete_eq]
@[simp] theorem complete_abortIn (s : State) : (complete s).abortIn = none := by
  rw [complete_eq]
@[simp] theorem complete_raceIn (s : State) : (complete s).raceIn = none := by
  rw [complete_eq]
@[simp] theorem complete_hostQueue (s : State) : (complete s).hostQueue = s.hostQueue := by
  rw [complete_eq]
@[simp] theorem complete_sched (s : State) : (complete s).sched = s.sched := by
  rw [complete_eq]
@[simp] theorem complete_hostData (s : State) : (complete s).hostData = s.hostData := by
  rw [complete_eq]

/-! ### Sequences of bytes -/

/-- writeBytes writes memory only. -/
theorem writeBytes_eq (r : Region) (off : Nat → Nat) (j : Nat) (bs : List Byte) (s : State) :
    writeBytes r off j bs s = { s with mem := (writeBytes r off j bs s).mem } := by
  induction bs generalizing j s with
  | nil => rfl
  | cons b bs ih => rw [writeBytes, ih]; rfl

/-- copyMatch writes memory and OUT_COUNT only. -/
theorem copyMatch_eq (d n : Nat) (s : State) :
    copyMatch d n s = { s with mem := (copyMatch d n s).mem, outCount := (copyMatch d n s).outCount } := by
  induction n generalizing s with
  | zero => rfl
  | succ n ih => rw [copyMatch, ih]; rfl

/-- copyStored writes memory and OUT_COUNT only. -/
theorem copyStored_eq (k n : Nat) (s : State) :
    copyStored k n s = { s with mem := (copyStored k n s).mem, outCount := (copyStored k n s).outCount } := by
  induction n generalizing k s with
  | zero => rfl
  | succ n ih => rw [copyStored, ih]; rfl

@[simp] theorem writeBytes_irqEn (r : Region) (o : Nat → Nat) (j : Nat) (bs : List Byte) (s : State) : (writeBytes r o j bs s).irqEn = s.irqEn := by
  rw [writeBytes_eq]
@[simp] theorem writeBytes_regs (r : Region) (o : Nat → Nat) (j : Nat) (bs : List Byte) (s : State) : (writeBytes r o j bs s).regs = s.regs := by
  rw [writeBytes_eq]
@[simp] theorem writeBytes_status (r : Region) (o : Nat → Nat) (j : Nat) (bs : List Byte) (s : State) : (writeBytes r o j bs s).status = s.status := by
  rw [writeBytes_eq]
@[simp] theorem writeBytes_report (r : Region) (o : Nat → Nat) (j : Nat) (bs : List Byte) (s : State) : (writeBytes r o j bs s).report = s.report := by
  rw [writeBytes_eq]
@[simp] theorem writeBytes_outCount (r : Region) (o : Nat → Nat) (j : Nat) (bs : List Byte) (s : State) : (writeBytes r o j bs s).outCount = s.outCount := by
  rw [writeBytes_eq]
@[simp] theorem writeBytes_snap (r : Region) (o : Nat → Nat) (j : Nat) (bs : List Byte) (s : State) : (writeBytes r o j bs s).snap = s.snap := by
  rw [writeBytes_eq]
@[simp] theorem writeBytes_cmd (r : Region) (o : Nat → Nat) (j : Nat) (bs : List Byte) (s : State) : (writeBytes r o j bs s).cmd = s.cmd := by
  rw [writeBytes_eq]
@[simp] theorem writeBytes_bp (r : Region) (o : Nat → Nat) (j : Nat) (bs : List Byte) (s : State) : (writeBytes r o j bs s).bp = s.bp := by
  rw [writeBytes_eq]
@[simp] theorem writeBytes_engine (r : Region) (o : Nat → Nat) (j : Nat) (bs : List Byte) (s : State) : (writeBytes r o j bs s).engine = s.engine := by
  rw [writeBytes_eq]
@[simp] theorem writeBytes_bfinal (r : Region) (o : Nat → Nat) (j : Nat) (bs : List Byte) (s : State) : (writeBytes r o j bs s).bfinal = s.bfinal := by
  rw [writeBytes_eq]
@[simp] theorem writeBytes_btype (r : Region) (o : Nat → Nat) (j : Nat) (bs : List Byte) (s : State) : (writeBytes r o j bs s).btype = s.btype := by
  rw [writeBytes_eq]
@[simp] theorem writeBytes_ll (r : Region) (o : Nat → Nat) (j : Nat) (bs : List Byte) (s : State) : (writeBytes r o j bs s).ll = s.ll := by
  rw [writeBytes_eq]
@[simp] theorem writeBytes_d (r : Region) (o : Nat → Nat) (j : Nat) (bs : List Byte) (s : State) : (writeBytes r o j bs s).d = s.d := by
  rw [writeBytes_eq]
@[simp] theorem writeBytes_cl (r : Region) (o : Nat → Nat) (j : Nat) (bs : List Byte) (s : State) : (writeBytes r o j bs s).cl = s.cl := by
  rw [writeBytes_eq]
@[simp] theorem writeBytes_hlit (r : Region) (o : Nat → Nat) (j : Nat) (bs : List Byte) (s : State) : (writeBytes r o j bs s).hlit = s.hlit := by
  rw [writeBytes_eq]
@[simp] theorem writeBytes_hdist (r : Region) (o : Nat → Nat) (j : Nat) (bs : List Byte) (s : State) : (writeBytes r o j bs s).hdist = s.hdist := by
  rw [writeBytes_eq]
@[simp] theorem writeBytes_hclen (r : Region) (o : Nat → Nat) (j : Nat) (bs : List Byte) (s : State) : (writeBytes r o j bs s).hclen = s.hclen := by
  rw [writeBytes_eq]
@[simp] theorem writeBytes_lens (r : Region) (o : Nat → Nat) (j : Nat) (bs : List Byte) (s : State) : (writeBytes r o j bs s).lens = s.lens := by
  rw [writeBytes_eq]
@[simp] theorem writeBytes_codesNext (r : Region) (o : Nat → Nat) (j : Nat) (bs : List Byte) (s : State) : (writeBytes r o j bs s).codesNext = s.codesNext := by
  rw [writeBytes_eq]
@[simp] theorem writeBytes_matchLen (r : Region) (o : Nat → Nat) (j : Nat) (bs : List Byte) (s : State) : (writeBytes r o j bs s).matchLen = s.matchLen := by
  rw [writeBytes_eq]
@[simp] theorem writeBytes_p (r : Region) (o : Nat → Nat) (j : Nat) (bs : List Byte) (s : State) : (writeBytes r o j bs s).p = s.p := by
  rw [writeBytes_eq]
@[simp] theorem writeBytes_y (r : Region) (o : Nat → Nat) (j : Nat) (bs : List Byte) (s : State) : (writeBytes r o j bs s).y = s.y := by
  rw [writeBytes_eq]
@[simp] theorem writeBytes_prev (r : Region) (o : Nat → Nat) (j : Nat) (bs : List Byte) (s : State) : (writeBytes r o j bs s).prev = s.prev := by
  rw [writeBytes_eq]
@[simp] theorem writeBytes_draws (r : Region) (o : Nat → Nat) (j : Nat) (bs : List Byte) (s : State) : (writeBytes r o j bs s).draws = s.draws := by
  rw [writeBytes_eq]
@[simp] theorem writeBytes_shownOut (r : Region) (o : Nat → Nat) (j : Nat) (bs : List Byte) (s : State) : (writeBytes r o j bs s).shownOut = s.shownOut := by
  rw [writeBytes_eq]
@[simp] theorem writeBytes_shownStage (r : Region) (o : Nat → Nat) (j : Nat) (bs : List Byte) (s : State) : (writeBytes r o j bs s).shownStage = s.shownStage := by
  rw [writeBytes_eq]
@[simp] theorem writeBytes_abortIn (r : Region) (o : Nat → Nat) (j : Nat) (bs : List Byte) (s : State) : (writeBytes r o j bs s).abortIn = s.abortIn := by
  rw [writeBytes_eq]
@[simp] theorem writeBytes_raceIn (r : Region) (o : Nat → Nat) (j : Nat) (bs : List Byte) (s : State) : (writeBytes r o j bs s).raceIn = s.raceIn := by
  rw [writeBytes_eq]
@[simp] theorem writeBytes_hostQueue (r : Region) (o : Nat → Nat) (j : Nat) (bs : List Byte) (s : State) : (writeBytes r o j bs s).hostQueue = s.hostQueue := by
  rw [writeBytes_eq]
@[simp] theorem writeBytes_sched (r : Region) (o : Nat → Nat) (j : Nat) (bs : List Byte) (s : State) : (writeBytes r o j bs s).sched = s.sched := by
  rw [writeBytes_eq]
@[simp] theorem writeBytes_hostData (r : Region) (o : Nat → Nat) (j : Nat) (bs : List Byte) (s : State) : (writeBytes r o j bs s).hostData = s.hostData := by
  rw [writeBytes_eq]

@[simp] theorem copyMatch_irqEn (d n : Nat) (s : State) : (copyMatch d n s).irqEn = s.irqEn := by
  rw [copyMatch_eq]
@[simp] theorem copyMatch_regs (d n : Nat) (s : State) : (copyMatch d n s).regs = s.regs := by
  rw [copyMatch_eq]
@[simp] theorem copyMatch_status (d n : Nat) (s : State) : (copyMatch d n s).status = s.status := by
  rw [copyMatch_eq]
@[simp] theorem copyMatch_report (d n : Nat) (s : State) : (copyMatch d n s).report = s.report := by
  rw [copyMatch_eq]
@[simp] theorem copyMatch_snap (d n : Nat) (s : State) : (copyMatch d n s).snap = s.snap := by
  rw [copyMatch_eq]
@[simp] theorem copyMatch_cmd (d n : Nat) (s : State) : (copyMatch d n s).cmd = s.cmd := by
  rw [copyMatch_eq]
@[simp] theorem copyMatch_bp (d n : Nat) (s : State) : (copyMatch d n s).bp = s.bp := by
  rw [copyMatch_eq]
@[simp] theorem copyMatch_engine (d n : Nat) (s : State) : (copyMatch d n s).engine = s.engine := by
  rw [copyMatch_eq]
@[simp] theorem copyMatch_bfinal (d n : Nat) (s : State) : (copyMatch d n s).bfinal = s.bfinal := by
  rw [copyMatch_eq]
@[simp] theorem copyMatch_btype (d n : Nat) (s : State) : (copyMatch d n s).btype = s.btype := by
  rw [copyMatch_eq]
@[simp] theorem copyMatch_ll (d n : Nat) (s : State) : (copyMatch d n s).ll = s.ll := by
  rw [copyMatch_eq]
@[simp] theorem copyMatch_d (d n : Nat) (s : State) : (copyMatch d n s).d = s.d := by
  rw [copyMatch_eq]
@[simp] theorem copyMatch_cl (d n : Nat) (s : State) : (copyMatch d n s).cl = s.cl := by
  rw [copyMatch_eq]
@[simp] theorem copyMatch_hlit (d n : Nat) (s : State) : (copyMatch d n s).hlit = s.hlit := by
  rw [copyMatch_eq]
@[simp] theorem copyMatch_hdist (d n : Nat) (s : State) : (copyMatch d n s).hdist = s.hdist := by
  rw [copyMatch_eq]
@[simp] theorem copyMatch_hclen (d n : Nat) (s : State) : (copyMatch d n s).hclen = s.hclen := by
  rw [copyMatch_eq]
@[simp] theorem copyMatch_lens (d n : Nat) (s : State) : (copyMatch d n s).lens = s.lens := by
  rw [copyMatch_eq]
@[simp] theorem copyMatch_codesNext (d n : Nat) (s : State) : (copyMatch d n s).codesNext = s.codesNext := by
  rw [copyMatch_eq]
@[simp] theorem copyMatch_matchLen (d n : Nat) (s : State) : (copyMatch d n s).matchLen = s.matchLen := by
  rw [copyMatch_eq]
@[simp] theorem copyMatch_p (d n : Nat) (s : State) : (copyMatch d n s).p = s.p := by
  rw [copyMatch_eq]
@[simp] theorem copyMatch_y (d n : Nat) (s : State) : (copyMatch d n s).y = s.y := by
  rw [copyMatch_eq]
@[simp] theorem copyMatch_prev (d n : Nat) (s : State) : (copyMatch d n s).prev = s.prev := by
  rw [copyMatch_eq]
@[simp] theorem copyMatch_draws (d n : Nat) (s : State) : (copyMatch d n s).draws = s.draws := by
  rw [copyMatch_eq]
@[simp] theorem copyMatch_shownOut (d n : Nat) (s : State) : (copyMatch d n s).shownOut = s.shownOut := by
  rw [copyMatch_eq]
@[simp] theorem copyMatch_shownStage (d n : Nat) (s : State) : (copyMatch d n s).shownStage = s.shownStage := by
  rw [copyMatch_eq]
@[simp] theorem copyMatch_abortIn (d n : Nat) (s : State) : (copyMatch d n s).abortIn = s.abortIn := by
  rw [copyMatch_eq]
@[simp] theorem copyMatch_raceIn (d n : Nat) (s : State) : (copyMatch d n s).raceIn = s.raceIn := by
  rw [copyMatch_eq]
@[simp] theorem copyMatch_hostQueue (d n : Nat) (s : State) : (copyMatch d n s).hostQueue = s.hostQueue := by
  rw [copyMatch_eq]
@[simp] theorem copyMatch_sched (d n : Nat) (s : State) : (copyMatch d n s).sched = s.sched := by
  rw [copyMatch_eq]
@[simp] theorem copyMatch_hostData (d n : Nat) (s : State) : (copyMatch d n s).hostData = s.hostData := by
  rw [copyMatch_eq]

@[simp] theorem copyStored_irqEn (k n : Nat) (s : State) : (copyStored k n s).irqEn = s.irqEn := by
  rw [copyStored_eq]
@[simp] theorem copyStored_regs (k n : Nat) (s : State) : (copyStored k n s).regs = s.regs := by
  rw [copyStored_eq]
@[simp] theorem copyStored_status (k n : Nat) (s : State) : (copyStored k n s).status = s.status := by
  rw [copyStored_eq]
@[simp] theorem copyStored_report (k n : Nat) (s : State) : (copyStored k n s).report = s.report := by
  rw [copyStored_eq]
@[simp] theorem copyStored_snap (k n : Nat) (s : State) : (copyStored k n s).snap = s.snap := by
  rw [copyStored_eq]
@[simp] theorem copyStored_cmd (k n : Nat) (s : State) : (copyStored k n s).cmd = s.cmd := by
  rw [copyStored_eq]
@[simp] theorem copyStored_bp (k n : Nat) (s : State) : (copyStored k n s).bp = s.bp := by
  rw [copyStored_eq]
@[simp] theorem copyStored_engine (k n : Nat) (s : State) : (copyStored k n s).engine = s.engine := by
  rw [copyStored_eq]
@[simp] theorem copyStored_bfinal (k n : Nat) (s : State) : (copyStored k n s).bfinal = s.bfinal := by
  rw [copyStored_eq]
@[simp] theorem copyStored_btype (k n : Nat) (s : State) : (copyStored k n s).btype = s.btype := by
  rw [copyStored_eq]
@[simp] theorem copyStored_ll (k n : Nat) (s : State) : (copyStored k n s).ll = s.ll := by
  rw [copyStored_eq]
@[simp] theorem copyStored_d (k n : Nat) (s : State) : (copyStored k n s).d = s.d := by
  rw [copyStored_eq]
@[simp] theorem copyStored_cl (k n : Nat) (s : State) : (copyStored k n s).cl = s.cl := by
  rw [copyStored_eq]
@[simp] theorem copyStored_hlit (k n : Nat) (s : State) : (copyStored k n s).hlit = s.hlit := by
  rw [copyStored_eq]
@[simp] theorem copyStored_hdist (k n : Nat) (s : State) : (copyStored k n s).hdist = s.hdist := by
  rw [copyStored_eq]
@[simp] theorem copyStored_hclen (k n : Nat) (s : State) : (copyStored k n s).hclen = s.hclen := by
  rw [copyStored_eq]
@[simp] theorem copyStored_lens (k n : Nat) (s : State) : (copyStored k n s).lens = s.lens := by
  rw [copyStored_eq]
@[simp] theorem copyStored_codesNext (k n : Nat) (s : State) : (copyStored k n s).codesNext = s.codesNext := by
  rw [copyStored_eq]
@[simp] theorem copyStored_matchLen (k n : Nat) (s : State) : (copyStored k n s).matchLen = s.matchLen := by
  rw [copyStored_eq]
@[simp] theorem copyStored_p (k n : Nat) (s : State) : (copyStored k n s).p = s.p := by
  rw [copyStored_eq]
@[simp] theorem copyStored_y (k n : Nat) (s : State) : (copyStored k n s).y = s.y := by
  rw [copyStored_eq]
@[simp] theorem copyStored_prev (k n : Nat) (s : State) : (copyStored k n s).prev = s.prev := by
  rw [copyStored_eq]
@[simp] theorem copyStored_draws (k n : Nat) (s : State) : (copyStored k n s).draws = s.draws := by
  rw [copyStored_eq]
@[simp] theorem copyStored_shownOut (k n : Nat) (s : State) : (copyStored k n s).shownOut = s.shownOut := by
  rw [copyStored_eq]
@[simp] theorem copyStored_shownStage (k n : Nat) (s : State) : (copyStored k n s).shownStage = s.shownStage := by
  rw [copyStored_eq]
@[simp] theorem copyStored_abortIn (k n : Nat) (s : State) : (copyStored k n s).abortIn = s.abortIn := by
  rw [copyStored_eq]
@[simp] theorem copyStored_raceIn (k n : Nat) (s : State) : (copyStored k n s).raceIn = s.raceIn := by
  rw [copyStored_eq]
@[simp] theorem copyStored_hostQueue (k n : Nat) (s : State) : (copyStored k n s).hostQueue = s.hostQueue := by
  rw [copyStored_eq]
@[simp] theorem copyStored_sched (k n : Nat) (s : State) : (copyStored k n s).sched = s.sched := by
  rw [copyStored_eq]
@[simp] theorem copyStored_hostData (k n : Nat) (s : State) : (copyStored k n s).hostData = s.hostData := by
  rw [copyStored_eq]

end Sys2Proof.Machine
end

