-- ==== Sys2Proof/Laws/Memory.lean ====
section
/-! SUPPORT. Memory: reads after writes, the canonical form, regions and unspecified bytes. -/

namespace Sys2Proof.Machine

/-! ### The canonical form -/

theorem Memory.wfFrom_mono {lo lo' : Nat} {m : Memory} (h : Memory.wfFrom lo m = true) (hl : lo' ≤ lo) :
    Memory.wfFrom lo' m = true := by
  cases m with
  | nil => rfl
  | cons c m =>
    simp only [Memory.wfFrom, Bool.and_eq_true, decide_eq_true_eq] at h ⊢
    exact ⟨⟨⟨by omega, h.1.1.2⟩, h.1.2⟩, h.2⟩

theorem Memory.wfFrom_cons {lo a : Nat} {v : Byte} {m : Memory} (hm : Memory.wfFrom (a + 1) m = true)
    (hl : lo ≤ a) (ha : a < memorySize) : Memory.wfFrom lo (Memory.cons a v m) = true := by
  unfold Memory.cons
  split
  · exact Memory.wfFrom_mono hm (by omega)
  · simp_all [Memory.wfFrom]

/-- A write keeps the canonical form. -/
theorem Memory.wfFrom_write {lo a : Nat} {v : Byte} {m : Memory} (h : Memory.wfFrom lo m = true) (hl : lo ≤ a)
    (ha : a < memorySize) : Memory.wfFrom lo (Memory.write m a v) = true := by
  induction m generalizing lo with
  | nil => exact Memory.wfFrom_cons rfl hl ha
  | cons c m ih =>
    simp only [Memory.wfFrom, Bool.and_eq_true, decide_eq_true_eq] at h
    unfold Memory.write
    split
    · refine Memory.wfFrom_cons ?_ hl ha
      simp only [Memory.wfFrom, Bool.and_eq_true, decide_eq_true_eq]
      exact ⟨⟨⟨by omega, h.1.1.2⟩, h.1.2⟩, h.2⟩
    · split
      · subst_vars
        exact Memory.wfFrom_cons h.2 hl ha
      · simp only [Memory.wfFrom, Bool.and_eq_true, decide_eq_true_eq]
        exact ⟨h.1, ih h.2 (by omega)⟩

/-- A write keeps the canonical form. -/
theorem Memory.wf_write {a : Nat} {v : Byte} {m : Memory} (h : m.wf = true) (ha : a < memorySize) :
    (m.write a v).wf = true :=
  Memory.wfFrom_write h (Nat.zero_le _) ha

/-! ### Reads after writes -/

/-- Below the least listed address every byte is unlisted. -/
theorem Memory.read_below {lo a : Nat} {m : Memory} (h : Memory.wfFrom lo m = true) (ha : a < lo) :
    m.read a = Config.unlistedByte := by
  induction m generalizing lo with
  | nil => rfl
  | cons c m ih =>
    simp only [Memory.wfFrom, Bool.and_eq_true, decide_eq_true_eq] at h
    simp only [Memory.read]
    rw [if_neg (by omega), ih h.2 (by omega)]

theorem Memory.read_cons {a b : Nat} {v : Byte} {m : Memory} (hm : Memory.wfFrom (a + 1) m = true) :
    Memory.read (Memory.cons a v m) b = if b = a then v else m.read b := by
  unfold Memory.cons
  split
  · split
    · next hv hb => rw [hb, Memory.read_below hm (by omega), hv]
    · rfl
  · rfl

/-- A read after a write: the byte written at its own address, every other byte as before. -/
theorem Memory.read_write_from {lo a b : Nat} {v : Byte} {m : Memory} (h : Memory.wfFrom lo m = true) :
    (Memory.write m a v).read b = if b = a then v else m.read b := by
  induction m generalizing lo with
  | nil => exact Memory.read_cons rfl
  | cons c m ih =>
    simp only [Memory.wfFrom, Bool.and_eq_true, decide_eq_true_eq] at h
    unfold Memory.write
    split
    · refine Memory.read_cons ?_
      simp only [Memory.wfFrom, Bool.and_eq_true, decide_eq_true_eq]
      exact ⟨⟨⟨by omega, h.1.1.2⟩, h.1.2⟩, h.2⟩
    · split
      · subst_vars
        rw [Memory.read_cons h.2]
        simp only [Memory.read]
        split <;> rfl
      · simp only [Memory.read]
        rw [ih h.2]
        split
        · next hb => rw [if_neg (by omega)]
        · rfl

/-! ### Regions -/

theorem Region.addr_lt (r : Region) (i : Nat) : r.addr i < memorySize := Nat.mod_lt _ (by decide)

/-- Inside a region that does not wrap, byte i stands at BASE + i. -/
theorem Region.addr_eq {r : Region} {i : Nat} (hr : r.inside) (hi : i < r.len.toNat) :
    r.addr i = r.base.toNat + i :=
  Nat.mod_eq_of_lt (by unfold Region.inside at hr; omega)

theorem Region.has_addr {r : Region} {i : Nat} (hr : r.inside) (hi : i < r.len.toNat) : r.has (r.addr i) = true := by
  rw [Region.addr_eq hr hi]
  simp [Region.has, hi]

theorem Region.addr_inj {r : Region} {i j : Nat} (hr : r.inside) (hi : i < r.len.toNat) (hj : j < r.len.toNat)
    (h : r.addr i = r.addr j) : i = j := by
  rw [Region.addr_eq hr hi, Region.addr_eq hr hj] at h
  omega

/-- Bytes of two regions that do not overlap stand at different addresses. -/
theorem Region.addr_ne {r q : Region} {i j : Nat} (hr : r.inside) (hq : q.inside) (ho : r.overlaps q = false)
    (hi : i < r.len.toNat) (hj : j < q.len.toNat) : r.addr i ≠ q.addr j := by
  rw [Region.addr_eq hr hi, Region.addr_eq hq hj]
  intro h
  have hr0 : r.len ≠ 0 := by intro h0; simp [h0] at hi
  have hq0 : q.len ≠ 0 := by intro h0; simp [h0] at hj
  simp only [Region.overlaps, Bool.and_eq_false_iff, bne_eq_false_iff_eq, decide_eq_false_iff_not] at ho
  rcases ho with ((ho | ho) | ho) | ho <;> first | contradiction | omega

/-! ### Unspecified bytes -/

theorem Memory.wf_forget {k n : Nat} {r : Region} {m : Memory} (h : m.wf = true) : (m.forget k r n).wf = true := by
  induction n with
  | zero => exact h
  | succ n ih => exact Memory.wf_write ih (Region.addr_lt r n)

/-- Forgetting a region that does not wrap leaves every byte outside it as it was. -/
theorem Memory.read_forget_of_not_has {k n a : Nat} {r : Region} {m : Memory} (h : m.wf = true) (hr : r.inside)
    (hn : n ≤ r.len.toNat) (ha : r.has a = false) : (m.forget k r n).read a = m.read a := by
  induction n with
  | zero => rfl
  | succ n ih =>
    rw [Memory.forget, Memory.read_write_from (Memory.wf_forget h), if_neg, ih (by omega)]
    intro he
    rw [he, Region.has_addr hr (by omega)] at ha
    exact Bool.noConfusion ha

theorem wf_forgetRegions {rs : List Region} {s : State} (h : s.mem.wf = true) :
    (forgetRegions rs s).mem.wf = true := by
  rw [forgetRegions_mem]
  generalize s.mem = m at h
  induction rs generalizing m with
  | nil => exact h
  | cons r rs ih => exact ih (m.forget s.draws r r.len.toNat) (Memory.wf_forget h)

theorem read_forgetRegions {rs : List Region} {s : State} {a : Nat} (h : s.mem.wf = true)
    (hr : ∀ r ∈ rs, r.inside) (ha : Outside rs a) : (forgetRegions rs s).mem.read a = s.mem.read a := by
  rw [forgetRegions_mem]
  generalize s.mem = m at h
  induction rs generalizing m with
  | nil => rfl
  | cons r rs ih =>
    rw [List.foldl_cons, ih (fun q hq => hr q (List.mem_cons_of_mem _ hq))
      (fun q hq => ha q (List.mem_cons_of_mem _ hq)) _ (Memory.wf_forget h)]
    exact Memory.read_forget_of_not_has h (hr r List.mem_cons_self) (le_refl _) (ha r List.mem_cons_self)

/-! ### Memory in the shared operations -/

theorem wf_raiseError {c : Cause} {i : Word} {s : State} (h : s.mem.wf = true) :
    (raiseError c i s).mem.wf = true := by
  unfold raiseError
  split
  · exact h
  · exact wf_forgetRegions h

/-- raiseError leaves every byte outside the written regions as it was. -/
theorem read_raiseError {c : Cause} {i : Word} {s : State} {a : Nat} (h : s.mem.wf = true)
    (hr : ∀ r ∈ writtenRegions s.cmd s.snap, r.inside) (ha : Outside (writtenRegions s.cmd s.snap) a) :
    (raiseError c i s).mem.read a = s.mem.read a := by
  unfold raiseError
  split
  · rfl
  · exact read_forgetRegions h hr ha

theorem wf_complete {s : State} (h : s.mem.wf = true) : (complete s).mem.wf = true := by
  unfold complete
  split
  · exact wf_forgetRegions h
  · exact h

/-- complete leaves every byte outside WORK as it was. -/
theorem read_complete {s : State} {a : Nat} (h : s.mem.wf = true) (hr : s.cmd = .decode → s.snap.work.inside)
    (ha : s.cmd = .decode → s.snap.work.has a = false) : (complete s).mem.read a = s.mem.read a := by
  unfold complete
  split
  · next hc => exact read_forgetRegions h (by simpa using hr hc) (by simpa [Outside] using ha hc)
  · rfl

theorem wf_writeBytes {r : Region} {o : Nat → Nat} {j : Nat} {bs : List Byte} {s : State} (h : s.mem.wf = true) :
    (writeBytes r o j bs s).mem.wf = true := by
  induction bs generalizing j s with
  | nil => exact h
  | cons b bs ih => exact ih (Memory.wf_write h (Region.addr_lt r _))

/-- writeBytes leaves every byte it does not name as it was. -/
theorem read_writeBytes_of_ne {r : Region} {o : Nat → Nat} {j a : Nat} {bs : List Byte} {s : State}
    (h : s.mem.wf = true) (ha : ∀ k, j ≤ k → k < j + bs.length → a ≠ r.addr (o k)) :
    (writeBytes r o j bs s).mem.read a = s.mem.read a := by
  induction bs generalizing j s with
  | nil => rfl
  | cons b bs ih =>
    rw [writeBytes, ih (Memory.wf_write h (Region.addr_lt r _))
      (fun k hk hk' => ha k (by omega) (by simp only [List.length_cons]; omega))]
    rw [writeByte_mem, Memory.read_write_from h, if_neg (ha j (le_refl _) (by simp))]

theorem wf_copyMatch {d n : Nat} {s : State} (h : s.mem.wf = true) : (copyMatch d n s).mem.wf = true := by
  induction n generalizing s with
  | zero => exact h
  | succ n ih => exact ih (Memory.wf_write h (Region.addr_lt _ _))

theorem wf_copyStored {k n : Nat} {s : State} (h : s.mem.wf = true) : (copyStored k n s).mem.wf = true := by
  induction n generalizing k s with
  | zero => exact h
  | succ n ih => exact ih (Memory.wf_write h (Region.addr_lt _ _))

end Sys2Proof.Machine
end

