-- ==== Sys2Proof/Laws/Bits.lean ====
section
/-! SUPPORT. The bit reader: what Peek, Read, Align and Decode answer, and how far they move the cursor. -/

namespace Sys2Proof.Machine

theorem totalBits_lt (s : State) : totalBits s < 2 ^ 35 := by
  have := s.snap.src.len.isLt
  unfold totalBits
  omega

theorem streamField_lt (s : State) (k n : Nat) : streamField s k n < 2 ^ n := by
  induction n generalizing k with
  | zero => simp [streamField]
  | succ n ih =>
    have := ih (k + 1)
    have hb : (streamBit s k).toNat ≤ 1 := Bool.toNat_le _
    rw [streamField, pow_succ]
    omega

/-- Bit j of a stream field is stream bit k + j (41_bitreader.md R502). -/
theorem testBit_streamField (s : State) (k : Nat) {n j : Nat} (h : j < n) :
    (streamField s k n).testBit j = streamBit s (k + j) := by
  induction n generalizing k j with
  | zero => omega
  | succ n ih =>
    rw [streamField]
    cases j with
    | zero =>
      rw [Nat.testBit_zero, Nat.add_zero]
      cases streamBit s k <;> simp
    | succ j =>
      have hd : ((streamBit s k).toNat + 2 * streamField s (k + 1) n) / 2 = streamField s (k + 1) n := by
        have := Bool.toNat_le (streamBit s k)
        omega
      rw [Nat.testBit_succ, hd, ih (k + 1) (by omega), Nat.add_right_comm, Nat.add_assoc]

theorem peek_lt (s : State) (n : Nat) : peek s n < 2 ^ n := streamField_lt s _ n

/-- A stream field of m + n bits is the first m bits and above them the next n. -/
theorem streamField_add (s : State) (k m n : Nat) :
    streamField s k (m + n) = streamField s k m + 2 ^ m * streamField s (k + m) n := by
  induction m generalizing k with
  | zero => simp [streamField]
  | succ m ih =>
    rw [Nat.add_right_comm m 1 n, streamField, streamField, ih, pow_succ, Nat.add_right_comm k 1 m, Nat.add_assoc k m 1]
    ring

/-- The low bits of a longer peek are the shorter peek. -/
theorem streamField_mod (s : State) (k m n : Nat) (h : m ≤ n) : streamField s k n % 2 ^ m = streamField s k m := by
  obtain ⟨d, rfl⟩ := Nat.exists_eq_add_of_le h
  rw [streamField_add, Nat.add_mul_mod_self_left, Nat.mod_eq_of_lt (streamField_lt s k m)]

/-- The stream depends on SRC and memory only. -/
theorem streamField_congr {s t : State} (hm : t.mem = s.mem) (hs : t.snap.src = s.snap.src) (k n : Nat) :
    streamField t k n = streamField s k n := by
  induction n generalizing k with
  | zero => rfl
  | succ n ih =>
    have hb : streamBit t k = streamBit s k := by unfold streamBit totalBits readByte; rw [hm, hs]
    rw [streamField, streamField, ih, hb]

/-- The cursor after a skip that stays inside the stream. -/
theorem skip_bp_toNat {n : Nat} {s : State} (h : s.bp.toNat + n ≤ totalBits s) :
    (skip n s).bp.toNat = s.bp.toNat + n := by
  have := totalBits_lt s
  rw [skip_bp, BitVec.toNat_add, BitVec.toNat_ofNat, Nat.add_mod_mod, Nat.mod_eq_of_lt (by omega)]

theorem skip_skip (m n : Nat) (s : State) : skip n (skip m s) = skip (m + n) s := by
  simp only [skip, BitVec.add_assoc, BitVec.ofNat_add]

theorem readBits_of_le {n : Nat} {s : State} (h : s.bp.toNat + n ≤ totalBits s) :
    readBits n s = some (peek s n, skip n s) := if_neg (by omega)

theorem readBits_of_lt {n : Nat} {s : State} (h : totalBits s < s.bp.toNat + n) : readBits n s = none :=
  if_pos (by omega)

/-- Everything a Read that answers says. -/
theorem readBits_eq_some {n v : Nat} {s t : State} (h : readBits n s = some (v, t)) :
    s.bp.toNat + n ≤ totalBits s ∧ v = peek s n ∧ t = skip n s := by
  unfold readBits at h
  split at h
  · simp at h
  · next hn =>
    simp only [Option.some.injEq, Prod.mk.injEq] at h
    exact ⟨by omega, h.1.symm, h.2.symm⟩

/-- The cursor after Align. -/
theorem align_bp_toNat {s : State} (h : s.bp.toNat ≤ totalBits s) :
    (align s).bp.toNat = (s.bp.toNat + 7) / 8 * 8 ∧ (align s).bp.toNat ≤ totalBits s := by
  have h35 := totalBits_lt s
  have hle : (s.bp.toNat + 7) / 8 * 8 ≤ totalBits s := by unfold totalBits at h ⊢; omega
  rw [align_bp, BitVec.toNat_ofNat, Nat.mod_eq_of_lt (by omega)]
  exact ⟨rfl, hle⟩

/-- A decode that answers a symbol found it in a leaf of the tree and consumed the leaf's code. -/
theorem decodeSym_eq_sym {t : Tree} {c : Cause} {s u : State} {v : Nat} (h : decodeSym t c s = .sym v u) :
    ∃ k len, t.entry k = .leaf len v ∧ s.bp.toNat + len ≤ totalBits s ∧ u = skip len s := by
  have take : ∀ len w, takeCode len w s = .sym v u → w = v ∧ s.bp.toNat + len ≤ totalBits s ∧ u = skip len s := by
    intro len w hw
    unfold takeCode at hw
    split at hw
    · simp at hw
    · next hr =>
      obtain ⟨hle, -, rfl⟩ := readBits_eq_some hr
      simp only [Symbol.sym.injEq] at hw
      exact ⟨hw.1, hle, hw.2.symm⟩
  unfold decodeSym at h
  split at h
  · simp at h
  · next he => obtain ⟨rfl, hle, rfl⟩ := take _ _ h; exact ⟨_, _, he, hle, rfl⟩
  · split at h
    · next he => obtain ⟨rfl, hle, rfl⟩ := take _ _ h; exact ⟨_, _, he, hle, rfl⟩
    · simp at h
    · simp at h

/-- A leaf of a tree that fits an alphabet. -/
theorem Tree.fits_leaf {n k len v : Nat} {t : Tree} (h : t.fits n = true) (he : t.entry k = .leaf len v) :
    1 ≤ len ∧ len ≤ 15 ∧ v < n := by
  have hm : Entry.leaf len v ∈ t.tab := by
    unfold Tree.entry at he
    rw [List.getD_eq_getElem?_getD] at he
    cases hk : t.tab[k]? with
    | none => rw [hk] at he; simp at he
    | some e => rw [hk] at he; simp only [Option.getD_some] at he; rw [← he]; exact List.mem_of_getElem? hk
  have := List.all_eq_true.mp h _ hm
  simp only [Entry.fits, Bool.and_eq_true, decide_eq_true_eq] at this
  exact ⟨this.1.1, this.1.2, this.2⟩

end Sys2Proof.Machine
end

