-- ==== Sys2Proof/Laws/Trees.lean ====
section
/-! SUPPORT. Huffman trees: what Build answers and what its tables hold. -/

namespace Sys2Proof.Machine

/-- A spelling is that of a used symbol, with its length and the reversal of its code. -/
theorem mem_spellings {s : Nat} {ls cs : List Nat} {r : Spelling} (h : r ∈ spellings s ls cs) :
    ∃ k, r.sym = s + k ∧ ls[k]? = some r.len ∧ r.len ≠ 0 ∧ ∃ c, cs[k]? = some c ∧ r.bits = rev c r.len := by
  induction ls generalizing s cs with
  | nil => simp [spellings] at h
  | cons l ls ih =>
    cases cs with
    | nil => simp [spellings] at h
    | cons c cs =>
      have tail : r ∈ spellings (s + 1) ls cs →
          ∃ k, r.sym = s + k ∧ (l :: ls)[k]? = some r.len ∧ r.len ≠ 0
            ∧ ∃ x, (c :: cs)[k]? = some x ∧ r.bits = rev x r.len := by
        intro h
        obtain ⟨k, hs, hl, h0, hc⟩ := ih h
        exact ⟨k + 1, by omega, by simpa using hl, h0, by simpa using hc⟩
      rw [spellings] at h
      split at h
      · exact tail h
      · next hl =>
        rcases List.mem_cons.mp h with rfl | h
        · exact ⟨0, by simp, by simp, hl, c, by simp, rfl⟩
        · exact tail h

/-- Every spelling of a length set of lengths at most 15 fits its alphabet. -/
theorem spelling_fits {lens codes : List Nat} {r : Spelling} (hl : ∀ l ∈ lens, l ≤ 15)
    (h : r ∈ spellings 0 lens codes) : (Entry.leaf r.len r.sym).fits lens.length = true := by
  obtain ⟨k, hs, hk, h0, -⟩ := mem_spellings h
  have hlt : k < lens.length := (List.getElem?_eq_some_iff.mp hk).1
  have := hl r.len (List.mem_of_getElem? hk)
  simp only [Entry.fits, Bool.and_eq_true, decide_eq_true_eq]
  omega

theorem primaryTable_fits {n : Nat} {short long : List Spelling} (hs : ∀ r ∈ short, (Entry.leaf r.len r.sym).fits n = true)
    (m p next : Nat) : ∀ e ∈ primaryTable short long m p next, e.fits n = true := by
  induction m generalizing p next with
  | zero => simp [primaryTable]
  | succ m ih =>
    intro e he
    rcases List.mem_cons.mp he with rfl | he
    · split
      · unfold shortEntry
        split
        · next hf => exact hs _ (List.mem_of_find?_eq_some hf)
        · rfl
      · rfl
    · exact ih _ _ e he

theorem secondaryTables_fits {n : Nat} {long : List Spelling} (hl : ∀ r ∈ long, (Entry.leaf r.len r.sym).fits n = true)
    (m p : Nat) : ∀ e ∈ secondaryTables long m p, e.fits n = true := by
  induction m generalizing p with
  | zero => simp [secondaryTables]
  | succ m ih =>
    intro e he
    rw [secondaryTables] at he
    rcases List.mem_append.mp he with he | he
    · split at he
      · simp at he
      · obtain ⟨j, -, rfl⟩ := List.mem_map.mp he
        unfold longEntry
        split
        · next hf => exact hl _ (List.mem_of_find?_eq_some hf)
        · rfl
    · exact ih _ e he

/-- A tree of lengths at most 15 fits its alphabet. -/
theorem makeTree_fits {lens : List Nat} (hl : ∀ l ∈ lens, l ≤ 15) : (makeTree lens).fits lens.length = true := by
  refine List.all_eq_true.mpr fun e he => ?_
  rcases List.mem_append.mp he with he | he
  · exact primaryTable_fits (fun r hr => spelling_fits hl (List.mem_of_mem_filter hr)) _ _ _ e he
  · exact secondaryTables_fits (fun r hr => spelling_fits hl (List.mem_of_mem_filter hr)) _ _ e he

/-- Everything Build says when it answers a tree. -/
theorem build_eq_some {lens : List Nat} {t : Tree} (h : build lens = some t) : accepted lens = true ∧ t = makeTree lens := by
  unfold build at h
  split at h
  · next ha => exact ⟨ha, by simpa using h.symm⟩
  · simp at h

theorem build_fits {lens : List Nat} {t : Tree} (hl : ∀ l ∈ lens, l ≤ 15) (h : build lens = some t) :
    t.fits lens.length = true := by
  rw [(build_eq_some h).2]
  exact makeTree_fits hl

theorem fixedLl_fits : fixedLl.fits 288 = true := by
  have h : fixedLlLens.length = 288 := by
    rw [fixedLlLens]
    simp only [List.length_append, List.length_replicate]
  rw [← h]
  refine makeTree_fits fun l hl => ?_
  simp only [fixedLlLens, List.mem_append, List.mem_replicate] at hl
  omega

theorem fixedD_fits : fixedD.fits 32 = true := by
  have h : fixedDLens.length = 32 := rfl
  rw [← h]
  exact makeTree_fits (by decide)

end Sys2Proof.Machine
end

