-- ==== Sys2Proof/Laws/Invariant.lean ====
section
/-! SUPPORT. What the shared operations do to the invariant. -/

namespace Sys2Proof.Machine

/-! ### Changes outside the CORE -/

theorem RowInv.of_eq {s t : State} (h : RowInv s) (hs : t.snap = s.snap) (hp : t.p = s.p) (hy : t.y = s.y)
    (hv : t.prev = s.prev) : RowInv t := by
  have hr : rowStride t = rowStride s := by simp only [rowStride, hs, hp]
  exact ⟨by rw [hp, hs]; exact h.pass, by rw [hp, hy, hs]; exact h.row, by rw [hp, hs]; exact h.wide,
    by rw [hv, hy, hr]; exact h.above⟩

/-- The bus, the schedule and the draw counter are no part of the invariant. -/
theorem Invariant.withBus {s : State} (h : Invariant s) (q : List HostAccess) (c : List Agent) (w : Word) (k : Nat) :
    Invariant { s with hostQueue := q, sched := c, hostData := w, draws := k } where
  memory := h.memory
  idle := h.idle
  stage := h.stage
  running := h.running
  resting := h.resting
  ended := h.ended
  finished := h.finished
  shown := h.shown
  inflating := h.inflating
  reconstructing he := ⟨(h.reconstructing he).1, (h.reconstructing he).2.1, (h.reconstructing he).2.2.of_eq rfl rfl rfl rfl⟩
  header := h.header
  trailer := h.trailer
  aligned := h.aligned
  counts := h.counts
  lengths := h.lengths
  trees := h.trees

theorem Invariant.takeTurn {s : State} (h : Invariant s) : Invariant (takeTurn s) := h.withBus s.hostQueue s.sched.tail s.hostData s.draws

/-- While a command runs the count of an accepted ABORT is free. -/
theorem Invariant.withAbort {s : State} (h : Invariant s) (hb : s.status.busy = true) (n : Option Nat) (k : Nat) :
    Invariant { s with abortIn := n, draws := k } where
  memory := h.memory
  idle := h.idle
  stage := h.stage
  running := h.running
  resting hf := by rw [hb] at hf; exact Bool.noConfusion hf
  ended := h.ended
  finished := h.finished
  shown := h.shown
  inflating := h.inflating
  reconstructing he := ⟨(h.reconstructing he).1, (h.reconstructing he).2.1, (h.reconstructing he).2.2.of_eq rfl rfl rfl rfl⟩
  header := h.header
  trailer := h.trailer
  aligned := h.aligned
  counts := h.counts
  lengths := h.lengths
  trees := h.trees

/-! ### Facts of a running command -/

theorem Invariant.busy_of_engine {s : State} (h : Invariant s) {e : Engine} (he : s.engine = e) (hn : e ≠ .idle) :
    s.status.busy = true := by
  cases hb : s.status.busy with
  | true => rfl
  | false => exact absurd (he ▸ h.idle.mp hb) hn

theorem Invariant.not_idle {s : State} (h : Invariant s) (hb : s.status.busy = true) : s.engine ≠ .idle := by
  intro he
  rw [h.idle.mpr he] at hb
  exact Bool.noConfusion hb

/-- Inside a running command the count never passes its greatest value. -/
theorem Invariant.out_le {s : State} (h : Invariant s) (hb : s.status.busy = true) : s.outCount.toNat ≤ outMax s := by
  have hn := h.not_idle hb
  cases he : s.engine with
  | idle => exact absurd he hn
  | reconstruct => exact (h.reconstructing he).2.1.le
  | _ =>
    all_goals
      obtain ⟨hc, -, ho⟩ := h.inflating (by rw [he]; rfl)
      unfold outLimit outRegion at ho
      unfold outMax
      cases hcmd : s.cmd <;> simp_all

/-- The regions of a running command passed their checks (40_commands.md R410, R411). -/
theorem wraps_eq_false {r : Region} (h : r.wraps = false) : r.inside := by
  simp only [Region.wraps, gt_iff_lt, decide_eq_false_iff_not, Nat.not_lt] at h
  exact h

theorem startFailure_none {c : Command} {p : Params} (h : startFailure c p = none) :
    ∀ x ∈ startChecks c p, x = none := by
  unfold startFailure at h
  rw [List.findSome?_eq_none_iff] at h
  exact h

theorem failIf_eq_none {c : Bool} {f : Failure} (h : failIf c f = none) : c = false := by
  unfold failIf at h
  split at h
  · simp at h
  · next hc => simpa using hc

/-- What passing every start check says of the regions. -/
theorem regions_of_checks {c : Command} {p : Params} (h : startFailure c p = none) :
    p.src.inside ∧ p.dst.inside ∧ p.src.overlaps p.dst = false
      ∧ (c = .decode → p.work.inside ∧ p.src.overlaps p.work = false ∧ p.work.overlaps p.dst = false) := by
  have hc := startFailure_none h
  cases c <;>
    simp only [startChecks, imageChecks, List.mem_cons, List.not_mem_nil, or_false, forall_eq_or_imp,
      forall_eq, checkWrap, checkOverlap, checkSize, List.cons_append, List.nil_append] at hc
  · obtain ⟨h1, h2, h3⟩ := hc
    exact ⟨wraps_eq_false (failIf_eq_none h1), wraps_eq_false (failIf_eq_none h2), failIf_eq_none h3, by simp⟩
  · obtain ⟨-, -, -, -, -, -, h1, h2, -, -, h3⟩ := hc
    exact ⟨wraps_eq_false (failIf_eq_none h1), wraps_eq_false (failIf_eq_none h2), failIf_eq_none h3, by simp⟩
  · obtain ⟨-, -, -, -, -, -, h1, h2, h3, -, -, h4, h5, h6⟩ := hc
    exact ⟨wraps_eq_false (failIf_eq_none h1), wraps_eq_false (failIf_eq_none h2), failIf_eq_none h4,
      fun _ => ⟨wraps_eq_false (failIf_eq_none h3), failIf_eq_none h5, failIf_eq_none h6⟩⟩

/-- What passing every start check says of the image. -/
theorem image_of_checks {c : Command} {p : Params} (h : startFailure c p = none) (hi : c ≠ .inflate) :
    p.imgW ≠ 0 ∧ p.imgH ≠ 0 ∧ (p.interlace = 0 ∨ p.interlace = 1) ∧ (p.interlace = 1 → 8 ≤ p.bpp)
      ∧ p.colorMode.toNat ∈ [0, 2, 3, 4, 6] ∧ p.bitDepth.toNat ∈ legalDepths p.colorMode.toNat
      ∧ p.dst.len.toNat = p.rawSize
      ∧ (match c with | .decode => p.work | .inflate | .unfilter => p.src).len.toNat = p.filtSize := by
  have hc := startFailure_none h
  cases c with
  | inflate => exact absurd rfl hi
  | unfilter =>
    simp only [startChecks, imageChecks, List.mem_cons, List.not_mem_nil, or_false, forall_eq_or_imp, forall_eq,
      checkWrap, checkOverlap, checkSize, List.cons_append, List.nil_append] at hc
    obtain ⟨h1, h2, h3, h4, h5, -, -, -, h6, h7, -⟩ := hc
    have h1 := failIf_eq_none h1; have h2 := failIf_eq_none h2; have h3 := failIf_eq_none h3
    have h4 := failIf_eq_none h4; have h5 := failIf_eq_none h5; have h6 := failIf_eq_none h6
    have h7 := failIf_eq_none h7
    refine ⟨?_, ?_, ?_, ?_, ?_, ?_, ?_, ?_⟩ <;> simp_all
    · tauto
    · tauto
  | decode =>
    simp only [startChecks, imageChecks, List.mem_cons, List.not_mem_nil, or_false, forall_eq_or_imp, forall_eq,
      checkWrap, checkOverlap, checkSize, List.cons_append, List.nil_append] at hc
    obtain ⟨h1, h2, h3, h4, h5, -, -, -, -, h6, h7, -⟩ := hc
    have h1 := failIf_eq_none h1; have h2 := failIf_eq_none h2; have h3 := failIf_eq_none h3
    have h4 := failIf_eq_none h4; have h5 := failIf_eq_none h5; have h6 := failIf_eq_none h6
    have h7 := failIf_eq_none h7
    refine ⟨?_, ?_, ?_, ?_, ?_, ?_, ?_, ?_⟩ <;> simp_all
    · tauto
    · tauto

/-- A running command's regions lie inside memory. -/
theorem Invariant.regions_inside {s : State} (h : Invariant s) (hb : s.status.busy = true) :
    (∀ r ∈ usedRegions s.cmd s.snap, r.inside) ∧ ∀ r ∈ writtenRegions s.cmd s.snap, r.inside := by
  obtain ⟨h1, h2, -, h3⟩ := regions_of_checks (h.running hb).2.2.2.2
  cases hc : s.cmd <;> simp only [hc, reduceCtorEq, false_imp_iff, true_imp_iff] at h3 <;>
    simp [usedRegions, writtenRegions, h1, h2, h3]

/-! ### Ending a command -/

/-- An error ends in a state of the invariant, from any state whose memory, counts and trees are in order. -/
theorem inv_raiseError {s : State} (hm : s.mem.wf = true)
    (hk : (257 ≤ s.hlit ∧ s.hlit ≤ 288) ∧ (1 ≤ s.hdist ∧ s.hdist ≤ 32) ∧ (4 ≤ s.hclen ∧ s.hclen ≤ 19))
    (ht : s.ll.fits 288 = true ∧ s.d.fits 32 = true ∧ s.cl.fits 19 = true) (c : Cause) (i : Word) :
    Invariant (raiseError c i s) where
  memory := wf_raiseError hm
  idle := by simp
  stage := by simp [Engine.stage]
  running := by simp
  resting := by simp
  ended := by simp
  finished := by simp
  shown := by simp
  inflating := by simp [Engine.stage]
  reconstructing := by simp
  header := by simp
  trailer := by simp
  aligned := by simp
  counts := by simpa using hk
  lengths := by simp
  trees := by simpa using ht

theorem Invariant.raiseError {s : State} (h : Invariant s) (c : Cause) (i : Word) : Invariant (raiseError c i s) :=
  inv_raiseError h.memory h.counts h.trees c i

/-- A command whose whole output is there completes in a state of the invariant. -/
theorem inv_complete {s : State} (hm : s.mem.wf = true)
    (hk : (257 ≤ s.hlit ∧ s.hlit ≤ 288) ∧ (1 ≤ s.hdist ∧ s.hdist ≤ 32) ∧ (4 ≤ s.hclen ∧ s.hclen ≤ 19))
    (ht : s.ll.fits 288 = true ∧ s.d.fits 32 = true ∧ s.cl.fits 19 = true) (he : s.status.err = false)
    (hr : s.report = ⟨0, 0, 0⟩) (ho : s.outCount.toNat = outMax s) : Invariant (complete s) where
  memory := wf_complete hm
  idle := by simp
  stage := by simp [Engine.stage]
  running := by simp
  resting := by simp
  ended := by simp [he]
  finished _ := by simpa [outMax] using ⟨hr, ho⟩
  shown := by simp
  inflating := by simp [Engine.stage]
  reconstructing := by simp
  header := by simp
  trailer := by simp
  aligned := by simp
  counts := by simpa using hk
  lengths := by simp
  trees := by simpa using ht

theorem Invariant.complete {s : State} (h : Invariant s) (hb : s.status.busy = true) (ho : s.outCount.toNat = outMax s) :
    Invariant (complete s) :=
  inv_complete h.memory h.counts h.trees (h.running hb).2.1 (h.running hb).2.2.1 ho

end Sys2Proof.Machine
end

