-- ==== Sys2Proof/Laws/Advance.lean ====
section
/-! SUPPORT. What an operation of the engine does to a running command, said once: the invariant, the frame, the order
of the progress registers and the work left. -/

namespace Sys2Proof.Machine

/-! ### The work left -/

/-- The rows of the passes after pass p. -/
def rowsAfter (q : Params) (p : Nat) : Nat := (((List.range 7).filter (p < ·)).map q.rowCount).sum

/-- The rows the reconstruct stage still has to do. -/
def rowsLeft (s : State) : Nat := s.snap.rowCount s.p - s.y + rowsAfter s.snap s.p

/-- A bound on the engine steps a running command still makes. -/
def workLeft (s : State) : Nat :=
  match s.engine with
  | .idle => 0
  | .reconstruct => rowsLeft s
  | .dynHeader | .streamEnd => 2 * (totalBits s - s.bp.toNat) + imageRows s.snap + 2
  | .zhdr | .blockHeader | .stored | .symbols | .ztrailer => 2 * (totalBits s - s.bp.toNat) + imageRows s.snap + 1

theorem rowsAfter_le {q : Params} {p r : Nat} (hr : r < 7) (h : p < r) : q.rowCount r + rowsAfter q r ≤ rowsAfter q p := by
  unfold rowsAfter
  interval_cases r <;> interval_cases p <;> simp [List.range_succ] <;> omega

theorem rowsAfter_le_imageRows {q : Params} {r : Nat} (hr : r < 7) (h : q.interlace = 1) :
    q.rowCount r + rowsAfter q r ≤ imageRows q := by
  unfold rowsAfter imageRows
  rw [if_pos h]
  interval_cases r <;> simp [List.range_succ] <;> omega

/-! ### Advancing -/

/-- How an operation takes a running command from s to t, k being a bound on the change of the work left. -/
structure Advance (k : Int) (s t : State) : Prop where
  inv : Invariant t
  frame : ∀ a, Outside (writtenRegions s.cmd s.snap) a → t.mem.read a = s.mem.read a
  out : s.outCount.toNat ≤ t.outCount.toNat
  cursor : t.status.stage = .inflate → s.bp.toNat ≤ t.bp.toNat
  ended : t.status.busy = false → t.status.done = !t.status.err
  same : t.status.busy = true →
    t.cmd = s.cmd ∧ t.snap = s.snap ∧ t.abortIn = s.abortIn ∧ t.raceIn = s.raceIn
  work : t.status.busy = true → (workLeft t : Int) ≤ workLeft s + k
  bound : t.outCount.toNat ≤ outMax s
  bus : t.sched = s.sched ∧ t.hostQueue = s.hostQueue ∧ t.regs = s.regs

theorem Invariant.stage_inflate {s : State} (h : Invariant s) (hi : s.engine.stage = .inflate) :
    s.status.busy = true ∧ s.status.stage = .inflate := by
  refine ⟨h.busy_of_engine rfl ?_, h.stage.trans hi⟩
  intro he
  rw [he] at hi
  exact Stage.noConfusion hi

theorem Advance.trans {j k : Int} {s u t : State} (h : Advance j s u) (hu : u.engine.stage = .inflate)
    (h' : Advance k u t) : Advance (j + k) s t := by
  obtain ⟨hb, hs⟩ := h.inv.stage_inflate hu
  obtain ⟨h1, h2, h3, h4⟩ := h.same hb
  refine ⟨h'.inv, fun a ha => ?_, h.out.trans h'.out, fun ht => (h.cursor hs).trans (h'.cursor ht), h'.ended, ?_, ?_, ?_,
    h'.bus.1.trans h.bus.1, h'.bus.2.1.trans h.bus.2.1, h'.bus.2.2.trans h.bus.2.2⟩
  · rw [h'.frame a (by rw [h1, h2]; exact ha), h.frame a ha]
  · intro ht
    obtain ⟨g1, g2, g3, g4⟩ := h'.same ht
    exact ⟨g1.trans h1, g2.trans h2, g3.trans h3, g4.trans h4⟩
  · intro ht
    have := h.work hb
    have := h'.work ht
    omega
  · have := h'.bound
    unfold outMax at this ⊢
    rwa [h1, h2] at this

theorem Advance.mono {j k : Int} {s t : State} (h : Advance j s t) (hk : j ≤ k) : Advance k s t :=
  { h with work := fun ht => (h.work ht).trans (by omega) }

/-- An error. -/
theorem Advance.error {s : State} (h : Invariant s) (hb : s.status.busy = true) (c : Cause) (i : Word) (k : Int) :
    Advance k s (raiseError c i s) where
  inv := h.raiseError c i
  frame a ha := read_raiseError h.memory (h.regions_inside hb).2 ha
  out := by simp
  cursor ht := by simp at ht
  ended _ := by simp
  same ht := by simp at ht
  work ht := by simp at ht
  bound := by simpa using h.out_le hb
  bus := by simp

/-- A draw of free values advances nothing of itself. -/
theorem Advance.ofDraws {n : Nat} {k : Int} {s t : State} (h : Advance k { s with draws := n } t) : Advance k s t :=
  ⟨h.inv, h.frame, h.out, h.cursor, h.ended, h.same, h.work, h.bound, h.bus⟩

/-- A completion with the whole output there. -/
theorem Advance.done {s : State} (h : Invariant s) (hb : s.status.busy = true) (ho : s.outCount.toNat = outMax s) (k : Int) :
    Advance k s (complete s) where
  inv := h.complete hb ho
  frame a ha := by
    have hw := (h.regions_inside hb).2
    refine read_complete h.memory (fun hc => hw _ ?_) (fun hc => ha _ ?_) <;> simp [writtenRegions, hc]
  out := by simp
  cursor ht := by simp at ht
  ended _ := by simp [(h.running hb).2.1]
  same ht := by simp at ht
  work ht := by simp at ht
  bound := by simpa using ho.le
  bus := by simp

/-- The output region's length is the most OUT_COUNT can come to. -/
theorem Invariant.outMax_eq {s : State} (h : Invariant s) (hs : s.engine.stage = .inflate) : outMax s = outLimit s := by
  unfold outLimit outRegion outMax
  cases hc : s.cmd with
  | unfilter => exact absurd hc (h.inflating hs).1
  | _ => rfl

/-- A change within the inflate stage: what it has to keep. -/
theorem Advance.within {s t : State} {k : Int} (h : Invariant s) (hs : s.engine.stage = .inflate)
    (ht : t.engine.stage = .inflate)
    (hshape : t = { s with
      mem := t.mem, outCount := t.outCount, bp := t.bp, engine := t.engine, bfinal := t.bfinal, btype := t.btype,
      ll := t.ll, d := t.d, cl := t.cl, hlit := t.hlit, hdist := t.hdist, hclen := t.hclen, lens := t.lens,
      codesNext := t.codesNext, matchLen := t.matchLen })
    (hm : t.mem.wf = true) (hf : ∀ a, Outside (writtenRegions s.cmd s.snap) a → t.mem.read a = s.mem.read a)
    (ho : s.outCount.toNat ≤ t.outCount.toNat) (hl : t.outCount.toNat ≤ outLimit s)
    (hb : s.bp.toNat ≤ t.bp.toNat) (hb' : t.bp.toNat ≤ totalBits s)
    (hz : t.engine ≠ .zhdr) (hz' : t.engine = .ztrailer → s.snap.zlib = true ∧ t.outCount.toNat = outLimit s)
    (ha : t.engine = .stored → t.bp.toNat % 8 = 0)
    (hk : (257 ≤ t.hlit ∧ t.hlit ≤ 288) ∧ (1 ≤ t.hdist ∧ t.hdist ≤ 32) ∧ (4 ≤ t.hclen ∧ t.hclen ≤ 19))
    (hn : t.engine = .dynHeader → t.codesNext = true → t.lens.length ≤ lensWanted t ∧ ∀ l ∈ t.lens, l ≤ 15)
    (hT : t.ll.fits 288 = true ∧ t.d.fits 32 = true ∧ t.cl.fits 19 = true)
    (hw : (workLeft t : Int) ≤ workLeft s + k) : Advance k s t := by
  obtain ⟨hbusy, hst⟩ := h.stage_inflate hs
  have hcmd : t.cmd = s.cmd := by rw [hshape]
  have hsnap : t.snap = s.snap := by rw [hshape]
  have hregs : t.regs = s.regs := by rw [hshape]
  have hstat : t.status = s.status := by rw [hshape]
  have hrep : t.report = s.report := by rw [hshape]
  have hab : t.abortIn = s.abortIn := by rw [hshape]
  have hra : t.raceIn = s.raceIn := by rw [hshape]
  have hso : t.shownOut = s.shownOut := by rw [hshape]
  have hsg : t.shownStage = s.shownStage := by rw [hshape]
  have hlim : outLimit t = outLimit s := by unfold outLimit outRegion; rw [hcmd, hsnap]
  have htot : totalBits t = totalBits s := by unfold totalBits; rw [hsnap]
  have hmax : outMax t = outMax s := by unfold outMax; rw [hcmd, hsnap]
  have hin := h.inflating hs
  have notRec : t.engine ≠ .reconstruct := by intro he; rw [he] at ht; exact Stage.noConfusion ht
  have notIdle : t.engine ≠ .idle := by intro he; rw [he] at ht; exact Stage.noConfusion ht
  refine ⟨?_, hf, ho, fun _ => hb, fun hx => ?_, fun _ => ⟨hcmd, hsnap, hab, hra⟩, fun _ => hw,
    hl.trans (h.outMax_eq hs).ge, by rw [hshape], by rw [hshape], by rw [hshape]⟩
  · exact {
      memory := hm
      idle := ⟨fun hx => by rw [hstat, hbusy] at hx; exact Bool.noConfusion hx, fun hx => absurd hx notIdle⟩
      stage := by rw [hstat, hst, ht]
      running := fun _ => by rw [hstat, hrep, hsnap, hregs, hcmd]; exact h.running hbusy
      resting := fun hx => by rw [hstat, hbusy] at hx; exact Bool.noConfusion hx
      ended := by rw [hstat]; exact h.ended
      finished := fun hx => by rw [hstat, (h.running hbusy).1] at hx; exact Bool.noConfusion hx
      shown := fun _ => by
        obtain ⟨h1, h2, h3⟩ := h.shown hbusy
        refine ⟨?_, ?_, ?_⟩
        · rw [hso]
          unfold outReached at h1 ⊢
          rw [hra, hmax]
          split
          · next hr => rwa [if_pos hr] at h1
          · next hr => rw [if_neg hr] at h1; exact h1.trans ho
        · rw [hsg]; unfold stageReached at h2 ⊢; rw [hra, hstat]; exact h2
        · rw [hsg, hcmd]; exact h3
      inflating := fun _ => by rw [hcmd, htot, hlim]; exact ⟨hin.1, hb', hl⟩
      reconstructing := fun hx => absurd hx notRec
      header := fun hx => absurd hx hz
      trailer := fun hx => by rw [hsnap, hlim]; exact hz' hx
      aligned := ha
      counts := hk
      lengths := hn
      trees := hT }
  · rw [hstat, hbusy] at hx; exact Bool.noConfusion hx

/-- Consuming stream bits. -/
theorem Advance.skip {s : State} {n : Nat} (h : Invariant s) (hs : s.engine.stage = .inflate) (hz : s.engine ≠ .zhdr)
    (ha : s.engine = .stored → n % 8 = 0) (hn : s.bp.toNat + n ≤ totalBits s) :
    Advance (-(2 * n : Int)) s (skip n s) := by
  have hbp := skip_bp_toNat hn
  refine Advance.within h hs hs rfl h.memory (fun _ _ => rfl) (le_refl _) (h.inflating hs).2.2 (by omega) (by omega)
    hz h.trailer (fun he => ?_) h.counts h.lengths h.trees ?_
  · have := h.aligned he; have := ha he; omega
  · unfold workLeft
    rw [show (Machine.skip n s).engine = s.engine from rfl, show totalBits (Machine.skip n s) = totalBits s from rfl, hbp,
      show (Machine.skip n s).snap = s.snap from rfl]
    cases he : s.engine <;> simp only [he, Engine.stage, reduceCtorEq] at hs <;> simp only [] <;> omega

end Sys2Proof.Machine
end

