-- ==== Sys2Proof/Laws/Codes.lean ====
section
/-! SUPPORT. Canonical codes are prefix-free, and the decode table of an accepted set holds each code's
symbol and the sentinel everywhere else; a complete set's codes cover every pattern. -/

namespace Sys2Proof.Machine

/-! ### Reversal -/

theorem rev_lt (v n : Nat) : rev v n < 2 ^ n := by
  induction n generalizing v with
  | zero => simp [rev]
  | succ n ih =>
    have := ih (v / 2)
    have h2 : v % 2 ≤ 1 := by omega
    have := Nat.mul_le_mul_right (2 ^ n) h2
    rw [rev, pow_succ]
    omega

/-- Bit j of a reversal is bit n - 1 - j (42_huffman.md R603). -/
theorem testBit_rev (v : Nat) {n j : Nat} (h : j < n) : (rev v n).testBit j = v.testBit (n - 1 - j) := by
  induction n generalizing v j with
  | zero => omega
  | succ n ih =>
    rw [rev, Nat.mul_comm, Nat.testBit_two_pow_mul_add _ (rev_lt (v / 2) n)]
    split
    · next hj => rw [ih _ hj, Nat.testBit_div_two, show n - 1 - j + 1 = n + 1 - 1 - j by omega]
    · obtain rfl : j = n := by omega
      simp [Nat.testBit_zero]

/-- The low bits of a reversal reverse the high bits. -/
theorem rev_mod (v : Nat) {m n : Nat} (h : m ≤ n) : rev v n % 2 ^ m = rev (v / 2 ^ (n - m)) m := by
  obtain ⟨d, rfl⟩ := Nat.exists_eq_add_of_le h
  rw [Nat.add_sub_cancel_left]
  induction d generalizing v with
  | zero => rw [Nat.add_zero, pow_zero, Nat.div_one, Nat.mod_eq_of_lt (rev_lt v m)]
  | succ d ih =>
    have hd : 2 ^ (m + d) = 2 ^ m * 2 ^ d := pow_add 2 m d
    rw [← Nat.add_assoc, rev, hd, ← Nat.mul_assoc, Nat.mul_comm (v % 2), Nat.mul_assoc, Nat.mul_add_mod,
      ih _ (Nat.le_add_right m d), Nat.div_div_eq_div_mul, pow_succ']

theorem rev_injective {n a b : Nat} (ha : a < 2 ^ n) (hb : b < 2 ^ n) (h : rev a n = rev b n) : a = b := by
  induction n generalizing a b with
  | zero => simp at ha hb; omega
  | succ n ih =>
    rw [rev, rev] at h
    have h1 := rev_lt (a / 2) n
    have h2 := rev_lt (b / 2) n
    have hp := Nat.two_pow_pos n
    have ea : (a % 2 * 2 ^ n + rev (a / 2) n) / 2 ^ n = a % 2 := by
      rw [Nat.mul_comm, Nat.mul_add_div hp, Nat.div_eq_of_lt h1, Nat.add_zero]
    have eb : (b % 2 * 2 ^ n + rev (b / 2) n) / 2 ^ n = b % 2 := by
      rw [Nat.mul_comm, Nat.mul_add_div hp, Nat.div_eq_of_lt h2, Nat.add_zero]
    have hm : a % 2 = b % 2 := by rw [← ea, h, eb]
    rw [hm] at h
    have := ih (by rw [pow_succ] at ha; omega) (by rw [pow_succ] at hb; omega) (Nat.add_left_cancel h)
    omega

/-! ### Canonical codes -/

/-- The codes given from a table of next codes: each symbol takes the one its earlier symbols of the same length
leave. -/
theorem getElem?_assignCodes (ls next : List Nat) (k l : Nat) (hk : ls[k]? = some l) (hl : 0 < l)
    (hn : ∀ l ∈ ls, l < next.length) :
    (assignCodes next ls)[k]? = some ((next.getD l 0 + (ls.take k).count l) % 2 ^ l) := by
  induction ls generalizing next k with
  | nil => simp at hk
  | cons x xs ih =>
    cases k with
    | zero =>
      obtain rfl : x = l := by simpa using hk
      rw [assignCodes, if_neg (by omega)]
      simp
    | succ k =>
      have hx := hn x (by simp)
      rw [List.getElem?_cons_succ] at hk
      rw [assignCodes]
      split
      · next h0 =>
        rw [List.getElem?_cons_succ, ih next k hk fun l hl => hn l (by simp [hl]), List.take_succ_cons,
          List.count_cons_of_ne (by omega)]
      · rw [List.getElem?_cons_succ, ih _ k hk fun l hl => by simpa using hn l (by simp [hl]), List.take_succ_cons]
        by_cases hxl : x = l
        · subst hxl
          rw [List.count_cons_self, List.getD_eq_getElem?_getD, List.getElem?_set_self hx]
          simp only [Option.getD_some]
          congr 2; omega
        · rw [List.count_cons_of_ne hxl, List.getD_eq_getElem?_getD, List.getElem?_set_ne hxl,
            ← List.getD_eq_getElem?_getD]

/-- Codes of length up to l used, in units of the codes of length l. -/
theorem firstCode_mono (lens : List Nat) {a b : Nat} (ha : 0 < a) (h : a < b) :
    (firstCode lens a + lens.count a) * 2 ^ (b - a) ≤ firstCode lens b := by
  obtain ⟨d, rfl⟩ := Nat.exists_eq_add_of_lt h
  induction d with
  | zero =>
    rw [Nat.add_zero, Nat.add_sub_cancel_left, firstCode, blCount, if_neg (by omega), pow_one]
  | succ d ih =>
    have := ih (by omega)
    rw [show a + (d + 1) + 1 - a = (a + d + 1 - a) + 1 from by omega, pow_succ, ← Nat.mul_assoc]
    show _ ≤ (firstCode lens (a + d + 1) + _) * 2
    exact Nat.mul_le_mul_right 2 (this.trans (Nat.le_add_right _ _))

/-- The Kraft sum counts each length. -/
theorem kraft_eq (lens : List Nat) (h : ∀ l ∈ lens, l ≤ 15) :
    kraft lens = ∑ j ∈ Finset.range 15, lens.count (j + 1) * 2 ^ (14 - j) := by
  induction lens with
  | nil => simp [kraft]
  | cons x xs ih =>
    have hx := h x (by simp)
    have e : kraft (x :: xs) = (if x = 0 then 0 else 2 ^ (15 - x)) + kraft xs := by simp [kraft]
    have one : (∑ j ∈ Finset.range 15, (if x = j + 1 then 1 else 0) * 2 ^ (14 - j)) = if x = 0 then 0 else 2 ^ (15 - x) := by
      interval_cases x <;> decide
    simp only [e, ih fun l hl => h l (by simp [hl]), List.count_cons, beq_iff_eq, Nat.add_mul, Finset.sum_add_distrib,
      one]
    exact Nat.add_comm _ _

theorem firstCode_eq (lens : List Nat) (l : Nat) :
    firstCode lens (l + 1) = ∑ j ∈ Finset.range l, lens.count (j + 1) * 2 ^ (l - j) := by
  induction l with
  | zero => simp [firstCode, blCount]
  | succ l ih =>
    have h1 : firstCode lens (l + 2) = (firstCode lens (l + 1) + lens.count (l + 1)) * 2 := by
      show (firstCode lens (l + 1) + blCount lens (l + 1)) * 2 = _
      rw [blCount, if_neg (by omega)]
    rw [h1, ih, Finset.sum_range_succ, Nat.add_mul, Finset.sum_mul]
    congr 1
    · refine Finset.sum_congr rfl fun j hj => ?_
      have : j < l := Finset.mem_range.mp hj
      rw [Nat.mul_assoc, ← pow_succ, show l - j + 1 = l + 1 - j from by omega]
    · simp

/-- In an accepted set the codes of a length fit it. -/
theorem firstCode_le {lens : List Nat} (h15 : ∀ l ∈ lens, l ≤ 15) (hk : kraft lens ≤ 2 ^ 15) {l : Nat} (h0 : 0 < l)
    (hl : l ≤ 15) : firstCode lens l + lens.count l ≤ 2 ^ l := by
  obtain ⟨l, rfl⟩ : ∃ m, l = m + 1 := ⟨l - 1, by omega⟩
  have e : (firstCode lens (l + 1) + lens.count (l + 1)) * 2 ^ (14 - l)
      = ∑ j ∈ Finset.range (l + 1), lens.count (j + 1) * 2 ^ (14 - j) := by
    rw [firstCode_eq, Finset.sum_range_succ, Nat.add_mul, Finset.sum_mul]
    congr 1
    refine Finset.sum_congr rfl fun j hj => ?_
    have : j < l := Finset.mem_range.mp hj
    rw [Nat.mul_assoc, ← pow_add, show l - j + (14 - l) = 14 - j from by omega]
  refine Nat.le_of_mul_le_mul_right (c := 2 ^ (14 - l)) ?_ (Nat.two_pow_pos _)
  rw [e, ← pow_add, show l + 1 + (14 - l) = 15 from by omega]
  refine le_trans ?_ (kraft_eq lens h15 ▸ hk)
  exact Finset.sum_le_sum_of_subset (Finset.range_subset_range.mpr (by omega))

/-- The Kraft sum of an accepted set. -/
theorem accepted_kraft {lens : List Nat} (h : accepted lens = true) : kraft lens ≤ 2 ^ 15 := by
  have le : ∀ ls : List Nat, kraft ls ≤ present ls * 2 ^ 15 := by
    intro ls
    induction ls with
    | nil => simp [kraft]
    | cons x xs ih =>
      have e : kraft (x :: xs) = (if x = 0 then 0 else 2 ^ (15 - x)) + kraft xs := by simp [kraft]
      have h1 : 2 ^ (15 - x) ≤ 2 ^ 15 := Nat.pow_le_pow_right (by omega) (by omega)
      have hp : present (x :: xs) = (if x = 0 then 0 else 1) + present xs := by
        unfold present
        by_cases hx : x = 0 <;> simp [hx, Nat.pos_iff_ne_zero, Nat.add_comm]
      rw [e, hp, Nat.add_mul]
      refine Nat.add_le_add ?_ ih
      split
      · simp
      · simpa using h1
  simp only [accepted, Bool.or_eq_true, decide_eq_true_eq, beq_iff_eq] at h
  rcases h with h | h
  · exact (le lens).trans (by have := Nat.mul_le_mul_right (2 ^ 15) h; rwa [Nat.one_mul] at this)
  · exact h.le

/-- The code of a used symbol of an accepted set: the mask changes nothing. -/
theorem getElem?_canonicalCodes {lens : List Nat} (h15 : ∀ l ∈ lens, l ≤ 15) (ha : accepted lens = true) {k l : Nat}
    (hk : lens[k]? = some l) (hl : 0 < l) :
    (canonicalCodes lens)[k]? = some (firstCode lens l + (lens.take k).count l)
      ∧ (lens.take k).count l < lens.count l ∧ firstCode lens l + lens.count l ≤ 2 ^ l := by
  have hm := List.mem_of_getElem? hk
  have hle := firstCode_le h15 (accepted_kraft ha) hl (h15 l hm)
  have hlt : (lens.take k).count l < lens.count l := by
    obtain ⟨hk', rfl⟩ := List.getElem?_eq_some_iff.mp hk
    have : lens = lens.take k ++ lens[k] :: lens.drop (k + 1) := by simp
    rw [congrArg (List.count lens[k]) this, List.count_append, List.count_cons_self]
    omega
  refine ⟨?_, hlt, hle⟩
  rw [canonicalCodes, getElem?_assignCodes _ _ _ _ hk hl (by simpa using fun l hl => Nat.lt_succ_of_le (h15 l hl))]
  have : l < 16 := Nat.lt_succ_of_le (h15 l hm)
  rw [List.getD_eq_getElem?_getD, List.getElem?_map, List.getElem?_range this]
  simp only [Option.map_some, Option.getD_some]
  rw [Nat.mod_eq_of_lt (by omega)]

/-- Two used symbols whose codes begin alike are the same (42_huffman.md R610). -/
theorem codes_prefix_free {lens : List Nat} (h15 : ∀ l ∈ lens, l ≤ 15) (ha : accepted lens = true) {i j a b c e : Nat}
    (hi : lens[i]? = some a) (hj : lens[j]? = some b) (h0 : 0 < a) (hab : a ≤ b)
    (hc : (canonicalCodes lens)[i]? = some c) (he : (canonicalCodes lens)[j]? = some e)
    (h : e / 2 ^ (b - a) = c) : i = j := by
  obtain ⟨h1, h2, h3⟩ := getElem?_canonicalCodes h15 ha hi h0
  obtain ⟨g1, g2, g3⟩ := getElem?_canonicalCodes h15 ha hj (h0.trans_le hab)
  obtain rfl : _ = c := Option.some.inj (h1.symm.trans hc)
  obtain rfl : _ = e := Option.some.inj (g1.symm.trans he)
  rcases hab.lt_or_eq with hlt | rfl
  · have := firstCode_mono lens h0 hlt
    have : firstCode lens a + lens.count a ≤ (firstCode lens b + (lens.take j).count b) / 2 ^ (b - a) := by
      rw [Nat.le_div_iff_mul_le (Nat.two_pow_pos _)]
      omega
    omega
  · rw [Nat.sub_self, pow_zero, Nat.div_one] at h
    have mono : ∀ {x y : Nat}, x < y → lens[x]? = some a → (lens.take x).count a < (lens.take y).count a := by
      intro x y hxy hx
      have : (lens.take y).take x = lens.take x := by rw [List.take_take, min_eq_left hxy.le]
      obtain ⟨hl, hv⟩ := List.getElem?_eq_some_iff.mp hx
      have hs := List.take_sublist_take_left (l := lens) (show x + 1 ≤ y from hxy)
      have := hs.count_le a
      rw [List.take_add_one, hx] at this
      simp at this
      omega
    rcases lt_trichotomy i j with hij | hij | hij
    · have := mono hij hi; omega
    · exact hij
    · have := mono hij hj; omega

/-- Every used symbol has a spelling. -/
theorem spellings_mem {s : Nat} {ls cs : List Nat} {k l c : Nat} (hk : ls[k]? = some l) (hl : 0 < l)
    (hc : cs[k]? = some c) : ⟨s + k, l, rev c l⟩ ∈ spellings s ls cs := by
  induction ls generalizing s cs k with
  | nil => simp at hk
  | cons x xs ih =>
    cases cs with
    | nil => simp at hc
    | cons y ys =>
      cases k with
      | zero =>
        simp only [List.getElem?_cons_zero, Option.some.injEq] at hk hc
        subst hk hc
        rw [spellings, if_neg (by omega)]
        exact List.mem_cons_self
      | succ k =>
        have := ih (s := s + 1) hk hc
        rw [Nat.add_right_comm, Nat.add_assoc] at this
        rw [spellings]
        split
        · exact this
        · exact List.mem_cons_of_mem _ this

/-- The spellings of a length set. -/
def allSpellings (lens : List Nat) : List Spelling := spellings 0 lens (canonicalCodes lens)

/-- No spelling of an accepted set begins another (42_huffman.md R610). -/
theorem spellings_prefix_free {lens : List Nat} (h15 : ∀ l ∈ lens, l ≤ 15) (ha : accepted lens = true)
    {r q : Spelling} (hr : r ∈ allSpellings lens) (hq : q ∈ allSpellings lens) (hle : r.len ≤ q.len)
    (h : q.bits % 2 ^ r.len = r.bits) : r = q := by
  obtain ⟨i, hi, hil, hi0, c, hc, hrb⟩ := mem_spellings hr
  obtain ⟨j, hj, hjl, hj0, e, he, hqb⟩ := mem_spellings hq
  obtain ⟨h1, h2, h3⟩ := getElem?_canonicalCodes h15 ha hil (Nat.pos_of_ne_zero hi0)
  obtain ⟨g1, g2, g3⟩ := getElem?_canonicalCodes h15 ha hjl (Nat.pos_of_ne_zero hj0)
  have hcv := Option.some.inj (h1.symm.trans hc)
  have hev := Option.some.inj (g1.symm.trans he)
  have hel : e / 2 ^ (q.len - r.len) < 2 ^ r.len := by
    rw [Nat.div_lt_iff_lt_mul (Nat.two_pow_pos _), ← pow_add, Nat.add_sub_cancel' hle]
    omega
  rw [hqb, rev_mod _ hle, hrb] at h
  have hij := codes_prefix_free h15 ha hil hjl (Nat.pos_of_ne_zero hi0) hle hc he
    (rev_injective hel (by omega) h)
  subst hij
  have hlen : r.len = q.len := Option.some.inj (hil.symm.trans hjl)
  have hce : c = e := Option.some.inj (hc.symm.trans he)
  cases r; cases q
  simp only at hi hj hrb hqb hlen
  simp only [Spelling.mk.injEq]
  exact ⟨by omega, hlen, by rw [hrb, hqb, hlen, hce]⟩

/-! ### The decode table -/

/-- maxlen is 0 or the length of a long code with that prefix, and no such code is longer (42_huffman.md R606). -/
theorem maxLen_spec (long : List Spelling) (p : Nat) :
    (∀ r ∈ long, r.bits % 512 = p → r.len ≤ maxLen long p)
      ∧ (maxLen long p = 0 ∨ ∃ r ∈ long, r.bits % 512 = p ∧ r.len = maxLen long p) := by
  suffices ∀ (ls : List Spelling) (m : Nat),
      let f := ls.foldl (fun m r => if r.bits % 512 = p then max m r.len else m) m
      m ≤ f ∧ (∀ r ∈ ls, r.bits % 512 = p → r.len ≤ f) ∧ (f = m ∨ ∃ r ∈ ls, r.bits % 512 = p ∧ r.len = f) by
    obtain ⟨-, h2, h3⟩ := this long 0
    exact ⟨h2, h3⟩
  intro ls
  induction ls with
  | nil => intro m; simp
  | cons x xs ih =>
    intro m
    by_cases hx : x.bits % 512 = p
    · obtain ⟨h1, h2, h3⟩ := ih (max m x.len)
      simp only [List.foldl_cons, hx, if_true]
      refine ⟨(le_max_left _ _).trans h1, fun r hr hp => ?_, ?_⟩
      · rcases List.mem_cons.mp hr with rfl | hr
        · exact (le_max_right _ _).trans h1
        · exact h2 r hr hp
      · rcases h3 with h3 | ⟨r, hr, hp, hl⟩
        · rcases le_total m x.len with hm | hm
          · exact .inr ⟨x, by simp, hx, by rw [h3, max_eq_right hm]⟩
          · exact .inl (by rw [h3, max_eq_left hm])
        · exact .inr ⟨r, by simp [hr], hp, hl⟩
    · obtain ⟨h1, h2, h3⟩ := ih m
      simp only [List.foldl_cons, hx, if_false]
      refine ⟨h1, fun r hr hp => ?_, ?_⟩
      · rcases List.mem_cons.mp hr with rfl | hr
        · exact absurd hp hx
        · exact h2 r hr hp
      · rcases h3 with h3 | ⟨r, hr, hp, hl⟩
        · exact .inl h3
        · exact .inr ⟨r, by simp [hr], hp, hl⟩

/-- The entries of the secondary table of a prefix. -/
def secondarySize (long : List Spelling) (p : Nat) : Nat :=
  if maxLen long p = 0 then 0 else 2 ^ (maxLen long p - 9)

/-- The entries of the secondary tables of the n prefixes from p on. -/
def secondaryTotal (long : List Spelling) : Nat → Nat → Nat
  | 0, _ => 0
  | n + 1, p => secondarySize long p + secondaryTotal long n (p + 1)

theorem length_primaryTable (short long : List Spelling) (n p next : Nat) :
    (primaryTable short long n p next).length = n := by
  induction n generalizing p next with
  | zero => rfl
  | succ n ih => rw [primaryTable, List.length_cons, ih]

/-- An entry of the primary part (42_huffman.md R605 to R607). -/
theorem getElem?_primaryTable (short long : List Spelling) {n i : Nat} (p next : Nat) (h : i < n) :
    (primaryTable short long n p next)[i]? = some (
      if maxLen long (p + i) = 0 then shortEntry short (p + i)
      else .link (maxLen long (p + i)) (next + secondaryTotal long i p)) := by
  induction n generalizing i p next with
  | zero => omega
  | succ n ih =>
    rw [primaryTable]
    cases i with
    | zero => simp [secondaryTotal]
    | succ i =>
      rw [List.getElem?_cons_succ, ih _ _ (by omega), secondaryTotal, secondarySize, Nat.add_right_comm p 1 i]
      by_cases h0 : maxLen long p = 0 <;> simp [h0, Nat.add_assoc]

/-- An entry of a secondary table (42_huffman.md R608). -/
theorem getElem?_secondaryTables (long : List Spelling) {n i j : Nat} (p : Nat) (h : i < n)
    (hm : maxLen long (p + i) ≠ 0) (hj : j < 2 ^ (maxLen long (p + i) - 9)) :
    (secondaryTables long n p)[secondaryTotal long i p + j]? = some (longEntry long (p + i) j) := by
  induction n generalizing i p with
  | zero => omega
  | succ n ih =>
    rw [secondaryTables]
    cases i with
    | zero =>
      rw [Nat.add_zero] at hm hj
      simp only [secondaryTotal, Nat.zero_add, Nat.add_zero]
      rw [if_neg hm, List.getElem?_append_left (by simpa using hj), List.getElem?_map, List.getElem?_range hj]
      rfl
    | succ i =>
      have hlen : (if maxLen long p = 0 then [] else (List.range (2 ^ (maxLen long p - 9))).map (longEntry long p)).length
          = secondarySize long p := by
        rw [secondarySize]
        split <;> simp
      have e : p + (i + 1) = p + 1 + i := by omega
      rw [e] at hm hj ⊢
      rw [secondaryTotal, Nat.add_assoc, List.getElem?_append_right (by rw [hlen]; omega), hlen, Nat.add_sub_cancel_left]
      exact ih (p + 1) (by omega) hm hj

/-- A primary entry of a tree. -/
theorem makeTree_primary (lens : List Nat) {i : Nat} (h : i < 512) :
    (makeTree lens).entry i =
      if maxLen ((allSpellings lens).filter (9 < ·.len)) i = 0 then shortEntry ((allSpellings lens).filter (·.len ≤ 9)) i
      else
        .link (maxLen ((allSpellings lens).filter (9 < ·.len)) i)
          (512 + secondaryTotal ((allSpellings lens).filter (9 < ·.len)) i 0) := by
  rw [Tree.entry, List.getD_eq_getElem?_getD]
  show ((primaryTable _ _ _ _ _ ++ _)[i]?).getD _ = _
  rw [List.getElem?_append_left (by rw [length_primaryTable]; exact h), getElem?_primaryTable _ _ _ _ h, Nat.zero_add]
  rfl

/-- A secondary entry of a tree. -/
theorem makeTree_secondary (lens : List Nat) {i j : Nat} (h : i < 512)
    (hm : maxLen ((allSpellings lens).filter (9 < ·.len)) i ≠ 0)
    (hj : j < 2 ^ (maxLen ((allSpellings lens).filter (9 < ·.len)) i - 9)) :
    (makeTree lens).entry (512 + secondaryTotal ((allSpellings lens).filter (9 < ·.len)) i 0 + j)
      = longEntry ((allSpellings lens).filter (9 < ·.len)) i j := by
  rw [Tree.entry, List.getD_eq_getElem?_getD]
  show ((primaryTable _ _ _ _ _ ++ _)[_]?).getD _ = _
  rw [List.getElem?_append_right (by rw [length_primaryTable]; omega), length_primaryTable, Nat.add_assoc,
    Nat.add_sub_cancel_left]
  have := getElem?_secondaryTables ((allSpellings lens).filter (9 < ·.len)) (n := 512) (i := i) (j := j) 0 h
  rw [Nat.zero_add] at this
  exact congrArg (Option.getD · _) (this hm hj)

/-- The short entry of an index that a short code begins (42_huffman.md R605). -/
theorem shortEntry_eq {lens : List Nat} (h15 : ∀ l ∈ lens, l ≤ 15) (ha : accepted lens = true) {r : Spelling}
    (hr : r ∈ allSpellings lens) (hl : r.len ≤ 9) {p : Nat} (hp : p % 2 ^ r.len = r.bits) :
    shortEntry ((allSpellings lens).filter (·.len ≤ 9)) p = .leaf r.len r.sym := by
  unfold shortEntry
  split
  · next q hf =>
    have hq := List.mem_of_mem_filter (List.mem_of_find?_eq_some hf)
    have hb : p % 2 ^ q.len = q.bits := by simpa using List.find?_some hf
    have : r = q := by
      rcases le_total r.len q.len with hle | hle
      · exact spellings_prefix_free h15 ha hr hq hle (by rw [← hb, Nat.mod_mod_of_dvd _ (Nat.pow_dvd_pow 2 hle), hp])
      · exact (spellings_prefix_free h15 ha hq hr hle (by rw [← hp, Nat.mod_mod_of_dvd _ (Nat.pow_dvd_pow 2 hle), hb])).symm
    rw [this]
  · next hf =>
    have := List.find?_eq_none.mp hf r (List.mem_filter.mpr ⟨hr, by simpa using hl⟩)
    simp [hp] at this

/-- The secondary entry of a place that the rest of a long code begins (42_huffman.md R608). -/
theorem longEntry_eq {lens : List Nat} (h15 : ∀ l ∈ lens, l ≤ 15) (ha : accepted lens = true) {r : Spelling}
    (hr : r ∈ allSpellings lens) (hl : 9 < r.len) {j : Nat} (hj : j % 2 ^ (r.len - 9) = r.bits / 512) :
    longEntry ((allSpellings lens).filter (9 < ·.len)) (r.bits % 512) j = .leaf r.len r.sym := by
  have whole : ∀ q : Spelling, 9 < q.len → r.bits % 512 = q.bits % 512 → j % 2 ^ (q.len - 9) = q.bits / 512 →
      (r.bits % 512 + 512 * j) % 2 ^ q.len = q.bits := by
    intro q hq h1 h2
    rw [show (2 : Nat) ^ q.len = 512 * 2 ^ (q.len - 9) from by
      rw [show (512 : Nat) = 2 ^ 9 from rfl, ← pow_add]; congr 1; omega]
    rw [Nat.mod_mul, Nat.add_mul_mod_self_left, Nat.mod_mod, Nat.add_mul_div_left _ _ (by omega),
      Nat.div_eq_of_lt (Nat.mod_lt _ (by omega)), Nat.zero_add, h2, h1]
    omega
  have hpr := whole r hl rfl hj
  unfold longEntry
  split
  · next q hf =>
    have hm := List.mem_filter.mp (List.mem_of_find?_eq_some hf)
    have hq9 : 9 < q.len := by simpa using hm.2
    have hb : q.bits % 512 = r.bits % 512 ∧ j % 2 ^ (q.len - 9) = q.bits / 512 := by simpa using List.find?_some hf
    have hpq := whole q hq9 hb.1.symm hb.2
    have : r = q := by
      rcases le_total r.len q.len with hle | hle
      · exact spellings_prefix_free h15 ha hr hm.1 hle
          (by rw [← hpq, Nat.mod_mod_of_dvd _ (Nat.pow_dvd_pow 2 hle), hpr])
      · exact (spellings_prefix_free h15 ha hm.1 hr hle
          (by rw [← hpr, Nat.mod_mod_of_dvd _ (Nat.pow_dvd_pow 2 hle), hpq])).symm
    rw [this]
  · next hf =>
    have := List.find?_eq_none.mp hf r (List.mem_filter.mpr ⟨hr, by simpa using hl⟩)
    simp [hj] at this

/-- No long code shares the prefix of an index that a short code begins. -/
theorem maxLen_of_short {lens : List Nat} (h15 : ∀ l ∈ lens, l ≤ 15) (ha : accepted lens = true) {r : Spelling}
    (hr : r ∈ allSpellings lens) (hl : r.len ≤ 9) {p : Nat} (hp : p % 2 ^ r.len = r.bits) :
    maxLen ((allSpellings lens).filter (9 < ·.len)) p = 0 := by
  rcases (maxLen_spec ((allSpellings lens).filter (9 < ·.len)) p).2 with h | ⟨q, hq, hqp, -⟩
  · exact h
  · obtain ⟨hm, hq9⟩ := List.mem_filter.mp hq
    have hq9 : 9 < q.len := by simpa using hq9
    have : r = q := spellings_prefix_free h15 ha hr hm (by omega) (by
      rw [← hp, ← hqp, show (512 : Nat) = 2 ^ 9 from rfl, Nat.mod_mod_of_dvd _ (Nat.pow_dvd_pow 2 hl)])
    subst this
    omega

/-! ### What the stream spells -/

/-- Reversing twice gives the value back. -/
theorem rev_rev {v n : Nat} (h : v < 2 ^ n) : rev (rev v n) n = v := by
  have append : ∀ (n a b : Nat), b < 2 ^ n → rev (a * 2 ^ n + b) (n + 1) = rev b n * 2 + a % 2 := by
    intro n
    induction n with
    | zero => intro a b hb; simp at hb; simp [rev, hb]
    | succ n ih =>
      intro a b hb
      have e : a * 2 ^ (n + 1) + b = 2 * (a * 2 ^ n) + b := by rw [pow_succ]; ring
      have h1 : (a * 2 ^ (n + 1) + b) % 2 = b % 2 := by omega
      have h2 : (a * 2 ^ (n + 1) + b) / 2 = a * 2 ^ n + b / 2 := by omega
      rw [rev, h1, h2, ih a (b / 2) (by rw [pow_succ] at hb; omega), rev, pow_succ]
      ring
  induction n generalizing v with
  | zero => simp at h; simp [rev, h]
  | succ n ih =>
    rw [show rev v (n + 1) = v % 2 * 2 ^ n + rev (v / 2) n from rfl, append n _ _ (rev_lt _ n), ih (by rw [pow_succ] at h; omega)]
    omega

/-- The symbols of one length are found by their rank. -/
theorem exists_rank (ls : List Nat) (l r : Nat) (h : r < ls.count l) :
    ∃ k, ls[k]? = some l ∧ (ls.take k).count l = r := by
  induction ls generalizing r with
  | nil => simp at h
  | cons x xs ih =>
    by_cases hx : x = l
    · subst hx
      rw [List.count_cons_self] at h
      cases r with
      | zero => exact ⟨0, by simp, by simp⟩
      | succ r =>
        obtain ⟨k, hk, hr⟩ := ih r (by omega)
        exact ⟨k + 1, by simpa using hk, by rw [List.take_succ_cons, List.count_cons_self, hr]⟩
    · rw [List.count_cons_of_ne hx] at h
      obtain ⟨k, hk, hr⟩ := ih r h
      exact ⟨k + 1, by simpa using hk, by rw [List.take_succ_cons, List.count_cons_of_ne hx, hr]⟩

/-- The codes of a complete set cover every 15-bit pattern. -/
theorem exists_code {lens : List Nat} (h15 : ∀ l ∈ lens, l ≤ 15) (hk : kraft lens = 2 ^ 15) {x : Nat} (hx : x < 2 ^ 15) :
    ∃ l, 0 < l ∧ l ≤ 15 ∧ firstCode lens l ≤ x / 2 ^ (15 - l) ∧ x / 2 ^ (15 - l) < firstCode lens l + lens.count l := by
  have top : firstCode lens 15 + lens.count 15 = 2 ^ 15 := by
    rw [← hk, kraft_eq lens h15, firstCode_eq, Finset.sum_range_succ _ 14]
    simp
  have covered : ∃ l, 0 < l ∧ x < (firstCode lens l + lens.count l) * 2 ^ (15 - l) :=
    ⟨15, by omega, by rw [top]; simpa using hx⟩
  classical
  obtain ⟨h0, hlt⟩ := Nat.find_spec covered
  have hmin := fun m => Nat.find_min covered (m := m)
  have hle : Nat.find covered ≤ 15 := Nat.find_min' covered ⟨by omega, by rw [top]; simpa using hx⟩
  generalize Nat.find covered = l at *
  refine ⟨l, h0, hle, ?_, (Nat.div_lt_iff_lt_mul (Nat.two_pow_pos _)).mpr hlt⟩
  rw [Nat.le_div_iff_mul_le (Nat.two_pow_pos _)]
  obtain ⟨m, rfl⟩ : ∃ m, l = m + 1 := ⟨l - 1, by omega⟩
  cases m with
  | zero => simp [firstCode, blCount]
  | succ m =>
    have := hmin (m + 1) (by omega)
    have e : firstCode lens (m + 1 + 1) = (firstCode lens (m + 1) + lens.count (m + 1)) * 2 := by
      rw [firstCode, blCount, if_neg (by omega)]
    rw [e, Nat.mul_assoc, ← pow_succ', show 15 - (m + 1 + 1) + 1 = 15 - (m + 1) from by omega]
    exact Nat.le_of_not_lt fun h => this ⟨by omega, h⟩

/-- A stream spells some symbol of a set of two or more that Build accepts (42_huffman.md R609). -/
theorem exists_spelled {lens : List Nat} (h15 : ∀ l ∈ lens, l ≤ 15) (ha : accepted lens = true)
    (h2 : 2 ≤ present lens) (s : State) :
    ∃ k l, lens[k]? = some l ∧ 0 < l ∧ peek s l = rev ((canonicalCodes lens).getD k 0) l := by
  have hk : kraft lens = 2 ^ 15 := by
    simp only [accepted, Bool.or_eq_true, decide_eq_true_eq, beq_iff_eq] at ha
    rcases ha with ha | ha
    · omega
    · exact ha
  obtain ⟨l, h0, hl, h1, h3⟩ := exists_code h15 hk (rev_lt (peek s 15) 15)
  obtain ⟨k, hkl, hr⟩ := exists_rank lens l (rev (peek s 15) 15 / 2 ^ (15 - l) - firstCode lens l) (by omega)
  refine ⟨k, l, hkl, h0, ?_⟩
  obtain ⟨hc, -, -⟩ := getElem?_canonicalCodes h15 ha hkl h0
  rw [List.getD_eq_getElem?_getD, hc, Option.getD_some, hr, Nat.add_sub_cancel' h1, ← rev_mod _ hl,
    rev_rev (peek_lt s 15)]
  exact (streamField_mod s _ _ _ hl).symm

/-- Where no symbol is spelled, an index leads to the sentinel: every entry in its way is of a spelled symbol. -/
theorem shortEntry_invalid {lens : List Nat} {p : Nat} (h : ∀ r ∈ allSpellings lens, r.len ≤ 9 → p % 2 ^ r.len ≠ r.bits) :
    shortEntry ((allSpellings lens).filter (·.len ≤ 9)) p = .invalid := by
  unfold shortEntry
  split
  · next q hf =>
    have hm := List.mem_filter.mp (List.mem_of_find?_eq_some hf)
    exact absurd (by simpa using List.find?_some hf) (h q hm.1 (by simpa using hm.2))
  · rfl

theorem longEntry_invalid {lens : List Nat} {p j : Nat}
    (h : ∀ r ∈ allSpellings lens, 9 < r.len → r.bits % 512 = p → j % 2 ^ (r.len - 9) ≠ r.bits / 512) :
    longEntry ((allSpellings lens).filter (9 < ·.len)) p j = .invalid := by
  unfold longEntry
  split
  · next q hf =>
    have hm := List.mem_filter.mp (List.mem_of_find?_eq_some hf)
    have hb : q.bits % 512 = p ∧ j % 2 ^ (q.len - 9) = q.bits / 512 := by simpa using List.find?_some hf
    exact absurd hb.2 (h q hm.1 (by simpa using hm.2) hb.1)
  · rfl

end Sys2Proof.Machine
end

