-- ==== Sys2Proof/Laws/Elements.lean ====
section
/-! SUPPORT. The elements of the inflate stage: each takes a running command from a state of the invariant to one. -/

namespace Sys2Proof.Machine

/-! ### The output -/

theorem Invariant.outLimit_lt {s : State} (_h : Invariant s) : outLimit s < 2 ^ 32 := (outRegion s).len.isLt

/-- The output region is one of the written ones. -/
theorem outRegion_mem {s : State} : outRegion s ∈ writtenRegions s.cmd s.snap := by
  unfold outRegion writtenRegions
  cases s.cmd <;> simp

theorem emit_outCount_toNat {v : Byte} {s : State} (h : s.outCount.toNat < outLimit s) :
    (emit v s).outCount.toNat = s.outCount.toNat + 1 := by
  have := (outRegion s).len.isLt
  unfold outLimit at h
  rw [emit_outCount, BitVec.toNat_add, Nat.mod_eq_of_lt (by simp; omega)]
  simp

/-- A read after an Emit. -/
theorem read_emit {v : Byte} {s : State} {a : Nat} (h : s.mem.wf = true) :
    (emit v s).mem.read a = if a = (outRegion s).addr s.outCount.toNat then v else s.mem.read a :=
  Memory.read_write_from h

theorem wf_emit {v : Byte} {s : State} (h : s.mem.wf = true) : (emit v s).mem.wf = true :=
  Memory.wf_write h (Region.addr_lt _ _)

@[simp] theorem outRegion_emit (v : Byte) (s : State) : outRegion (emit v s) = outRegion s := rfl
@[simp] theorem outLimit_emit (v : Byte) (s : State) : outLimit (emit v s) = outLimit s := rfl

/-- An Emit inside the limit writes inside the output region only. -/
theorem read_emit_of_outside {v : Byte} {s : State} {a : Nat} (h : s.mem.wf = true) (hr : (outRegion s).inside)
    (ho : s.outCount.toNat < outLimit s) (ha : (outRegion s).has a = false) :
    (emit v s).mem.read a = s.mem.read a := by
  rw [read_emit h, if_neg]
  intro he
  rw [he, Region.has_addr hr ho] at ha
  exact Bool.noConfusion ha

theorem copyStored_outCount_toNat {k n : Nat} {s : State} (h : s.outCount.toNat + n ≤ outLimit s) :
    (copyStored k n s).outCount.toNat = s.outCount.toNat + n := by
  induction n generalizing k s with
  | zero => rfl
  | succ n ih =>
    rw [copyStored, ih, emit_outCount_toNat (by omega)]
    · omega
    · rw [emit_outCount_toNat (by omega), outLimit_emit]; omega

theorem read_copyStored_of_outside {k n : Nat} {s : State} {a : Nat} (h : s.mem.wf = true) (hr : (outRegion s).inside)
    (ho : s.outCount.toNat + n ≤ outLimit s) (ha : (outRegion s).has a = false) :
    (copyStored k n s).mem.read a = s.mem.read a := by
  induction n generalizing k s with
  | zero => rfl
  | succ n ih =>
    rw [copyStored, ih (wf_emit h) hr (by rw [emit_outCount_toNat (by omega), outLimit_emit]; omega) ha,
      read_emit_of_outside h hr (by omega) ha]

theorem copyMatch_outCount_toNat {d n : Nat} {s : State} (h : s.outCount.toNat + n ≤ outLimit s) :
    (copyMatch d n s).outCount.toNat = s.outCount.toNat + n := by
  induction n generalizing s with
  | zero => rfl
  | succ n ih =>
    rw [copyMatch, ih, emit_outCount_toNat (by omega)]
    · omega
    · rw [emit_outCount_toNat (by omega), outLimit_emit]; omega

theorem read_copyMatch_of_outside {d n : Nat} {s : State} {a : Nat} (h : s.mem.wf = true) (hr : (outRegion s).inside)
    (ho : s.outCount.toNat + n ≤ outLimit s) (ha : (outRegion s).has a = false) :
    (copyMatch d n s).mem.read a = s.mem.read a := by
  induction n generalizing s with
  | zero => rfl
  | succ n ih =>
    rw [copyMatch, ih (wf_emit h) hr (by rw [emit_outCount_toNat (by omega), outLimit_emit]; omega) ha,
      read_emit_of_outside h hr (by omega) ha]

theorem Invariant.outRegion_inside {s : State} (h : Invariant s) (hb : s.status.busy = true) : (outRegion s).inside :=
  (h.regions_inside hb).2 _ outRegion_mem

/-! ### Stages -/

theorem Invariant.image {s : State} (h : Invariant s) (hb : s.status.busy = true) (hc : s.cmd ≠ .inflate) :
    s.snap.imgW ≠ 0 ∧ s.snap.imgH ≠ 0 ∧ (s.snap.interlace = 0 ∨ s.snap.interlace = 1)
      ∧ (s.snap.interlace = 1 → 8 ≤ s.snap.bpp) ∧ s.snap.colorMode.toNat ∈ [0, 2, 3, 4, 6]
      ∧ s.snap.bitDepth.toNat ∈ legalDepths s.snap.colorMode.toNat ∧ s.snap.dst.len.toNat = s.snap.rawSize
      ∧ (filtRegion s).len.toNat = s.snap.filtSize := by
  obtain ⟨h1, h2, h3, h4, h5, h6, h7, h8⟩ := image_of_checks (h.running hb).2.2.2.2 hc
  refine ⟨h1, h2, h3, h4, h5, h6, h7, ?_⟩
  rw [← h8]
  unfold filtRegion
  cases s.cmd <;> rfl

/-- The pass the search finds: not before the one asked for, not empty, and every pass between is empty. -/
theorem nextPass_eq_some {p : Params} {q r : Nat} (h : nextPass p q = some r) :
    q ≤ r ∧ r < 7 ∧ p.emptyPass r = false ∧ ∀ k, q ≤ k → k < r → p.emptyPass k = true := by
  unfold nextPass at h
  obtain ⟨hp, i, hi, rfl, hall⟩ := List.find?_eq_some_iff_getElem.mp h
  simp only [List.length_range] at hi
  simp only [List.getElem_range, Bool.and_eq_true, decide_eq_true_eq, Bool.not_eq_true'] at hp hall ⊢
  refine ⟨hp.1, hi, hp.2, fun k hk hk' => ?_⟩
  have := hall k hk'
  simp only [Bool.not_eq_eq_eq_not, Bool.and_eq_false_imp, decide_eq_true_eq] at this
  exact this hk

theorem nextPass_eq_none {p : Params} {q : Nat} (h : nextPass p q = none) :
    ∀ k, q ≤ k → k < 7 → p.emptyPass k = true := by
  intro k hk hk'
  unfold nextPass at h
  have := List.find?_eq_none.mp h k (List.mem_range.mpr hk')
  simpa [hk] using this

theorem not_emptyPass {p : Params} {q : Nat}
    (h : p.emptyPass q = false) : 0 < p.rowWidth q ∧ 0 < p.rowCount q := by
  simp only [Params.emptyPass, Bool.or_eq_false_iff, beq_eq_false_iff_ne, ne_eq] at h
  omega

/-- A state of the reconstruct stage is in the invariant when its parts are. -/
theorem inv_reconstruct {s : State} (hm : s.mem.wf = true) (hb : s.status.busy = true) (hd : s.status.done = false)
    (he : s.status.err = false) (hrep : s.report = ⟨0, 0, 0⟩) (hsnap : s.snap = s.regs)
    (hck : startFailure s.cmd s.snap = none) (hc : s.cmd ≠ .inflate) (ho : s.outCount.toNat = outMax s)
    (hs : s.shownOut.toNat ≤ outMax s) (hg : s.shownStage.code ≤ 2) (hp : s.shownStage ∈ stagePath s.cmd)
    (hk : (257 ≤ s.hlit ∧ s.hlit ≤ 288) ∧ (1 ≤ s.hdist ∧ s.hdist ≤ 32) ∧ (4 ≤ s.hclen ∧ s.hclen ≤ 19))
    (ht : s.ll.fits 288 = true ∧ s.d.fits 32 = true ∧ s.cl.fits 19 = true)
    (hen : s.engine = .reconstruct) (hst : s.status.stage = .reconstruct) (hrow : RowInv s) : Invariant s where
  memory := hm
  idle := by simp [hb, hen]
  stage := by simp [hst, hen, Engine.stage]
  running _ := ⟨hd, he, hrep, hsnap, hck⟩
  resting hx := by simp [hb] at hx
  ended := by simp [hd]
  finished hx := by simp [hd] at hx
  shown _ := by
    refine ⟨?_, ?_, hp⟩
    · unfold outReached; split <;> omega
    · unfold stageReached; rw [hst]; split <;> exact hg
  inflating hx := by simp [hen, Engine.stage] at hx
  reconstructing _ := ⟨hc, ho, hrow⟩
  header hx := by simp [hen] at hx
  trailer hx := by simp [hen] at hx
  aligned hx := by simp [hen] at hx
  counts := hk
  lengths hx := by simp [hen] at hx
  trees := ht

theorem Stage.code_le (g : Stage) : g.code ≤ 2 := by cases g <;> simp [Stage.code]

/-- The row at the start of a pass that is not empty, or of a non-interlaced image. -/
theorem rowInv_start {s : State} (hp : s.p ≤ 7 ∧ (s.p < 7 ↔ s.snap.interlace = 1)) (hw : 0 < s.snap.rowWidth s.p)
    (hr : 0 < s.snap.rowCount s.p) (hy : s.y = 0) (hv : s.prev = none) : RowInv s :=
  ⟨hp, by omega, hw, by simp [hy, hv]⟩

/-- Pass 0 of an image with pixels is not empty (46_interlace.md R1001). -/
theorem nextPass_zero {p : Params} (hw : p.imgW ≠ 0) (hh : p.imgH ≠ 0) : nextPass p 0 = some 0 := by
  have h1 : p.imgW.toNat ≠ 0 := fun h => hw (BitVec.eq_of_toNat_eq (by simpa using h))
  have h2 : p.imgH.toNat ≠ 0 := fun h => hh (BitVec.eq_of_toNat_eq (by simpa using h))
  have he : p.emptyPass 0 = false := by
    simp only [Params.emptyPass, Params.rowWidth, Params.rowCount, passWidth, passHeight, adam7, Bool.or_eq_false_iff,
      beq_eq_false_iff_ne]
    constructor <;> simp <;> omega
  unfold nextPass
  rw [List.range_succ_eq_map, List.find?_cons_of_pos (by simp [he])]

/-- Entering the reconstruct stage, said whole. -/
theorem startReconstruct_eq {s : State} (hw : s.snap.imgW ≠ 0) (hh : s.snap.imgH ≠ 0) :
    startReconstruct s =
      { s with
        status := { s.status with stage := .reconstruct }
        engine := .reconstruct
        p := if s.snap.interlace = 1 then 0 else 7
        y := 0
        prev := none } := by
  unfold startReconstruct
  split
  · next hi => simp [seekPass, nextPass_zero hw hh]
  · next hi => simp

/-- The first row of the reconstruct stage. -/
theorem rowInv_startReconstruct {s : State} (hw : s.snap.imgW ≠ 0) (hh : s.snap.imgH ≠ 0) :
    RowInv (startReconstruct s) := by
  have h1 : s.snap.imgW.toNat ≠ 0 := fun h => hw (BitVec.eq_of_toNat_eq (by simpa using h))
  have h2 : s.snap.imgH.toNat ≠ 0 := fun h => hh (BitVec.eq_of_toNat_eq (by simpa using h))
  rw [startReconstruct_eq hw hh]
  by_cases hi : s.snap.interlace = 1
  · obtain ⟨-, -, h0, -⟩ := nextPass_eq_some (nextPass_zero hw hh)
    obtain ⟨hw', hr'⟩ := not_emptyPass h0
    exact rowInv_start (by simp [hi]) (by simpa [hi] using hw') (by simpa [hi] using hr') rfl rfl
  · simp only [if_neg hi]
    exact rowInv_start (by simpa using hi) (by simp [Params.rowWidth]; omega) (by simp [Params.rowCount]; omega) rfl rfl

/-- The reconstruct stage starts with at most the image's rows to do. -/
theorem rowsLeft_startReconstruct {s : State} (hw : s.snap.imgW ≠ 0) (hh : s.snap.imgH ≠ 0) :
    rowsLeft (startReconstruct s) ≤ imageRows s.snap := by
  rw [startReconstruct_eq hw hh]
  unfold rowsLeft
  by_cases hi : s.snap.interlace = 1
  · simp only [if_pos hi, Nat.sub_zero]
    exact rowsAfter_le_imageRows (by omega) hi
  · simp only [if_neg hi, Nat.sub_zero]
    rw [imageRows, if_neg hi, show rowsAfter s.snap 7 = 0 by simp [rowsAfter, List.range_succ]]
    rfl

/-- The end of the inflate stage. -/
theorem Advance.endInflate {s : State} (h : Invariant s) (hs : s.engine.stage = .inflate)
    (ho : s.outCount.toNat = outLimit s) : Advance (-1) s (endInflate s) := by
  obtain ⟨hb, hst⟩ := h.stage_inflate hs
  have hmax : s.outCount.toNat = outMax s := ho.trans (h.outMax_eq hs).symm
  unfold Machine.endInflate
  cases hc : s.cmd with
  | inflate => exact Advance.done h hb hmax _
  | unfilter => exact absurd hc (h.inflating hs).1
  | decode =>
    obtain ⟨hw, hh, -⟩ := h.image hb (by simp [hc])
    have hrow := rowInv_startReconstruct (s := s) hw hh
    have hleft := rowsLeft_startReconstruct (s := s) hw hh
    obtain ⟨r1, r2, r3, r4, r5⟩ := h.running hb
    obtain ⟨s1, -, s3⟩ := h.shown hb
    simp only
    rw [startReconstruct_eq hw hh] at hrow hleft ⊢
    refine ⟨?_, fun _ _ => rfl, le_refl _, fun ht => by simp at ht, fun hx => ?_, fun _ => by simp, fun _ => ?_, hmax.le, rfl, rfl, rfl⟩
    · exact inv_reconstruct h.memory hb r1 r2 r3 r4 r5 (by simp [hc]) hmax
        (s1.trans (by unfold outReached; split <;> simp [hmax, outMax]))
        (Stage.code_le _) s3 h.counts h.trees rfl rfl hrow
    · simp [hb] at hx
    · have hge : imageRows s.snap + 1 ≤ workLeft s := by
        unfold workLeft
        cases he : s.engine <;> simp only [he, Engine.stage, reduceCtorEq] at hs <;> simp only [] <;> omega
      show (rowsLeft _ : Int) ≤ _
      omega

/-! ### The elements -/

/-- An instruction answers a next state, and takes the command there. -/
def Advances (k : Int) (s : State) (o : Host.Outcome State Fault Refusal) : Prop :=
  ∃ t, o = .next t ∧ Advance k s t

/-- Two engine states of the inflate stage differ by at most 1 in the work left. -/
theorem workLeft_inflate {s : State} (hs : s.engine.stage = .inflate) :
    2 * (totalBits s - s.bp.toNat) + imageRows s.snap + 1 ≤ workLeft s
      ∧ workLeft s ≤ 2 * (totalBits s - s.bp.toNat) + imageRows s.snap + 2 := by
  unfold workLeft
  cases he : s.engine <;> simp only [he, Engine.stage, reduceCtorEq] at hs <;> simp only [] <;> omega

/-- The stream's end (43_inflate.md R712). -/
theorem Advance.streamEnd {s : State} (h : Invariant s) (he : s.engine = .streamEnd) : Advance (-1) s (streamEnd s) := by
  have hs : s.engine.stage = .inflate := by rw [he]; rfl
  obtain ⟨hb, -⟩ := h.stage_inflate hs
  obtain ⟨-, hbp, hout⟩ := h.inflating hs
  unfold Machine.streamEnd
  split
  · exact Advance.error h hb _ _ _
  · next hlt =>
    have ho : s.outCount.toNat = outLimit s := by omega
    split
    · next hz =>
      refine Advance.within h hs rfl rfl h.memory (fun _ _ => rfl) (le_refl _) hout (le_refl _) hbp (by simp)
        (fun _ => ⟨hz, ho⟩) (by simp) h.counts (by simp) h.trees ?_
      simp only [workLeft, he, totalBits]
      omega
    · exact Advance.endInflate h hs ho

/-- ZHDR (43_inflate.md R701). -/
theorem advances_zhdr {s : State} (h : Invariant s) (he : s.engine = .zhdr) (cmf flg : Byte) :
    Advances (-1) s (execZhdr cmf flg s) := by
  have hs : s.engine.stage = .inflate := by rw [he]; rfl
  obtain ⟨hb, -⟩ := h.stage_inflate hs
  obtain ⟨-, -, hout⟩ := h.inflating hs
  have h0 : s.bp = 0 := (h.header he).2
  refine ⟨_, rfl, ?_⟩
  split_ifs with h1
  · exact Advance.error h hb _ _ _
  · exact Advance.error h hb _ _ _
  · exact Advance.error h hb _ _ _
  · exact Advance.error h hb _ _ _
  · exact Advance.error h hb _ _ _
  · have htot : 16 ≤ totalBits s := by unfold totalBits; omega
    refine Advance.within h hs rfl rfl h.memory (fun _ _ => rfl) (le_refl _) hout (by simp [h0]) htot (by simp)
      (by simp) (by simp) h.counts (by simp) h.trees ?_
    simp only [workLeft, he, h0]
    simp only [totalBits] at htot ⊢
    simp
    omega

/-- ZTRL (43_inflate.md R713). -/
theorem advances_ztrl {s : State} (h : Invariant s) (he : s.engine = .ztrailer) (v : Word) :
    Advances (-1) s (execZtrl v s) := by
  have hs : s.engine.stage = .inflate := by rw [he]; rfl
  obtain ⟨-, hbp, hout⟩ := h.inflating hs
  obtain ⟨ha, ha'⟩ := align_bp_toNat hbp
  have hal : Advance 0 s (align s) := by
    refine Advance.within h hs hs rfl h.memory (fun _ _ => rfl) (le_refl _) hout (by omega) ha' (by simp [he])
      h.trailer (by simp [he]) h.counts (by simp [he]) h.trees ?_
    unfold workLeft
    rw [show (align s).engine = s.engine from rfl, he]
    simp only [show totalBits (align s) = totalBits s from rfl, show (align s).snap = s.snap from rfl]
    omega
  have hsa : (align s).engine.stage = .inflate := hs
  obtain ⟨hba, -⟩ := hal.inv.stage_inflate hsa
  refine ⟨_, rfl, ?_⟩
  split_ifs with h1
  · exact (hal.trans hsa (Advance.error hal.inv hba _ _ (-1))).mono (by omega)
  · exact (hal.trans hsa (Advance.error hal.inv hba _ _ (-1))).mono (by omega)
  · have hle : (align s).bp.toNat + 32 ≤ totalBits (align s) := by
      have : (align s).bp.toNat % 8 = 0 := by omega
      unfold totalBits
      omega
    have hsk := Advance.skip hal.inv hsa (n := 32) (by simp [he]) (by simp [he]) hle
    have := (hal.trans hsa hsk).trans hsa (Advance.endInflate hsk.inv hsa (h.trailer he).2)
    exact this.mono (by omega)

/-- The three block types that go on, and the reserved one (43_inflate.md R720, R723 to R725). -/
theorem advances_blkStored {s : State} (h : Invariant s) (he : s.engine = .blockHeader) (b : Bool) :
    Advances 0 s (execBlkStored b s) := by
  have hs : s.engine.stage = .inflate := by rw [he]; rfl
  obtain ⟨-, hbp, hout⟩ := h.inflating hs
  obtain ⟨ha, ha'⟩ := align_bp_toNat hbp
  refine ⟨_, rfl, ?_⟩
  refine Advance.within h hs rfl rfl h.memory (fun _ _ => rfl) (le_refl _) hout
    (show s.bp.toNat ≤ (align s).bp.toNat by omega) ?_ (by simp)
    (by simp) ?_ h.counts (by simp) h.trees ?_
  · exact ha'
  · intro _; rw [show (align { beginBlock b 0 s with engine := Engine.stored }).bp = (align s).bp from rfl]; omega
  · have e : (align { beginBlock b 0 s with engine := Engine.stored }).bp = (align s).bp := rfl
    unfold workLeft
    simp only [he, e, show (align { beginBlock b 0 s with engine := Engine.stored }).engine = .stored from rfl]
    simp only [totalBits, align_snap, beginBlock_snap]
    omega

theorem advances_blkFixed {s : State} (h : Invariant s) (he : s.engine = .blockHeader) (b : Bool) :
    Advances 0 s (execBlkFixed b s) := by
  have hs : s.engine.stage = .inflate := by rw [he]; rfl
  obtain ⟨-, hbp, hout⟩ := h.inflating hs
  refine ⟨_, rfl, Advance.within h hs rfl rfl h.memory (fun _ _ => rfl) (le_refl _) hout (le_refl _) hbp (by simp)
    (by simp) (by simp) h.counts (by simp) ⟨fixedLl_fits, fixedD_fits, h.trees.2.2⟩ ?_⟩
  simp [workLeft, he, totalBits]

theorem advances_blkDynamic {s : State} (h : Invariant s) (he : s.engine = .blockHeader) (b : Bool) :
    Advances 1 s (execBlkDynamic b s) := by
  have hs : s.engine.stage = .inflate := by rw [he]; rfl
  obtain ⟨-, hbp, hout⟩ := h.inflating hs
  refine ⟨_, rfl, Advance.within h hs rfl rfl h.memory (fun _ _ => rfl) (le_refl _) hout (le_refl _) hbp (by simp)
    (by simp) (by simp) h.counts (by simp) h.trees ?_⟩
  simp only [workLeft, he, totalBits]
  simp
  omega

theorem advances_blkReserved {s : State} (h : Invariant s) (he : s.engine = .blockHeader) (b : Bool) :
    Advances 0 s (execBlkReserved b s) := by
  have hs : s.engine.stage = .inflate := by rw [he]; rfl
  obtain ⟨-, hbp, hout⟩ := h.inflating hs
  have hA : Advance 0 s (beginBlock b 3 s) := by
    refine Advance.within h hs hs rfl h.memory (fun _ _ => rfl) (le_refl _) hout (le_refl _) hbp (by simp [he])
      (by simp [he]) (by simp [he]) h.counts (by simp [he]) h.trees ?_
    simp [workLeft, he, totalBits]
  exact ⟨_, rfl, (hA.trans hs (Advance.error hA.inv (hA.inv.stage_inflate hs).1 _ _ 0)).mono (by omega)⟩

/-- A block's end (43_inflate.md R726). -/
theorem Advance.blockEnd {s : State} (h : Invariant s) (hs : s.engine.stage = .inflate) : Advance 1 s (blockEnd s) := by
  obtain ⟨-, hbp, hout⟩ := h.inflating hs
  have hw := workLeft_inflate hs
  unfold Machine.blockEnd
  refine Advance.within h hs (by simp only; split <;> rfl) rfl h.memory (fun _ _ => rfl) (le_refl _) hout (le_refl _) hbp
    (by simp only; split <;> simp) (by simp only; split <;> simp) (by simp only; split <;> simp) h.counts
    (by simp only; split <;> simp) h.trees ?_
  cases hbf : s.bfinal <;> simp only [workLeft, totalBits, Bool.false_eq_true, if_true, if_false] at hw ⊢ <;> omega

/-- STORED (43_inflate.md R721, R722). -/
theorem advances_stored {s : State} (h : Invariant s) (he : s.engine = .stored) (len nlen : BitVec 16) :
    Advances 1 s (execStored len nlen s) := by
  have hs : s.engine.stage = .inflate := by rw [he]; rfl
  obtain ⟨hb, -⟩ := h.stage_inflate hs
  obtain ⟨-, hbp, hout⟩ := h.inflating hs
  have hal := h.aligned he
  refine ⟨_, rfl, ?_⟩
  split_ifs with h1 h2 h3
  · exact Advance.error h hb _ _ _
  · exact Advance.error h hb _ _ _
  · exact Advance.error h hb _ _ _
  · have ho : s.outCount.toNat + len.toNat ≤ outLimit s := by omega
    have hA : Advance 0 s (copyStored (s.bp.toNat / 8) len.toNat s) := by
      have hoc := copyStored_outCount_toNat (k := s.bp.toNat / 8) ho
      refine Advance.within h hs (by simpa using hs) (by rw [copyStored_eq]) (wf_copyStored h.memory)
        (fun a ha => read_copyStored_of_outside h.memory (h.outRegion_inside hb) ho (ha _ outRegion_mem)) (by omega)
        (by omega) (by simp) (by simpa using hbp) (by simp [he]) (by simp [he]) (by simpa using fun _ => hal)
        (by simpa using h.counts) (by simp [he]) (by simpa using h.trees) ?_
      simp [workLeft, he, totalBits]
    have hsA : (copyStored (s.bp.toNat / 8) len.toNat s).engine.stage = .inflate := by simpa using hs
    have hle : (copyStored (s.bp.toNat / 8) len.toNat s).bp.toNat + 8 * len.toNat
        ≤ totalBits (copyStored (s.bp.toNat / 8) len.toNat s) := by
      simp only [copyStored_bp, totalBits, copyStored_snap]
      omega
    have hS := Advance.skip hA.inv hsA (n := 8 * len.toNat) (by simp [he]) (by intro _; omega) hle
    have hsS : (Machine.skip (8 * len.toNat) (copyStored (s.bp.toNat / 8) len.toNat s)).engine.stage = .inflate := by
      simpa using hs
    exact ((hA.trans hsA hS).trans hsS (Advance.blockEnd hS.inv hsS)).mono (by omega)

/-! ### The dynamic header -/

/-- The fields of the code-length code, read one after the other. -/
theorem readFields_ok {w n : Nat} {s t : State} {vs : List Nat} (h : readFields w n s = .ok (vs, t))
    (hle : s.bp.toNat ≤ totalBits s) :
    t = skip (w * n) s ∧ s.bp.toNat + w * n ≤ totalBits s ∧ ∀ v ∈ vs, v < 2 ^ w := by
  induction n generalizing s vs with
  | zero =>
    simp only [readFields, Except.ok.injEq, Prod.mk.injEq] at h
    obtain ⟨rfl, rfl⟩ := h
    refine ⟨?_, by simpa using hle, by simp⟩
    simp [skip]
  | succ n ih =>
    rw [readFields] at h
    split at h
    · simp at h
    · next v u hr =>
      obtain ⟨hw, rfl, rfl⟩ := readBits_eq_some hr
      have hbp := skip_bp_toNat hw
      split at h
      · simp at h
      · next us z hf =>
        simp only [Except.ok.injEq, Prod.mk.injEq] at h
        obtain ⟨rfl, rfl⟩ := h
        obtain ⟨rfl, h1, h2⟩ := ih hf (by rw [hbp]; exact hw)
        rw [hbp] at h1
        refine ⟨by rw [skip_skip, Nat.mul_succ, Nat.add_comm w], ?_, ?_⟩
        · rw [Nat.mul_succ]
          have : totalBits (skip w s) = totalBits s := rfl
          omega
        · intro v hv
          rcases List.mem_cons.mp hv with rfl | hv
          · exact peek_lt s w
          · exact h2 v hv

/-- A Read that overran left the fields before it consumed. -/
theorem readFields_error {w n : Nat} {s t : State} (h : readFields w n s = .error t)
    (hle : s.bp.toNat ≤ totalBits s) : ∃ j, j < n ∧ t = skip (w * j) s ∧ s.bp.toNat + w * j ≤ totalBits s
      ∧ totalBits s < s.bp.toNat + w * (j + 1) := by
  induction n generalizing s with
  | zero => simp [readFields] at h
  | succ n ih =>
    rw [readFields] at h
    split at h
    · next hr =>
      simp only [Except.error.injEq] at h
      subst h
      refine ⟨0, by omega, by simp [skip], by simpa using hle, ?_⟩
      unfold readBits at hr
      split at hr
      · simpa using by assumption
      · simp at hr
    · next v u hr =>
      obtain ⟨hw, rfl, rfl⟩ := readBits_eq_some hr
      have hbp := skip_bp_toNat hw
      split at h
      · next z hf =>
        simp only [Except.error.injEq] at h
        subst h
        obtain ⟨j, hj, rfl, h1, h2⟩ := ih hf (by rw [hbp]; exact hw)
        rw [hbp, show totalBits (skip w s) = totalBits s from rfl] at h1 h2
        refine ⟨j + 1, by omega, by rw [skip_skip, Nat.mul_succ, Nat.add_comm w], ?_, ?_⟩ <;>
          simp only [Nat.mul_succ] at h1 h2 ⊢ <;> omega
      · simp at h

theorem clLens_le {fields : List Nat} (h : ∀ v ∈ fields, v < 2 ^ 3) : ∀ l ∈ clLens fields, l ≤ 15 := by
  intro l hl
  obtain ⟨c, -, rfl⟩ := List.mem_map.mp hl
  rw [List.getD_eq_getElem?_getD]
  cases hk : fields[clOrder.idxOf c]? with
  | none => simp
  | some v => simp only [Option.getD_some]; have := h v (List.mem_of_getElem? hk); omega

@[simp] theorem length_clLens (fields : List Nat) : (clLens fields).length = 19 := by simp [clLens]

/-- DYNHDR (43_inflate.md R705, R703). -/
theorem advances_dynhdr {s : State} (h : Invariant s) (he : s.engine = .dynHeader) (hn : s.codesNext = false)
    (hlit hdist : BitVec 5) (hclen : BitVec 4) :
    Advances 0 s (execDynhdr hlit hdist hclen s) := by
  have hs : s.engine.stage = .inflate := by rw [he]; rfl
  obtain ⟨-, hbp, hout⟩ := h.inflating hs
  have h0 := hlit.isLt
  have h1 := hdist.isLt
  have h2 := hclen.isLt
  have hA : Advance 0 s (setCounts hlit hdist hclen s) := by
    refine Advance.within h hs hs rfl h.memory (fun _ _ => rfl) (le_refl _) hout (le_refl _) hbp (by simp [he])
      (by simp [he]) (by simp [he]) (by simp; omega) (by simp [hn]) h.trees ?_
    simp [workLeft, he, totalBits]
  have hsA : (setCounts hlit hdist hclen s).engine.stage = .inflate := hs
  refine ⟨_, rfl, ?_⟩
  split
  · next t hr =>
    obtain ⟨j, -, rfl, hle, -⟩ := readFields_error hr hbp
    have hS := Advance.skip hA.inv hsA (by simp [he]) (by simp [he]) hle
    exact ((hA.trans hsA hS).trans hsA (Advance.error hS.inv (hS.inv.stage_inflate hsA).1 _ _ 0)).mono (by omega)
  · next fields t hr =>
    obtain ⟨rfl, hle, hlt⟩ := readFields_ok hr hbp
    have hS := Advance.skip hA.inv hsA (by simp [he]) (by simp [he]) hle
    have hAS := hA.trans hsA hS
    split
    · exact (hAS.trans hsA (Advance.error hS.inv (hS.inv.stage_inflate hsA).1 _ _ 0)).mono (by omega)
    · next cl hc =>
      have hfit := build_fits (clLens_le hlt) hc
      rw [length_clLens] at hfit
      obtain ⟨-, hbp', hout'⟩ := hS.inv.inflating hsA
      refine (hAS.trans hsA (k := 0) ?_).mono (by omega)
      refine Advance.within hS.inv hsA hsA rfl hS.inv.memory (fun _ _ => rfl) (le_refl _) hout' (le_refl _) hbp'
        (by simp [he]) (by simp [he]) (by simp [he]) hS.inv.counts (by simp) ⟨h.trees.1, h.trees.2.1, hfit⟩ ?_
      simp [workLeft, he, totalBits]

/-- Code lengths that fit go behind those written so far. -/
theorem Advance.appendLens {s : State} (h : Invariant s) (he : s.engine = .dynHeader) (hn : s.codesNext = true)
    {xs : List Nat} (hx : ∀ l ∈ xs, l ≤ 15) (hw : s.lens.length + xs.length ≤ lensWanted s) :
    Advance 0 s (appendLens xs s) := by
  have hs : s.engine.stage = .inflate := by rw [he]; rfl
  obtain ⟨-, hbp, hout⟩ := h.inflating hs
  obtain ⟨-, hl⟩ := h.lengths he hn
  refine Advance.within h hs hs rfl h.memory (fun _ _ => rfl) (le_refl _) hout (le_refl _) hbp (by simp [he])
    (by simp [he]) (by simp [he]) h.counts (fun _ _ => ⟨?_, ?_⟩) h.trees ?_
  · simpa [lensWanted] using hw
  · intro l hl'
    rcases List.mem_append.mp hl' with h' | h'
    · exact hl l h'
    · exact hx l h'
  · simp [workLeft, he, totalBits]

/-- A repeat (43_inflate.md R708 to R710). -/
theorem Advance.repeatLen {s : State} (h : Invariant s) (he : s.engine = .dynHeader) (hn : s.codesNext = true)
    {l : Nat} (hl : l ≤ 15) (base extra : Nat) : Advance 0 s (repeatLen base extra l s) := by
  have hs : s.engine.stage = .inflate := by rw [he]; rfl
  unfold Machine.repeatLen
  split
  · exact Advance.error h (h.stage_inflate hs).1 _ _ _
  · next e t hr =>
    obtain ⟨hle, rfl, rfl⟩ := readBits_eq_some hr
    have hS := Advance.skip h hs (by simp [he]) (by simp [he]) hle
    split
    · exact (hS.trans hs (Advance.error hS.inv (hS.inv.stage_inflate hs).1 _ _ 0)).mono (by omega)
    · next hlt =>
      refine (hS.trans hs (Advance.appendLens hS.inv he hn ?_ ?_)).mono (by omega)
      · intro x hx; rw [List.eq_of_mem_replicate hx]; exact hl
      · rw [List.length_replicate]; omega

/-- The code-length symbols (43_inflate.md R707 to R710). -/
theorem advances_clsymLen {s : State} (h : Invariant s) (he : s.engine = .dynHeader) (hn : s.codesNext = true)
    (hw : s.lens.length < lensWanted s) (len : BitVec 4) : Advances 0 s (execClsymLen len s) :=
  ⟨_, rfl, Advance.appendLens h he hn (by simpa using Nat.le_of_lt_succ len.isLt) (by simpa using hw)⟩

theorem advances_clsym16 {s : State} (h : Invariant s) (he : s.engine = .dynHeader) (hn : s.codesNext = true) :
    Advances 0 s (execClsym16 s) := by
  refine ⟨_, rfl, ?_⟩
  split
  · exact Advance.error h (h.stage_inflate (by rw [he]; rfl)).1 _ _ _
  · next l hl => exact Advance.repeatLen h he hn ((h.lengths he hn).2 l (List.mem_of_getLast? hl)) _ _

theorem advances_clsym17 {s : State} (h : Invariant s) (he : s.engine = .dynHeader) (hn : s.codesNext = true) :
    Advances 0 s (execClsym17 s) := ⟨_, rfl, Advance.repeatLen h he hn (by omega) _ _⟩

theorem advances_clsym18 {s : State} (h : Invariant s) (he : s.engine = .dynHeader) (hn : s.codesNext = true) :
    Advances 0 s (execClsym18 s) := ⟨_, rfl, Advance.repeatLen h he hn (by omega) _ _⟩

theorem getD_le {xs : List Nat} {b k : Nat} (h : ∀ l ∈ xs, l ≤ b) : xs.getD k 0 ≤ b := by
  rw [List.getD_eq_getElem?_getD]
  cases hk : xs[k]? with
  | none => simp
  | some v => simpa using h v (List.mem_of_getElem? hk)

/-- The final trees (43_inflate.md R711). -/
theorem Advance.finishTrees {s : State} (h : Invariant s) (he : s.engine = .dynHeader) (hn : s.codesNext = true) :
    Advance (-1) s (finishTrees s) := by
  have hs : s.engine.stage = .inflate := by rw [he]; rfl
  obtain ⟨hb, -⟩ := h.stage_inflate hs
  obtain ⟨-, hbp, hout⟩ := h.inflating hs
  obtain ⟨-, hl⟩ := h.lengths he hn
  unfold Machine.finishTrees
  split
  · exact Advance.error h hb _ _ _
  split
  · exact Advance.error h hb _ _ _
  next ll hll =>
  split
  · exact Advance.error h hb _ _ _
  next d hd =>
  have h1 : ll.fits 288 = true := by
    have := build_fits (lens := llLens s) ?_ hll
    · simpa [llLens] using this
    · intro l hm
      obtain ⟨k, -, rfl⟩ := List.mem_map.mp hm
      split
      · exact getD_le hl
      · omega
  have h2 : d.fits 32 = true := by
    have := build_fits (lens := dLens s) ?_ hd
    · simpa [dLens] using this
    · intro l hm
      obtain ⟨k, -, rfl⟩ := List.mem_map.mp hm
      split
      · exact getD_le hl
      · omega
  refine Advance.within h hs rfl rfl h.memory (fun _ _ => rfl) (le_refl _) hout (le_refl _) hbp (by simp)
    (by simp) (by simp) h.counts (by simp) ⟨h1, h2, h.trees.2.2⟩ ?_
  simp only [workLeft, he, totalBits]
  omega

/-! ### The symbol loop -/

/-- LIT (44_symbols.md R801). -/
theorem advances_lit {s : State} (h : Invariant s) (he : s.engine = .symbols) (b : Byte) : Advances 0 s (execLit b s) := by
  have hs : s.engine.stage = .inflate := by rw [he]; rfl
  obtain ⟨hb, -⟩ := h.stage_inflate hs
  obtain ⟨-, hbp, hout⟩ := h.inflating hs
  refine ⟨_, rfl, ?_⟩
  split_ifs with h1
  · exact Advance.error h hb _ _ _
  · have ho : s.outCount.toNat < outLimit s := by omega
    have hoc := emit_outCount_toNat (v := b) ho
    refine Advance.within h hs hs rfl (wf_emit h.memory)
      (fun a ha => read_emit_of_outside h.memory (h.outRegion_inside hb) ho (ha _ outRegion_mem)) (by omega) (by omega)
      (le_refl _) hbp (by simp [he]) (by simp [he]) (by simp [he]) h.counts (by simp [he]) h.trees ?_
    simp [workLeft, he, totalBits]

theorem advances_eob {s : State} (h : Invariant s) (he : s.engine = .symbols) : Advances 1 s (execEob s) :=
  ⟨_, rfl, Advance.blockEnd h (by rw [he]; rfl)⟩

/-- An instruction that only raises an error. -/
theorem advances_error {s : State} (h : Invariant s) (hb : s.status.busy = true) (c : Cause) (i : Word) :
    Advances 0 s (.next (raiseError c i s)) := ⟨_, rfl, Advance.error h hb c i 0⟩

/-- A length code (44_symbols.md R803). -/
theorem Advance.lengthSymbol {s : State} (h : Invariant s) (he : s.engine = .symbols) (base extra : Nat) :
    Advance 0 s (lengthSymbol base extra s) := by
  have hs : s.engine.stage = .inflate := by rw [he]; rfl
  unfold Machine.lengthSymbol
  split
  · exact Advance.error h (h.stage_inflate hs).1 _ _ _
  · next e t hr =>
    obtain ⟨hle, rfl, rfl⟩ := readBits_eq_some hr
    have hS := Advance.skip h hs (by simp [he]) (by simp [he]) hle
    obtain ⟨-, hbp, hout⟩ := hS.inv.inflating hs
    refine (hS.trans hs (k := 0) ?_).mono (by omega)
    refine Advance.within hS.inv hs hs rfl h.memory (fun _ _ => rfl) (le_refl _) hout (le_refl _) hbp (by simp [he])
      (by simp [he]) (by simp [he]) h.counts (by simp [he]) h.trees ?_
    simp [workLeft, he, totalBits]

/-- A distance code and its match (44_symbols.md R804, R806, R891). -/
theorem Advance.distanceSymbol {s : State} (h : Invariant s) (he : s.engine = .symbols) (base extra : Nat) :
    Advance 0 s (distanceSymbol base extra s) := by
  have hs : s.engine.stage = .inflate := by rw [he]; rfl
  unfold Machine.distanceSymbol
  split
  · exact Advance.error h (h.stage_inflate hs).1 _ _ _
  · next e t hr =>
    obtain ⟨hle, rfl, rfl⟩ := readBits_eq_some hr
    have hS := Advance.skip h hs (by simp [he]) (by simp [he]) hle
    obtain ⟨hb, -⟩ := hS.inv.stage_inflate hs
    obtain ⟨-, hbp, hout⟩ := hS.inv.inflating hs
    refine (hS.trans hs (k := 0) ?_).mono (by omega)
    unfold matchCopy
    simp only
    split_ifs with h1 h2
    · exact Advance.error hS.inv hb _ _ _
    · exact Advance.error hS.inv hb _ _ _
    · have ho := Nat.le_of_not_lt h2
      have hoc := copyMatch_outCount_toNat (d := base + peek s extra) ho
      refine Advance.within hS.inv hs (by simpa using hs) (by simp only; rw [copyMatch_eq]) (wf_copyMatch h.memory)
        (fun a ha => read_copyMatch_of_outside h.memory (hS.inv.outRegion_inside hb) ho (ha _ outRegion_mem)) ?_ ?_
        (by simp) (by simpa using hbp) (by simp [he]) (by simp [he]) (by simp [he])
        (by simpa using h.counts) (by simp [he]) (by simpa using h.trees) ?_
      · simp only [hoc]; omega
      · simp only [hoc]; exact ho
      · simp [workLeft, he, totalBits]

end Sys2Proof.Machine
end

