-- ==== Sys2Proof/Laws/Rows.lean ====
section
/-! SUPPORT. The reconstruct stage: rows, where they are stored, and what a filter element does to a command. -/

namespace Sys2Proof.Machine

/-! ### Rows -/

@[simp] theorem length_reconFrom (f : Predictor) (bw : Nat) (prev : Option (List Byte)) (done xs : List Byte) :
    (reconFrom f bw prev done xs).length = done.length + xs.length := by
  induction xs generalizing done with
  | nil => simp [reconFrom]
  | cons x xs ih => rw [reconFrom, ih]; simp; omega

@[simp] theorem length_reconBytes (f : Predictor) (bw : Nat) (prev : Option (List Byte)) (xs : List Byte) :
    (reconBytes f bw prev xs).length = xs.length := by simp [reconBytes]

@[simp] theorem length_scanline (s : State) : (scanline s).length = rowStride s := by simp [scanline, readBytes]

@[simp] theorem length_reconRow (f : Predictor) (s : State) : (reconRow f s).length = rowStride s := by simp [reconRow]

/-! ### Where a row goes -/

/-- A legal format of at least 8 bits per pixel has whole bytes per pixel (10_state.md R141, R142). -/
theorem bpp_mod_eight {p : Params} (hc : p.colorMode.toNat ∈ [0, 2, 3, 4, 6])
    (hd : p.bitDepth.toNat ∈ legalDepths p.colorMode.toNat) (h8 : 8 ≤ p.bpp) : p.bpp % 8 = 0 := by
  unfold Params.bpp at h8 ⊢
  simp only [List.mem_cons, List.not_mem_nil, or_false] at hc
  rcases hc with hc | hc | hc | hc | hc <;> rw [hc] at hd h8 ⊢ <;>
    simp only [legalDepths, channels, List.mem_cons, List.not_mem_nil, or_false] at hd h8 ⊢ <;> omega

/-- The pixels of a pass lie in the image (46_interlace.md R1001, R1002). -/
theorem passWidth_lt {w q x : Nat} (h : x < passWidth w q) : (adam7 q).startX + x * (adam7 q).dx < w := by
  simp only [passWidth] at h
  have hdx : 0 < (adam7 q).dx := by unfold adam7; split <;> simp
  split at h
  · have := (Nat.lt_div_iff_mul_lt hdx).mp h
    have := Nat.mul_comm (adam7 q).dx x
    omega
  · omega

theorem passHeight_lt {w q y : Nat} (h : y < passHeight w q) : (adam7 q).startY + y * (adam7 q).dy < w := by
  simp only [passHeight] at h
  have hdy : 0 < (adam7 q).dy := by unfold adam7; split <;> simp
  split at h
  · have := (Nat.lt_div_iff_mul_lt hdy).mp h
    have := Nat.mul_comm (adam7 q).dy y
    omega
  · omega

/-- Every byte of a row of the image is stored inside RAW_SIZE. -/
theorem rasterOffset_lt {s : State} {j : Nat} (hr : RowInv s)
    (hb : s.p < 7 → s.snap.bpp % 8 = 0 ∧ 8 ≤ s.snap.bpp) (hj : j < rowStride s) : rasterOffset s j < s.snap.rawSize := by
  have hy := hr.row
  unfold rasterOffset Params.rawSize
  unfold rowStride at hj ⊢
  split
  · next hp =>
    obtain ⟨hm, h8⟩ := hb hp
    obtain ⟨b, hbpp⟩ : ∃ b, s.snap.bpp = 8 * b := ⟨s.snap.bpp / 8, by omega⟩
    have hb0 : 0 < b := by omega
    have hst : ∀ w, s.snap.stride w = w * b := by
      intro w
      unfold Params.stride
      rw [hbpp, show w * (8 * b) + 7 = 7 + 8 * (w * b) by ring, Nat.add_mul_div_left _ _ (by omega)]
      omega
    have hdiv : s.snap.bpp / 8 = b := by omega
    simp only [Params.rowWidth, Params.rowCount, if_pos hp, hst] at hj hy ⊢
    rw [hdiv]
    have hx := passWidth_lt (Nat.div_lt_of_lt_mul (by rwa [Nat.mul_comm] at hj) : j / b < passWidth s.snap.imgW.toNat s.p)
    have hY := passHeight_lt hy
    have hmod := Nat.mod_lt j hb0
    generalize (adam7 s.p).startX + j / b * (adam7 s.p).dx = X at hx ⊢
    generalize (adam7 s.p).startY + s.y * (adam7 s.p).dy = Y at hY ⊢
    have h1 : Y * s.snap.imgW.toNat + X + 1 ≤ s.snap.imgH.toNat * s.snap.imgW.toNat := by
      calc Y * s.snap.imgW.toNat + X + 1 ≤ Y * s.snap.imgW.toNat + s.snap.imgW.toNat := by omega
        _ = (Y + 1) * s.snap.imgW.toNat := by ring
        _ ≤ _ := Nat.mul_le_mul_right _ hY
    calc (Y * s.snap.imgW.toNat + X) * b + j % b < (Y * s.snap.imgW.toNat + X) * b + b := by omega
      _ = (Y * s.snap.imgW.toNat + X + 1) * b := by ring
      _ ≤ s.snap.imgH.toNat * s.snap.imgW.toNat * b := Nat.mul_le_mul_right _ h1
      _ = _ := by ring
  · next hp =>
    simp only [Params.rowWidth, Params.rowCount, if_neg hp] at hj hy ⊢
    calc s.y * s.snap.stride s.snap.imgW.toNat + j < s.y * s.snap.stride s.snap.imgW.toNat + s.snap.stride s.snap.imgW.toNat := by omega
      _ = (s.y + 1) * s.snap.stride s.snap.imgW.toNat := by ring
      _ ≤ _ := Nat.mul_le_mul_right _ hy

/-! ### A filter element -/

/-- What the reconstruct stage's state says of the row's place. -/
theorem Invariant.raster_lt {s : State} (h : Invariant s) (he : s.engine = .reconstruct) {j : Nat} (hj : j < rowStride s) :
    rasterOffset s j < s.snap.dst.len.toNat := by
  obtain ⟨hc, -, hrow⟩ := h.reconstructing he
  have hb := h.busy_of_engine he (by simp)
  obtain ⟨-, -, -, h8, h5, h6, h7, -⟩ := h.image hb hc
  rw [h7]
  refine rasterOffset_lt hrow (fun hp => ?_) hj
  have h8 := h8 (hrow.pass.2.mp hp)
  exact ⟨bpp_mod_eight h5 h6 h8, h8⟩

theorem dst_mem_written (c : Command) (p : Params) : p.dst ∈ writtenRegions c p := by
  cases c <;> simp [writtenRegions]

/-- A filter element takes the command to its next row or to its end. -/
theorem Advance.filterElement {s : State} (h : Invariant s) (he : s.engine = .reconstruct) (f : Predictor) :
    Advance (-1) s (filterElement f s) := by
  obtain ⟨hc, hout, hrow⟩ := h.reconstructing he
  have hb := h.busy_of_engine he (by simp)
  obtain ⟨r1, r2, r3, r4, r5⟩ := h.running hb
  obtain ⟨s1, -, s3⟩ := h.shown hb
  have s1' : s.shownOut.toNat ≤ outMax s := s1.trans (by unfold outReached; split <;> omega)
  have hst : s.status.stage = .reconstruct := by rw [h.stage, he]; rfl
  have hstage : ∀ x : Stage, s.status.stage = x → x = .inflate → False := by
    intro x hx hx'; rw [hst] at hx; rw [hx'] at hx; exact Stage.noConfusion hx
  -- the stored row
  obtain ⟨m, hmem⟩ : ∃ m, writeBytes s.snap.dst (rasterOffset s) 0 (reconRow f s) s = { s with mem := m } :=
    ⟨_, writeBytes_eq _ _ _ _ _⟩
  have hwf : m.wf = true := by
    have := wf_writeBytes (r := s.snap.dst) (o := rasterOffset s) (j := 0) (bs := reconRow f s) h.memory
    rwa [hmem] at this
  have hframe : ∀ a, Outside (writtenRegions s.cmd s.snap) a → m.read a = s.mem.read a := by
    intro a ha
    have := read_writeBytes_of_ne (r := s.snap.dst) (o := rasterOffset s) (j := 0) (a := a) (bs := reconRow f s) h.memory
      (fun k _ hk hak => by
        rw [length_reconRow, Nat.zero_add] at hk
        have hd := ha _ (dst_mem_written s.cmd s.snap)
        rw [hak, Region.has_addr ((h.regions_inside hb).2 _ (dst_mem_written s.cmd s.snap)) (h.raster_lt he hk)] at hd
        exact Bool.noConfusion hd)
    rwa [hmem] at this
  have hrows : 0 < rowsLeft s := by have := hrow.row; unfold rowsLeft; omega
  have hleft : workLeft s = rowsLeft s := by unfold workLeft; rw [he]
  -- going on
  have step : ∀ (p y : Nat) (v : Option (List Byte)), RowInv { s with mem := m, p := p, y := y, prev := v } →
      s.snap.rowCount p - y + rowsAfter s.snap p < rowsLeft s →
      Advance (-1) s { s with mem := m, p := p, y := y, prev := v } := by
    intro p y v hR hlt
    refine ⟨?_, hframe, le_refl _, fun ht => ?_, fun hx => ?_, fun _ => by simp, fun _ => ?_, hout.le, rfl, rfl, rfl⟩
    · exact inv_reconstruct hwf hb r1 r2 r3 r4 r5 hc hout s1' (Stage.code_le _) s3 h.counts h.trees he hst hR
    · exact (hstage _ rfl ht).elim
    · simp [hb] at hx
    · rw [hleft]
      unfold workLeft
      simp only [he]
      unfold rowsLeft at hlt ⊢
      simp only
      omega
  have finish : Advance (-1) s (complete { s with mem := m }) := by
    refine ⟨inv_complete hwf h.counts h.trees r2 r3 hout, fun a ha => ?_, by simp, fun ht => by simp at ht,
      fun _ => by simp [r2], fun ht => by simp at ht, fun ht => by simp at ht,
      by simpa using hout.le, by simp⟩
    have hw := (h.regions_inside hb).2
    rw [read_complete (s := { s with mem := m }) hwf, hframe a ha]
    · intro hd
      simp only at hd
      exact hw _ (by simp [writtenRegions, hd])
    · intro hd
      simp only at hd
      exact ha _ (by simp [writtenRegions, hd])
  unfold Machine.filterElement
  rw [hmem]
  unfold nextRow
  simp only
  split_ifs with h1 h2
  · refine step s.p (s.y + 1) _ ⟨hrow.pass, h1, hrow.wide, by simp [rowStride]⟩ ?_
    unfold rowsLeft
    omega
  · unfold seekPass
    simp only
    split
    · next r hr =>
      obtain ⟨hq, hr7, hne, -⟩ := nextPass_eq_some hr
      obtain ⟨hw', hr'⟩ := not_emptyPass hne
      have hi := hrow.pass.2.mp h2
      refine step r 0 none (rowInv_start (by simp [hi]; omega) hw' hr' rfl rfl) ?_
      have := rowsAfter_le (q := s.snap) hr7 (show s.p < r by omega)
      have := hrow.row
      unfold rowsLeft
      omega
    · exact finish
  · exact finish

end Sys2Proof.Machine
end

