-- ==== Sys2Proof/Laws/Turns.lean ====
section
/-! SUPPORT. The engine's next element: which instruction it is, and that the instruction takes the command on. -/

namespace Sys2Proof.Machine

/-! ### Decoded values -/

/-- The instructions of each format, as the format's decoder gives them. -/
theorem decode_blkhdr {v : Nat} {i : Instr} (h : decode .blkhdr v = .ok i) :
    ∃ b, i = .blkStored b ∨ i = .blkFixed b ∨ i = .blkDynamic b ∨ i = .blkReserved b := by
  simp only [decode] at h
  split at h
  · simp only [Except.ok.injEq] at h
    subst h
    simp only [decodeBlkhdr]
    split <;> simp
  · simp at h

theorem decode_clsym {v : Nat} {i : Instr} (h : decode .clsym v = .ok i) :
    (∃ l, i = .clsymLen l) ∨ i = .clsym16 ∨ i = .clsym17 ∨ i = .clsym18 := by
  simp only [decode] at h
  split at h
  · unfold decodeClsym at h
    split at h
    · simp only [Except.ok.injEq] at h; subst h; simp
    · split at h <;> simp only [Except.ok.injEq, reduceCtorEq] at h <;> subst h <;> simp
  · simp at h

theorem decode_filt {v : Nat} {i : Instr} (h : decode .filt v = .ok i) :
    i = .filtNone ∨ i = .filtSub ∨ i = .filtUp ∨ i = .filtAvg ∨ i = .filtPaeth ∨ ∃ x, i = .filtReserved x := by
  simp only [decode] at h
  split at h
  · simp only [Except.ok.injEq] at h
    subst h
    unfold decodeFilt
    split <;> simp
  · simp at h

/-- A symbol of the literal/length alphabet runs in the symbol loop. -/
theorem advances_llsym {s : State} (h : Invariant s) (he : s.engine = .symbols) {v : Nat} {i : Instr}
    (hd : decode .llsym v = .ok i) : Advances 1 s (exec i s) := by
  have hb := h.busy_of_engine he (by simp)
  have len : ∀ b e, Advances 1 s (.next (lengthSymbol b e s)) := fun b e =>
    ⟨_, rfl, (Advance.lengthSymbol h he b e).mono (by omega)⟩
  have lift : ∀ {o}, Advances 0 s o → Advances 1 s o := fun ⟨t, ht, hA⟩ => ⟨t, ht, hA.mono (by omega)⟩
  simp only [decode] at hd
  split at hd
  · unfold decodeLlsym at hd
    split at hd
    · simp only [Except.ok.injEq] at hd; subst hd; exact lift (advances_lit h he _)
    · split at hd <;> simp only [Except.ok.injEq, reduceCtorEq] at hd <;> subst hd <;>
        first
          | exact len _ _
          | exact advances_eob h he
          | exact lift (advances_error h hb _ _)
  · simp at hd

/-- A symbol of the distance alphabet runs in the symbol loop. -/
theorem advances_dsym {s : State} (h : Invariant s) (he : s.engine = .symbols) {v : Nat} {i : Instr}
    (hd : decode .dsym v = .ok i) : Advances 1 s (exec i s) := by
  have hb := h.busy_of_engine he (by simp)
  have dist : ∀ b e, Advances 1 s (.next (distanceSymbol b e s)) := fun b e =>
    ⟨_, rfl, (Advance.distanceSymbol h he b e).mono (by omega)⟩
  have lift : ∀ {o}, Advances 0 s o → Advances 1 s o := fun ⟨t, ht, hA⟩ => ⟨t, ht, hA.mono (by omega)⟩
  simp only [decode] at hd
  split at hd
  · simp only [Except.ok.injEq] at hd
    subst hd
    unfold decodeDsym
    split <;>
      first
        | exact dist _ _
        | exact lift (advances_error h hb _ _)
  · simp at hd

/-- A filter type runs in the reconstruct stage. -/
theorem advances_filt {s : State} (h : Invariant s) (he : s.engine = .reconstruct) {v : Nat} {i : Instr}
    (hd : decode .filt v = .ok i) : Advances (-1) s (exec i s) := by
  have hb := h.busy_of_engine he (by simp)
  rcases decode_filt hd with rfl | rfl | rfl | rfl | rfl | ⟨x, rfl⟩
  · exact ⟨_, rfl, Advance.filterElement h he _⟩
  · exact ⟨_, rfl, Advance.filterElement h he _⟩
  · exact ⟨_, rfl, Advance.filterElement h he _⟩
  · exact ⟨_, rfl, Advance.filterElement h he _⟩
  · exact ⟨_, rfl, Advance.filterElement h he _⟩
  · exact ⟨_, rfl, Advance.error h hb _ _ _⟩

/-- A code-length symbol runs in the dynamic header. -/
theorem advances_clsym {s : State} (h : Invariant s) (he : s.engine = .dynHeader) (hn : s.codesNext = true)
    (hw : s.lens.length < lensWanted s) {v : Nat} {i : Instr} (hd : decode .clsym v = .ok i) :
    Advances 0 s (exec i s) := by
  rcases decode_clsym hd with ⟨l, rfl⟩ | rfl | rfl | rfl
  · exact advances_clsymLen h he hn hw l
  · exact advances_clsym16 h he hn
  · exact advances_clsym17 h he hn
  · exact advances_clsym18 h he hn

/-- A block header runs between blocks. -/
theorem advances_blkhdr {s : State} (h : Invariant s) (he : s.engine = .blockHeader) {v : Nat} {i : Instr}
    (hd : decode .blkhdr v = .ok i) : Advances 1 s (exec i s) := by
  have lift : ∀ {o}, Advances 0 s o → Advances 1 s o := fun ⟨t, ht, hA⟩ => ⟨t, ht, hA.mono (by omega)⟩
  obtain ⟨b, rfl | rfl | rfl | rfl⟩ := decode_blkhdr hd
  · exact lift (advances_blkStored h he b)
  · exact lift (advances_blkFixed h he b)
  · exact advances_blkDynamic h he b
  · exact lift (advances_blkReserved h he b)

/-! ### The element that comes next -/

/-- What the engine does next in a running command: it takes the command on with one element or one end of its own,
and never meets a value that spells no instruction. -/
def GoesOn (s : State) (n : Turn) : Prop :=
  (∃ t, n = .quiet t ∧ Advance (-1) s t)
    ∨ ∃ i u, n = .run i u ∧ u = { s with bp := u.bp } ∧ Advance 0 s u ∧ Advances (-1) s (exec i u)

theorem goesOn_run {s u : State} {i : Instr} {j k : Int} (hA : Advance j s u) (hj : j ≤ 0)
    (hu : u = { s with bp := u.bp }) (hs : s.engine.stage = .inflate)
    (h : Advances k u (exec i u)) (hk : j + k ≤ -1) : GoesOn s (.run i u) := by
  obtain ⟨t, ht, hT⟩ := h
  exact .inr ⟨i, u, rfl, hu, hA.mono hj, t, ht, (hA.trans (by rw [hu]; exact hs) hT).mono hk⟩

/-- A field that does not fit ends the command with an error. -/
theorem Advance.fieldCut {s : State} (h : Invariant s) (hb : s.status.busy = true) (f : Format) (k : Int) :
    Advance k s (fieldCut f s) := by
  have cut : Advance k s (storedCut s) := by
    unfold storedCut
    split
    · exact .error h hb _ _ k
    · exact .ofDraws (.error (h.withBus s.hostQueue s.sched s.hostData (s.draws + 1)) hb _ _ k)
  cases f <;> first | exact cut | exact .error h hb _ _ k

/-- A field element. -/
theorem goesOn_field {f : Format} {s : State} (h : Invariant s) (hs : s.engine.stage = .inflate) (hz : s.engine ≠ .zhdr)
    (ha : s.engine = .stored → f.width % 8 = 0) (hf : 1 ≤ f.width)
    (hex : ∀ v u, v < 2 ^ f.width → u = skip f.width s → Invariant u → ∃ i, decode f v = .ok i ∧ Advances 1 u (exec i u)) :
    GoesOn s (fetchField f s) := by
  unfold fetchField
  split
  · exact .inl ⟨_, rfl, .fieldCut h (h.stage_inflate hs).1 _ _⟩
  · next v t hr =>
    obtain ⟨hle, rfl, rfl⟩ := readBits_eq_some hr
    have hS := Advance.skip h hs hz ha hle
    obtain ⟨i, hd, hA⟩ := hex _ _ (peek_lt s _) rfl hS.inv
    unfold elementTurn
    rw [hd]
    exact goesOn_run hS (by omega) rfl hs hA (by omega)

/-- A decoded symbol. -/
theorem goesOn_symbol {f : Format} {T : Tree} {c : Cause} {m : Nat} {s : State} (h : Invariant s)
    (hs : s.engine.stage = .inflate) (hz : s.engine ≠ .zhdr) (ha : s.engine ≠ .stored) (hT : T.fits m = true)
    (hex : ∀ v u n, v < m → u = skip n s → Invariant u → ∃ i, decode f v = .ok i ∧ Advances 1 u (exec i u)) :
    GoesOn s (fetchSymbol f T c s) := by
  unfold fetchSymbol
  split
  · exact .inl ⟨_, rfl, Advance.error h (h.stage_inflate hs).1 _ _ _⟩
  · next v u hd =>
    obtain ⟨k, len, hleaf, hle, rfl⟩ := decodeSym_eq_sym hd
    obtain ⟨h1, -, hv⟩ := Tree.fits_leaf hT hleaf
    have hS := Advance.skip h hs hz (fun he => absurd he ha) hle
    obtain ⟨i, hi, hA⟩ := hex v _ len hv rfl hS.inv
    unfold elementTurn
    rw [hi]
    exact goesOn_run hS (by omega) rfl hs hA (by omega)

/-- Every value of an alphabet spells a symbol. -/
theorem decode_llsym_ok {v : Nat} (h : v < 288) : ∃ i, decode .llsym v = .ok i := by
  unfold decode
  rw [if_pos (by simp [Format.width]; omega)]
  simp only [decodeLlsym]
  split
  · exact ⟨_, rfl⟩
  · interval_cases v <;> exact ⟨_, rfl⟩

theorem decode_dsym_ok {v : Nat} (h : v < 32) : ∃ i, decode .dsym v = .ok i :=
  ⟨decodeDsym v, by unfold decode; rw [if_pos (by simp [Format.width]; omega)]⟩

theorem decode_clsym_ok {v : Nat} (h : v < 19) : ∃ i, decode .clsym v = .ok i := by
  interval_cases v <;> exact ⟨_, rfl⟩

theorem decode_filt_ok {v : Nat} (h : v < 256) : ∃ i, decode .filt v = .ok i :=
  ⟨decodeFilt v, by unfold decode; rw [if_pos (by simpa [Format.width] using h)]⟩

/-- The engine's next turn, from every state of the invariant in which a command runs. -/
theorem goesOn_fetchElement {s : State} (h : Invariant s) (hb : s.status.busy = true) : GoesOn s (fetchElement s) := by
  unfold fetchElement
  split
  · next he => exact absurd he (h.not_idle hb)
  · next he =>
    have hd : decode .zhdr (headerValue s) = .ok (decodeZhdr (headerValue s)) := by
      unfold decode
      rw [if_pos]
      have : ∀ j, srcByte s j < 256 := fun j => by unfold srcByte; split; exact BitVec.isLt _; omega
      have h0 := this 0
      have h1 := this 1
      simp only [Format.width, headerValue]
      omega
    unfold elementTurn
    rw [hd]
    exact .inr ⟨_, _, rfl, rfl, ⟨h, fun _ _ => rfl, le_refl _, fun _ => le_refl _, fun hx => by simp [hb] at hx,
      fun _ => by simp, fun _ => by omega, h.out_le hb, rfl, rfl, rfl⟩, advances_zhdr h he _ _⟩
  · next he =>
    refine goesOn_field h (by rw [he]; rfl) (by simp [he]) (by simp [he]) (by decide) fun v u hv hu hI => ?_
    refine ⟨decodeBlkhdr v, by unfold decode; rw [if_pos hv], ?_⟩
    exact advances_blkhdr hI (by rw [hu]; exact he) (v := v) (by unfold decode; rw [if_pos hv])
  · next he =>
    refine goesOn_field h (by rw [he]; rfl) (by simp [he]) (fun _ => by decide) (by decide) fun v u hv hu hI => ?_
    exact ⟨decodeStored v, by unfold decode; rw [if_pos hv], advances_stored hI (by rw [hu]; exact he) _ _⟩
  · next he =>
    split
    · next hn =>
      refine goesOn_field h (by rw [he]; rfl) (by simp [he]) (by simp [he]) (by decide) fun v u hv hu hI => ?_
      refine ⟨decodeDynhdr v, by unfold decode; rw [if_pos hv], ?_⟩
      obtain ⟨t, ht, hA⟩ := advances_dynhdr hI (by rw [hu]; exact he) (by rw [hu]; exact hn) (BitVec.ofNat 5 v)
        (BitVec.ofNat 5 (v / 32)) (BitVec.ofNat 4 (v / 1024))
      exact ⟨t, ht, hA.mono (by omega)⟩
    · next hn =>
      have hn : s.codesNext = true := by simpa using hn
      split
      · next hw =>
        refine goesOn_symbol h (by rw [he]; rfl) (by simp [he]) (by simp [he]) h.trees.2.2 fun v u n hv hu hI => ?_
        obtain ⟨i, hi⟩ := decode_clsym_ok hv
        obtain ⟨t, ht, hA⟩ := advances_clsym hI (by rw [hu]; exact he) (by rw [hu]; exact hn) (by rw [hu]; exact hw) hi
        exact ⟨i, hi, t, ht, hA.mono (by omega)⟩
      · exact .inl ⟨_, rfl, Advance.finishTrees h he hn⟩
  · next he =>
    split
    · refine goesOn_symbol h (by rw [he]; rfl) (by simp [he]) (by simp [he]) h.trees.1 fun v u n hv hu hI => ?_
      obtain ⟨i, hi⟩ := decode_llsym_ok hv
      exact ⟨i, hi, advances_llsym hI (by rw [hu]; exact he) hi⟩
    · refine goesOn_symbol h (by rw [he]; rfl) (by simp [he]) (by simp [he]) h.trees.2.1 fun v u n hv hu hI => ?_
      obtain ⟨i, hi⟩ := decode_dsym_ok hv
      exact ⟨i, hi, advances_dsym hI (by rw [hu]; exact he) hi⟩
  · next he => exact .inl ⟨_, rfl, Advance.streamEnd h he⟩
  · next he =>
    have hd : decode .ztrl (trailerValue s) = .ok (.ztrl (BitVec.ofNat 32 (trailerValue s))) := by
      unfold decode
      rw [if_pos]
      have : ∀ j, srcByte s j < 256 := fun j => by unfold srcByte; split; exact BitVec.isLt _; omega
      simp only [Format.width, trailerValue]
      generalize (align s).bp.toNat / 8 = k
      have h0 := this k
      have h1 := this (k + 1)
      have h2 := this (k + 2)
      have h3 := this (k + 3)
      omega
    unfold elementTurn
    rw [hd]
    exact .inr ⟨_, _, rfl, rfl, ⟨h, fun _ _ => rfl, le_refl _, fun _ => le_refl _, fun hx => by simp [hb] at hx,
      fun _ => by simp, fun _ => by omega, h.out_le hb, rfl, rfl, rfl⟩, advances_ztrl h he _⟩
  · next he =>
    obtain ⟨i, hi⟩ := decode_filt_ok (v := filterType s) (BitVec.isLt _)
    unfold elementTurn
    rw [hi]
    exact .inr ⟨_, _, rfl, rfl, ⟨h, fun _ _ => rfl, le_refl _, fun _ => le_refl _, fun hx => by simp [hb] at hx,
      fun _ => by simp, fun _ => by omega, h.out_le hb, rfl, rfl, rfl⟩, advances_filt h he hi⟩

end Sys2Proof.Machine
end

