-- ==== Sys2Proof/Laws/HostTurns.lean ====
section
/-! SUPPORT. The host's accesses, the commands, reset and the ends from outside: each keeps the invariant. -/

namespace Sys2Proof.Machine

/-! ### Registers -/

/-- IGN is no part of the invariant. -/
theorem Invariant.ignoreWrite {s : State} (h : Invariant s) : Invariant (ignoreWrite s) where
  memory := h.memory
  idle := h.idle
  stage := h.stage
  running := h.running
  resting := h.resting
  ended := h.ended
  finished := h.finished
  shown := h.shown
  inflating := h.inflating
  reconstructing he := ⟨(h.reconstructing he).1, (h.reconstructing he).2.1, (h.reconstructing he).2.2.of_eq rfl rfl rfl rfl⟩
  header := h.header
  trailer := h.trailer
  aligned := h.aligned
  counts := h.counts
  lengths := h.lengths
  trees := h.trees

/-- A write to STATUS. -/
theorem Invariant.clearStatus {s : State} (h : Invariant s) (v : Word) : Invariant { s with status := s.status.clear v } where
  memory := h.memory
  idle := h.idle
  stage := h.stage
  running hb := by
    obtain ⟨h1, h2, h3⟩ := h.running hb
    exact ⟨by simp [Status.clear, h1], by simp [Status.clear, h2], h3⟩
  resting := h.resting
  ended := by
    intro hx
    simp only [Status.clear, Bool.and_eq_true] at hx
    exact h.ended ⟨hx.1.1, hx.2.1⟩
  finished hx := by
    simp only [Status.clear, Bool.and_eq_true] at hx
    exact h.finished hx.1
  shown := h.shown
  inflating := h.inflating
  reconstructing he := ⟨(h.reconstructing he).1, (h.reconstructing he).2.1, (h.reconstructing he).2.2.of_eq rfl rfl rfl rfl⟩
  header := h.header
  trailer := h.trailer
  aligned := h.aligned
  counts := h.counts
  lengths := h.lengths
  trees := h.trees

/-- With no command running the configuration is free. -/
theorem Invariant.withConfig {s : State} (h : Invariant s) (hb : s.status.busy = false) (r : Params) (q : Bool) :
    Invariant { s with regs := r, irqEn := q } where
  memory := h.memory
  idle := h.idle
  stage := h.stage
  running hx := by simp [hb] at hx
  resting := h.resting
  ended := h.ended
  finished := h.finished
  shown hx := by simp [hb] at hx
  inflating hx := by have := h.idle.mp hb; simp [this, Engine.stage] at hx
  reconstructing he := by simp [h.idle.mp hb] at he
  header he := by simp [h.idle.mp hb] at he
  trailer he := by simp [h.idle.mp hb] at he
  aligned he := by simp [h.idle.mp hb] at he
  counts := h.counts
  lengths he := by simp [h.idle.mp hb] at he
  trees := h.trees

/-- Everything a configuration write can do. -/
theorem writeConfig_eq (off : Nat) (v : Word) (s : State) :
    writeConfig off v s = { s with regs := (writeConfig off v s).regs, irqEn := (writeConfig off v s).irqEn } := by
  unfold writeConfig
  split <;> rfl

theorem Invariant.writeReg {s : State} (h : Invariant s) (off : Nat) (v : Word) : Invariant (writeReg off v s) := by
  unfold Machine.writeReg
  split_ifs with h1 h2 h3
  · exact h.clearStatus v
  · exact h.ignoreWrite
  · rw [writeConfig_eq]
    exact h.withConfig (by simpa using h3) _ _
  · exact h

/-- What a read shows has been reached. -/
theorem Invariant.withShown {s : State} (h : Invariant s) {o : Word} {g : Stage} (ho : o.toNat ≤ outReached s)
    (hg : g.code ≤ stageReached s) (hp : g ∈ stagePath s.cmd) (w : Word) (k : Nat) :
    Invariant { s with hostData := w, shownOut := o, shownStage := g, draws := k } where
  memory := h.memory
  idle := h.idle
  stage := h.stage
  running := h.running
  resting := h.resting
  ended := h.ended
  finished := h.finished
  shown _ := ⟨ho, hg, hp⟩
  inflating := h.inflating
  reconstructing he := ⟨(h.reconstructing he).1, (h.reconstructing he).2.1, (h.reconstructing he).2.2.of_eq rfl rfl rfl rfl⟩
  header := h.header
  trailer := h.trailer
  aligned := h.aligned
  counts := h.counts
  lengths := h.lengths
  trees := h.trees

/-- A running command's count is a 32-bit number. -/
theorem outMax_lt (s : State) : outMax s < 2 ^ 32 := by
  unfold outMax
  cases s.cmd
  · exact s.snap.dst.len.isLt
  · simp
  · exact s.snap.work.len.isLt

theorem Invariant.outReached_le {s : State} (h : Invariant s) (hb : s.status.busy = true) : outReached s ≤ outMax s := by
  unfold outReached
  split
  · exact le_refl _
  · exact h.out_le hb

/-- What a read of OUT_COUNT shows. -/
theorem showOut_spec {s : State} (h : Invariant s) (hb : s.status.busy = true) :
    ∃ w : Word, showOut s = { s with hostData := w, shownOut := w, draws := s.draws + 1 }
      ∧ s.shownOut.toNat ≤ w.toNat ∧ w.toNat ≤ outReached s := by
  refine ⟨_, rfl, ?_⟩
  have h1 := (h.shown hb).1
  have h2 := h.outReached_le hb
  have h3 := outMax_lt s
  have h4 := Nat.mod_lt (Config.freeNat s.draws) (show 0 < outReached s - s.shownOut.toNat + 1 by omega)
  rw [BitVec.toNat_ofNat, Nat.mod_eq_of_lt (by omega)]
  omega

/-- What a read of STAGE shows. -/
theorem showStage_spec {s : State} (h : Invariant s) (hb : s.status.busy = true) :
    ∃ g : Stage, showStage s
        = { s with hostData := { s.status with stage := g }.word, shownStage := g, draws := s.draws + 1 }
      ∧ s.shownStage.code ≤ g.code ∧ g.code ≤ stageReached s ∧ g ∈ stagePath s.cmd := by
  refine ⟨_, rfl, ?_⟩
  obtain ⟨-, h2, h3⟩ := h.shown hb
  have hmem : s.shownStage ∈ stageChoices s := by simp [stageChoices, h3, h2]
  have hpos : 0 < (stageChoices s).length := List.length_pos_of_mem hmem
  have hlt := Nat.mod_lt (Config.freeNat s.draws) hpos
  rw [List.getD_eq_getElem _ _ hlt]
  have := List.getElem_mem hlt
  simp only [stageChoices, List.mem_filter, Bool.and_eq_true, decide_eq_true_eq] at this
  exact ⟨this.2.1, this.2.2, this.1⟩

theorem Invariant.readReg {s : State} (h : Invariant s) (off : BitVec 8) (n : Nat) : Invariant (readReg off n s) := by
  unfold Machine.readReg
  split_ifs with h1 h2 h3
  · exact h.withBus s.hostQueue s.sched _ _
  · simp only [Bool.and_eq_true] at h2
    obtain ⟨g, he, -, hg, hp⟩ := showStage_spec h h2.1
    rw [he]
    exact h.withShown (h.shown h2.1).1 hg hp _ _
  · simp only [Bool.and_eq_true] at h3
    obtain ⟨w, he, -, hw⟩ := showOut_spec h h3.1
    rw [he]
    exact h.withShown hw (h.shown h3.1).2.1 (h.shown h3.1).2.2 _ _
  · exact h.withBus s.hostQueue s.sched _ _

/-! ### Memory -/

theorem Invariant.hostMemRead {s : State} (h : Invariant s) (a : Word) : Invariant (hostMemRead a s) := by
  unfold Machine.hostMemRead
  split
  · exact h.withBus s.hostQueue s.sched _ _
  · exact h.withBus s.hostQueue s.sched _ _

/-- Memory in its canonical form is free, and so is a race while a command runs. -/
theorem Invariant.withMem {s : State} (h : Invariant s) {m : Memory} (hm : m.wf = true) : Invariant { s with mem := m } where
  memory := hm
  idle := h.idle
  stage := h.stage
  running := h.running
  resting := h.resting
  ended := h.ended
  finished := h.finished
  shown := h.shown
  inflating := h.inflating
  reconstructing he := ⟨(h.reconstructing he).1, (h.reconstructing he).2.1, (h.reconstructing he).2.2.of_eq rfl rfl rfl rfl⟩
  header := h.header
  trailer := h.trailer
  aligned := h.aligned
  counts := h.counts
  lengths := h.lengths
  trees := h.trees

theorem Stage.code_le_two (g : Stage) : g.code ≤ 2 := g.code_le

theorem Invariant.withRace {s : State} (h : Invariant s) (hb : s.status.busy = true) (n k : Nat) :
    Invariant { s with raceIn := some n, draws := k } where
  memory := h.memory
  idle := h.idle
  stage := h.stage
  running := h.running
  resting hx := by simp [hb] at hx
  ended := h.ended
  finished := h.finished
  shown _ := by
    obtain ⟨h1, -, h3⟩ := h.shown hb
    exact ⟨h1.trans (h.outReached_le hb), Stage.code_le _, h3⟩
  inflating := h.inflating
  reconstructing he := ⟨(h.reconstructing he).1, (h.reconstructing he).2.1, (h.reconstructing he).2.2.of_eq rfl rfl rfl rfl⟩
  header := h.header
  trailer := h.trailer
  aligned := h.aligned
  counts := h.counts
  lengths := h.lengths
  trees := h.trees

theorem Invariant.hostMemWrite {s : State} (h : Invariant s) (a : Word) (v : Byte) : Invariant (hostMemWrite a v s) := by
  have hm := h.withMem (Memory.wf_write (v := v) h.memory a.isLt)
  unfold Machine.hostMemWrite
  simp only
  split
  · next hc =>
    simp only [Bool.and_eq_true] at hc
    exact hm.withRace hc.1.1 _ _
  · exact hm

/-! ### Reset and the ends from outside -/

theorem unbuilt_fits (n m : Nat) : (Tree.unbuilt n).fits m = true := rfl

/-- A state at rest with nothing reported. -/
theorem inv_reset {m : Memory} (hm : m.wf = true) (k : Nat) (q : List HostAccess) (c : List Agent) (w : Word) :
    Invariant { State.reset with mem := m, draws := k, hostQueue := q, sched := c, hostData := w } where
  memory := hm
  idle := by simp [State.reset]
  stage := rfl
  running hx := by simp [State.reset] at hx
  resting _ := ⟨rfl, rfl⟩
  ended := by simp [State.reset]
  finished hx := by simp [State.reset] at hx
  shown hx := by simp [State.reset] at hx
  inflating hx := by simp [State.reset, Engine.stage] at hx
  reconstructing hx := by simp [State.reset] at hx
  header hx := by simp [State.reset] at hx
  trailer hx := by simp [State.reset] at hx
  aligned hx := by simp [State.reset] at hx
  counts := by simp [State.reset]
  lengths hx := by simp [State.reset] at hx
  trees := ⟨rfl, rfl, rfl⟩

theorem Invariant.resetEvent {s : State} (h : Invariant s) : Invariant (resetEvent s) := by
  unfold Machine.resetEvent
  refine inv_reset ?_ _ _ _ _
  split
  · exact wf_forgetRegions h.memory
  · exact h.memory

/-- The end of a race, said once: done or in error, with memory changed in the written regions only. -/
theorem endRace_spec {s : State} (h : Invariant s) (hb : s.status.busy = true) :
    Invariant (endRace s) ∧ (endRace s).status.busy = false ∧ ((endRace s).status.done = !(endRace s).status.err)
      ∧ (endRace s).regs = s.regs
      ∧ ∀ a, Outside (writtenRegions s.cmd s.snap) a → (endRace s).mem.read a = s.mem.read a := by
  have hf : ∀ k, Invariant { s with draws := k } := fun k => h.withBus s.hostQueue s.sched s.hostData k
  have hwf := fun k => wf_forgetRegions (rs := writtenRegions s.cmd s.snap) (hf k).memory
  have hrd : ∀ k a, Outside (writtenRegions s.cmd s.snap) a →
      (forgetRegions (writtenRegions s.cmd s.snap) { s with draws := k }).mem.read a = s.mem.read a :=
    fun k a ha => read_forgetRegions (hf k).memory (h.regions_inside hb).2 ha
  have hlt := outMax_lt s
  unfold endRace
  simp only
  split
  · refine ⟨?_, rfl, rfl, by simp, fun a ha => hrd _ a ha⟩
    exact {
      memory := hwf _
      idle := by simp
      stage := rfl
      running := by simp
      resting := by simp
      ended := by simp
      finished := fun _ => ⟨by simpa using (h.running hb).2.2.1, by
        simp only [BitVec.toNat_ofNat]
        rw [Nat.mod_eq_of_lt hlt]
        simp [outMax]⟩
      shown := by simp
      inflating := by simp [Engine.stage]
      reconstructing := by simp
      header := by simp
      trailer := by simp
      aligned := by simp
      counts := by simpa using h.counts
      lengths := by simp
      trees := by simpa using h.trees }
  · refine ⟨?_, rfl, rfl, by simp, fun a ha => hrd _ a ha⟩
    exact {
      memory := hwf _
      idle := by simp
      stage := rfl
      running := by simp
      resting := by simp
      ended := by simp
      finished := by simp
      shown := by simp
      inflating := by simp [Engine.stage]
      reconstructing := by simp
      header := by simp
      trailer := by simp
      aligned := by simp
      counts := by simpa using h.counts
      lengths := by simp
      trees := by simpa using h.trees }

/-- An ABORT that takes effect, said once. -/
theorem abortStop_spec {s : State} (h : Invariant s) (hb : s.status.busy = true) (n : Word) :
    Invariant (abortStop n s) ∧ ∀ a, Outside (writtenRegions s.cmd s.snap) a → (abortStop n s).mem.read a = s.mem.read a := by
  unfold abortStop
  exact ⟨inv_raiseError (by exact h.memory) (by exact h.counts) (by exact h.trees) _ _, fun a ha => read_raiseError (s := { s with outCount := _, draws := _ }) h.memory (h.regions_inside hb).2 ha⟩

/-! ### Commands -/

/-- A command that starts. -/
theorem Invariant.startCommand {s : State} (h : Invariant s) (c : Command) : Invariant (startCommand c s) := by
  unfold Machine.startCommand
  split_ifs with hb
  · exact h.ignoreWrite
  · split
    · exact inv_raiseError (by exact h.memory) (by exact h.counts) (by exact h.trees) _ _
    · next hck =>
      have infl : c ≠ .unfilter → Invariant (enterInflate (startSequence c s)) := fun hc => {
        memory := h.memory
        idle := by cases hz : s.regs.zlib <;> simp [enterInflate, startSequence, hz]
        stage := by cases hz : s.regs.zlib <;> simp [enterInflate, startSequence, hz, Engine.stage]
        running := fun _ => ⟨rfl, rfl, rfl, rfl, hck⟩
        resting := by simp [enterInflate, startSequence]
        ended := by simp [enterInflate, startSequence]
        finished := by simp [enterInflate, startSequence]
        shown := fun _ => by
          refine ⟨by simp [enterInflate, startSequence], by simp [enterInflate, startSequence, Stage.code], ?_⟩
          cases c <;> simp [enterInflate, startSequence, stagePath]
        inflating := fun _ => ⟨hc, by simp [enterInflate, startSequence], by simp [enterInflate, startSequence]⟩
        reconstructing := by cases hz : s.regs.zlib <;> simp [enterInflate, startSequence, hz]
        header := by cases hz : s.regs.zlib <;> simp [enterInflate, startSequence, hz]
        trailer := by cases hz : s.regs.zlib <;> simp [enterInflate, startSequence, hz]
        aligned := by simp [enterInflate, startSequence]
        counts := h.counts
        lengths := by cases hz : s.regs.zlib <;> simp [enterInflate, startSequence, hz]
        trees := h.trees }
      cases c with
      | inflate => exact infl (by simp)
      | decode => exact infl (by simp)
      | unfilter =>
        obtain ⟨hw, hh, -⟩ := image_of_checks hck (by simp)
        have hrow := rowInv_startReconstruct (s := startSequence .unfilter s) hw hh
        show Invariant (startReconstruct (startSequence .unfilter s))
        rw [startReconstruct_eq (s := startSequence .unfilter s) hw hh] at hrow ⊢
        exact inv_reconstruct h.memory rfl rfl rfl rfl rfl hck (by simp [startSequence]) rfl (by simp [startSequence])
          (Stage.code_le _) (by simp [startSequence, stagePath]) h.counts h.trees rfl rfl hrow

/-- A CMD write answers a next state of the invariant. -/
theorem exec_decodeCmd {s : State} (h : Invariant s) (v : Nat) : ∃ t, exec (decodeCmd v) s = .next t ∧ Invariant t := by
  unfold decodeCmd
  split
  · refine ⟨_, rfl, ?_⟩
    split
    · exact h.ignoreWrite
    · exact h
  · exact ⟨_, rfl, h.startCommand _⟩
  · exact ⟨_, rfl, h.startCommand _⟩
  · exact ⟨_, rfl, h.startCommand _⟩
  · refine ⟨_, rfl, ?_⟩
    split
    · next hc => exact h.withAbort hc.1 _ _
    · exact h
  · refine ⟨_, rfl, ?_⟩
    split_ifs
    · exact h.ignoreWrite
    · exact inv_raiseError (by exact h.memory) (by exact h.counts) (by exact h.trees) _ _

end Sys2Proof.Machine
end

