-- ==== Sys2Proof/Laws/PerInstr.lean ====
section
/-! SUPPORT. Laws about every instruction as syntax, one lemma per constructor. -/

namespace Sys2Proof.Laws.EncodingFits

set_option Elab.async false

/-- A well-formed instruction is encoded in the bits of its format. -/
def Statement (i : Instr) : Prop := i.wf = true → encode i < 2 ^ i.format.width

theorem nop : Statement .nop := fun _ => of_decide_eq_true rfl
theorem inflate : Statement .inflate := fun _ => of_decide_eq_true rfl
theorem unfilter : Statement .unfilter := fun _ => of_decide_eq_true rfl
theorem decode : Statement .decode := fun _ => of_decide_eq_true rfl
theorem abort : Statement .abort := fun _ => of_decide_eq_true rfl
theorem reservedCmd (op : BitVec 4) : Statement (.reservedCmd op) := by
  intro _
  have := op.isLt
  simp only [encode, Instr.format, Format.width]
  omega
theorem zhdr (cmf flg : Byte) : Statement (.zhdr cmf flg) := by
  intro _
  have := cmf.isLt
  have := flg.isLt
  simp only [encode, Instr.format, Format.width]
  omega
theorem blkStored (bfinal : Bool) : Statement (.blkStored bfinal) := by
  intro _
  have := Bool.toNat_le bfinal
  simp only [encode, Instr.format, Format.width]
  omega
theorem blkFixed (bfinal : Bool) : Statement (.blkFixed bfinal) := by
  intro _
  have := Bool.toNat_le bfinal
  simp only [encode, Instr.format, Format.width]
  omega
theorem blkDynamic (bfinal : Bool) : Statement (.blkDynamic bfinal) := by
  intro _
  have := Bool.toNat_le bfinal
  simp only [encode, Instr.format, Format.width]
  omega
theorem blkReserved (bfinal : Bool) : Statement (.blkReserved bfinal) := by
  intro _
  have := Bool.toNat_le bfinal
  simp only [encode, Instr.format, Format.width]
  omega
theorem stored (len nlen : BitVec 16) : Statement (.stored len nlen) := by
  intro _
  have := len.isLt
  have := nlen.isLt
  simp only [encode, Instr.format, Format.width]
  omega
theorem dynhdr (hlit hdist : BitVec 5) (hclen : BitVec 4) : Statement (.dynhdr hlit hdist hclen) := by
  intro _
  have := hlit.isLt
  have := hdist.isLt
  have := hclen.isLt
  simp only [encode, Instr.format, Format.width]
  omega
theorem clsymLen (len : BitVec 4) : Statement (.clsymLen len) := by
  intro _
  have := len.isLt
  simp only [encode, Instr.format, Format.width]
  omega
theorem clsym16 : Statement .clsym16 := fun _ => of_decide_eq_true rfl
theorem clsym17 : Statement .clsym17 := fun _ => of_decide_eq_true rfl
theorem clsym18 : Statement .clsym18 := fun _ => of_decide_eq_true rfl
theorem lit (b : Byte) : Statement (.lit b) := by
  intro _
  have := b.isLt
  simp only [encode, Instr.format, Format.width]
  omega
theorem eob : Statement .eob := fun _ => of_decide_eq_true rfl
theorem len257 : Statement .len257 := fun _ => of_decide_eq_true rfl
theorem len258 : Statement .len258 := fun _ => of_decide_eq_true rfl
theorem len259 : Statement .len259 := fun _ => of_decide_eq_true rfl
theorem len260 : Statement .len260 := fun _ => of_decide_eq_true rfl
theorem len261 : Statement .len261 := fun _ => of_decide_eq_true rfl
theorem len262 : Statement .len262 := fun _ => of_decide_eq_true rfl
theorem len263 : Statement .len263 := fun _ => of_decide_eq_true rfl
theorem len264 : Statement .len264 := fun _ => of_decide_eq_true rfl
theorem len265 : Statement .len265 := fun _ => of_decide_eq_true rfl
theorem len266 : Statement .len266 := fun _ => of_decide_eq_true rfl
theorem len267 : Statement .len267 := fun _ => of_decide_eq_true rfl
theorem len268 : Statement .len268 := fun _ => of_decide_eq_true rfl
theorem len269 : Statement .len269 := fun _ => of_decide_eq_true rfl
theorem len270 : Statement .len270 := fun _ => of_decide_eq_true rfl
theorem len271 : Statement .len271 := fun _ => of_decide_eq_true rfl
theorem len272 : Statement .len272 := fun _ => of_decide_eq_true rfl
theorem len273 : Statement .len273 := fun _ => of_decide_eq_true rfl
theorem len274 : Statement .len274 := fun _ => of_decide_eq_true rfl
theorem len275 : Statement .len275 := fun _ => of_decide_eq_true rfl
theorem len276 : Statement .len276 := fun _ => of_decide_eq_true rfl
theorem len277 : Statement .len277 := fun _ => of_decide_eq_true rfl
theorem len278 : Statement .len278 := fun _ => of_decide_eq_true rfl
theorem len279 : Statement .len279 := fun _ => of_decide_eq_true rfl
theorem len280 : Statement .len280 := fun _ => of_decide_eq_true rfl
theorem len281 : Statement .len281 := fun _ => of_decide_eq_true rfl
theorem len282 : Statement .len282 := fun _ => of_decide_eq_true rfl
theorem len283 : Statement .len283 := fun _ => of_decide_eq_true rfl
theorem len284 : Statement .len284 := fun _ => of_decide_eq_true rfl
theorem len285 : Statement .len285 := fun _ => of_decide_eq_true rfl
theorem llReserved (s : BitVec 9) : Statement (.llReserved s) := by
  intro _
  have := s.isLt
  simp only [encode, Instr.format, Format.width]
  omega
theorem dist0 : Statement .dist0 := fun _ => of_decide_eq_true rfl
theorem dist1 : Statement .dist1 := fun _ => of_decide_eq_true rfl
theorem dist2 : Statement .dist2 := fun _ => of_decide_eq_true rfl
theorem dist3 : Statement .dist3 := fun _ => of_decide_eq_true rfl
theorem dist4 : Statement .dist4 := fun _ => of_decide_eq_true rfl
theorem dist5 : Statement .dist5 := fun _ => of_decide_eq_true rfl
theorem dist6 : Statement .dist6 := fun _ => of_decide_eq_true rfl
theorem dist7 : Statement .dist7 := fun _ => of_decide_eq_true rfl
theorem dist8 : Statement .dist8 := fun _ => of_decide_eq_true rfl
theorem dist9 : Statement .dist9 := fun _ => of_decide_eq_true rfl
theorem dist10 : Statement .dist10 := fun _ => of_decide_eq_true rfl
theorem dist11 : Statement .dist11 := fun _ => of_decide_eq_true rfl
theorem dist12 : Statement .dist12 := fun _ => of_decide_eq_true rfl
theorem dist13 : Statement .dist13 := fun _ => of_decide_eq_true rfl
theorem dist14 : Statement .dist14 := fun _ => of_decide_eq_true rfl
theorem dist15 : Statement .dist15 := fun _ => of_decide_eq_true rfl
theorem dist16 : Statement .dist16 := fun _ => of_decide_eq_true rfl
theorem dist17 : Statement .dist17 := fun _ => of_decide_eq_true rfl
theorem dist18 : Statement .dist18 := fun _ => of_decide_eq_true rfl
theorem dist19 : Statement .dist19 := fun _ => of_decide_eq_true rfl
theorem dist20 : Statement .dist20 := fun _ => of_decide_eq_true rfl
theorem dist21 : Statement .dist21 := fun _ => of_decide_eq_true rfl
theorem dist22 : Statement .dist22 := fun _ => of_decide_eq_true rfl
theorem dist23 : Statement .dist23 := fun _ => of_decide_eq_true rfl
theorem dist24 : Statement .dist24 := fun _ => of_decide_eq_true rfl
theorem dist25 : Statement .dist25 := fun _ => of_decide_eq_true rfl
theorem dist26 : Statement .dist26 := fun _ => of_decide_eq_true rfl
theorem dist27 : Statement .dist27 := fun _ => of_decide_eq_true rfl
theorem dist28 : Statement .dist28 := fun _ => of_decide_eq_true rfl
theorem dist29 : Statement .dist29 := fun _ => of_decide_eq_true rfl
theorem dReserved (d : BitVec 5) : Statement (.dReserved d) := by
  intro _
  have := d.isLt
  simp only [encode, Instr.format, Format.width]
  omega
theorem ztrl (adler : Word) : Statement (.ztrl adler) := by
  intro _
  have := adler.isLt
  simp only [encode, Instr.format, Format.width]
  omega
theorem filtNone : Statement .filtNone := fun _ => of_decide_eq_true rfl
theorem filtSub : Statement .filtSub := fun _ => of_decide_eq_true rfl
theorem filtUp : Statement .filtUp := fun _ => of_decide_eq_true rfl
theorem filtAvg : Statement .filtAvg := fun _ => of_decide_eq_true rfl
theorem filtPaeth : Statement .filtPaeth := fun _ => of_decide_eq_true rfl
theorem filtReserved (ft : Byte) : Statement (.filtReserved ft) := by
  intro _
  have := ft.isLt
  simp only [encode, Instr.format, Format.width]
  omega

end Sys2Proof.Laws.EncodingFits
end

