-- ==== Sys2Proof/Tests/Slice0.lean ====
section
/-! SUPPORT. Tests with expected results from the spec's rules, examples and test vectors, and for every statement with
hypotheses a witness that meets them. -/

namespace Sys2Proof.Tests

open Sys2Proof.Machine Sys2Proof.Statements

set_option Elab.async false

/-! ### Ill-formed terms are refused -/

theorem test_wf_reservedCmd_low : (Instr.reservedCmd 3).wf = false := by decide
theorem test_wf_reservedCmd_high : (Instr.reservedCmd 15).wf = false := by decide
theorem test_wf_llReserved_low : (Instr.llReserved 285).wf = false := by decide
theorem test_wf_llReserved_high : (Instr.llReserved 288).wf = false := by decide
theorem test_wf_dReserved : (Instr.dReserved 29).wf = false := by decide
theorem test_wf_filtReserved : (Instr.filtReserved 4).wf = false := by decide

/-! ### Words written out from the spec's encodings -/

/-- OP is w[3:0] and w[31:4] is ignored (30_encoding.md R300, R301). -/
theorem test_decode_cmd_ignores_high_bits : decode .cmd 0b1010_0000_0010 = .ok .unfilter := by decide

/-- 0x0 NOP, 0x3 DECODE, 0xF ABORT, 0x4 to 0xE reserved (30_encoding.md R301). -/
theorem test_decode_cmd : decode .cmd 0x0 = .ok .nop ∧ decode .cmd 0x1 = .ok .inflate ∧ decode .cmd 0x3 = .ok .decode
    ∧ decode .cmd 0xF = .ok .abort ∧ decode .cmd 0x4 = .ok (.reservedCmd 4) ∧ decode .cmd 0xE = .ok (.reservedCmd 14) := by
  decide

/-- CMF is H[15:8] (30_encoding.md R310). -/
theorem test_decode_zhdr : decode .zhdr 0b0111_1000_0000_0001 = .ok (.zhdr 0x78 0x01) := by decide

/-- BFINAL is h[0], BTYPE is h[2:1] (30_encoding.md R320): stream byte 07 is BFINAL 1, BTYPE 3 (43_inflate.md R723),
stream byte 03 is BFINAL 1, BTYPE 1 (R724). -/
theorem test_decode_blkhdr : decode .blkhdr 0b000 = .ok (.blkStored false) ∧ decode .blkhdr 0b011 = .ok (.blkFixed true)
    ∧ decode .blkhdr 0b100 = .ok (.blkDynamic false) ∧ decode .blkhdr 0b111 = .ok (.blkReserved true) := by
  decide

/-- "LEN = 5, NLEN = 0xFFFB" is the word 0xFFFB0005 (43_inflate.md R721). -/
theorem test_decode_stored : decode .stored 0xFFFB0005 = .ok (.stored 5 0xFFFB) := by decide

/-- "v = 0x3C1D gives HLIT = 29 + 257, HDIST = 0 + 1, HCLEN = 15 + 4" (43_inflate.md R705). -/
theorem test_decode_dynhdr : decode .dynhdr 0b1111_00000_11101 = .ok (.dynhdr 29 0 15) := by decide

theorem test_decode_clsym : decode .clsym 15 = .ok (.clsymLen 15) ∧ decode .clsym 16 = .ok .clsym16
    ∧ decode .clsym 17 = .ok .clsym17 ∧ decode .clsym 18 = .ok .clsym18 ∧ decode .clsym 19 = .error .noClSymbol := by
  decide

theorem test_decode_llsym : decode .llsym 255 = .ok (.lit 255) ∧ decode .llsym 256 = .ok .eob
    ∧ decode .llsym 257 = .ok .len257 ∧ decode .llsym 285 = .ok .len285 ∧ decode .llsym 287 = .ok (.llReserved 287)
    ∧ decode .llsym 288 = .error .noLlSymbol := by
  decide

theorem test_decode_dsym : decode .dsym 0 = .ok .dist0 ∧ decode .dsym 29 = .ok .dist29
    ∧ decode .dsym 30 = .ok (.dReserved 30) ∧ decode .dsym 32 = .error (.tooWide .dsym) := by
  decide

/-- The trailer 00 44 00 43 (95_test_vectors.md V1). -/
theorem test_decode_ztrl : decode .ztrl 0x00440043 = .ok (.ztrl 0x00440043) := by decide

theorem test_decode_filt : decode .filt 0 = .ok .filtNone ∧ decode .filt 1 = .ok .filtSub ∧ decode .filt 2 = .ok .filtUp
    ∧ decode .filt 3 = .ok .filtAvg ∧ decode .filt 4 = .ok .filtPaeth ∧ decode .filt 5 = .ok (.filtReserved 5)
    ∧ decode .filt 255 = .ok (.filtReserved 255) := by
  decide

/-! ### Huffman trees -/

/-- "codes s0 = `10`, s1 = `0`, s2 = `110`, s3 = `111`" (42_huffman.md R630). -/
theorem test_codes : canonicalCodes [2, 1, 3, 3] = [0b10, 0b0, 0b110, 0b111] := by decide

/-- "index mod 8 = 3 is {1, 3, 2}; index mod 8 = 7 is {1, 3, 3}" (42_huffman.md R630). -/
theorem test_short_entries : (makeTree [2, 1, 3, 3]).entry 510 = .leaf 1 1 ∧ (makeTree [2, 1, 3, 3]).entry 5 = .leaf 2 0
    ∧ (makeTree [2, 1, 3, 3]).entry 11 = .leaf 3 2 ∧ (makeTree [2, 1, 3, 3]).entry 15 = .leaf 3 3 := by
  decide +kernel

/-- "T.tab[511] = {1, 10, 512}, T.tab[512] = {1, 10, 9}, T.tab[513] = {1, 10, 10}, T.tab[255] = {1, 9, 8};
T.size = 514" (42_huffman.md R630). -/
theorem test_long_entries :
    let t := makeTree [1, 2, 3, 4, 5, 6, 7, 8, 9, 10, 10]
    t.entry 511 = .link 10 512 ∧ t.entry 512 = .leaf 10 9 ∧ t.entry 513 = .leaf 10 10 ∧ t.entry 255 = .leaf 9 8
      ∧ t.size = 514 := by
  decide +kernel

/-- "in the secondary table the even entries are {1, 10, 9}, index 512 + 1 is {1, 11, 10}, ... 512 + 63 is
{1, 15, 15}" (42_huffman.md R630). -/
theorem test_deep_entries :
    let t := makeTree [1, 2, 3, 4, 5, 6, 7, 8, 9, 10, 11, 12, 13, 14, 15, 15]
    t.entry 511 = .link 15 512 ∧ t.entry 514 = .leaf 10 9 ∧ t.entry 513 = .leaf 11 10 ∧ t.entry 543 = .leaf 15 14
      ∧ t.entry 575 = .leaf 15 15 ∧ t.size = 576 := by
  decide +kernel

/-- "[1, 1, 1] ... and [1, 2] ... fail Build; [] (all zero) and [0, 0, 5] (one symbol) are accepted"
(42_huffman.md R630). -/
theorem test_build : accepted [1, 1, 1] = false ∧ accepted [1, 2] = false ∧ accepted [] = true
    ∧ accepted [0, 0, 5] = true := by
  decide

/-- "256..279 → `0000000`..; 0..143 → `00110000`..; 280..287 → `11000000`..; 144..255 → `110010000`..`111111111`"
(43_inflate.md R704). -/
theorem test_fixed_codes :
    let c := canonicalCodes fixedLlLens
    c.getD 256 0 = 0 ∧ c.getD 279 0 = 0b0010111 ∧ c.getD 0 0 = 0b00110000 ∧ c.getD 143 0 = 0b10111111
      ∧ c.getD 280 0 = 0b11000000 ∧ c.getD 287 0 = 0b11000111 ∧ c.getD 144 0 = 0b110010000
      ∧ c.getD 255 0 = 0b111111111 := by
  decide +kernel

/-- "distance d → the 5-bit value d" (43_inflate.md R704). -/
theorem test_fixed_distances : canonicalCodes fixedDLens = List.range 32 := by decide +kernel

/-! ### One step, the element placed where the engine takes its next -/

/-- What a step leaves, if it answers a next state. -/
def after (o : Host.Outcome State Fault Refusal) (p : State → Bool) : Bool :=
  match o with
  | .next t => p t
  | .fault _ | .refused _ => false

/-- The step of a placed element. -/
def stepOf (f : Format) (v : Nat) (p : State → Bool) : Bool := after (step (placeElement f v State.reset)) p

/-- A literal goes to the next output byte (44_symbols.md R801, R807). -/
theorem test_step_lit : stepOf .llsym 0x41 (fun t => t.outCount == 1 && t.mem.read 0x20000 == 0x41 && t.bp == 1) = true := by
  decide +kernel

/-- Symbol 284 with extra 31 has length 258; here the extra bits are 0, so 227 (44_symbols.md R857). -/
theorem test_step_len284 : stepOf .llsym 284 (fun t => t.matchLen == some 227 && t.bp == 6) = true := by decide +kernel

/-- "raise Error(LL_RESERVED_SYMBOL, s)" (44_symbols.md R805). -/
theorem test_step_llReserved : stepOf .llsym 287 (fun t => t.report.code == 0x42B && t.report.info == 287
    && t.report.bitpos == 1 && t.status.word == 4) = true := by
  decide +kernel

/-- A distance of 1 with no output yet is too far (44_symbols.md R891). -/
theorem test_step_dist0 : stepOf .dsym 0 (fun t => t.report.code == 0x42E && t.report.info == 1) = true := by
  decide +kernel

theorem test_step_dReserved : stepOf .dsym 30 (fun t => t.report.code == 0x42D && t.report.info == 30) = true := by
  decide +kernel

/-- The final block's end (43_inflate.md R726). -/
theorem test_step_eob : stepOf .llsym 256 (fun t => t.engine == .blockHeader) = true := by decide +kernel

/-- "at i = 0 ... CL_REPEAT_NO_PREV" (43_inflate.md R708). -/
theorem test_step_clsym16 : stepOf .clsym 16 (fun t => t.report.code == 0x427) = true := by decide +kernel

theorem test_step_clsym18 : stepOf .clsym 18 (fun t => t.lens == List.replicate 11 0 && t.bp == 8) = true := by
  decide +kernel

/-- A stored header with LEN + NLEN ≠ 0xFFFF: "LEN = 5, NLEN = 0xFFFB fails with ERR_INFO = 0xFFFB0005"
(43_inflate.md R721). -/
theorem test_step_stored_nlen : stepOf .stored 0xFFFB0005 (fun t => t.report.code == 0x422
    && t.report.info == 0xFFFB0005 && t.report.bitpos == 32) = true := by
  decide +kernel

/-- SRC = 01 05 00, the header read: LEN is there and NLEN is not. The cause is that of 90_conflicts.md C3, the position
the one of T-BR-5, ERR_INFO the LEN of 60_exceptions.md R1101 (log entry 24). -/
theorem test_step_stored_cut :
    after (step { running .inflate .inflate .stored { placedParams with src := ⟨0x1000, 3⟩ } [0x01, 0x05, 0x00] State.reset with bp := 8 })
      (fun t => t.report.code == 0x541 && t.report.info == 5 && t.report.bitpos == 8 && t.status.err) = true := by
  decide +kernel

/-- "CMF: CM = 8, CINFO = 7 ... 0x7801 = 30721 = 31 * 991, so the header check passes" (95_test_vectors.md V1). -/
theorem test_step_zhdr : stepOf .zhdr 0x7801 (fun t => t.engine == .blockHeader && t.bp == 16) = true := by
  decide +kernel

/-- The first row of V3: CMF 79 is ZHDR_CM, info 0x7901 (95_test_vectors.md V3). -/
theorem test_step_zhdr_cm : stepOf .zhdr 0x7901 (fun t => t.report.code == 0x314 && t.report.info == 0x7901
    && t.report.bitpos == 0) = true := by
  decide +kernel

/-- "stream byte `07` at bp = 0 ... fails with ERR_BITPOS = 3" (43_inflate.md R723). -/
theorem test_step_blkReserved : stepOf .blkhdr 7 (fun t => t.report.code == 0x421 && t.report.bitpos == 3) = true := by
  decide +kernel

/-- A stored block goes on at the byte boundary (43_inflate.md R720). -/
theorem test_step_blkStored : stepOf .blkhdr 1 (fun t => t.engine == .stored && t.bp == 8 && t.bfinal) = true := by
  decide +kernel

/-- A header of 14 zero bits and four 3-bit fields of zeros: no code-length symbol is used, which Build accepts
(43_inflate.md R705, R703; 42_huffman.md R601). -/
theorem test_step_dynhdr : stepOf .dynhdr 0 (fun t => t.hlit == 257 && t.hdist == 1 && t.hclen == 4 && t.codesNext
    && t.bp == 26) = true := by
  decide +kernel

/-- FILT 0 over a 1 x 1 image: the pixel is the scanline's byte and the command completes (45_filter.md R910,
40_commands.md R404). -/
theorem test_step_filtNone : stepOf .filt 0 (fun t => t.status.word == 2 && t.mem.read 0x20000 == 0) = true := by
  decide +kernel

/-- FILTER_TYPE, with the offset of the FILT byte and ERR_BITPOS 0 (45_filter.md R915). -/
theorem test_step_filtReserved : stepOf .filt 5 (fun t => t.report.code == 0x431 && t.report.info == 0
    && t.report.bitpos == 0) = true := by
  decide +kernel

/-- A reserved OP when idle: BAD_CMD with the OP (40_commands.md R445). -/
theorem test_step_reservedCmd : stepOf .cmd 9 (fun t => t.report.code == 0x601 && t.report.info == 9
    && t.status.word == 4) = true := by
  decide +kernel

/-- NOP when idle does nothing (40_commands.md R440). -/
theorem test_step_nop : stepOf .cmd 0 (fun t => t == State.reset) = true := by decide +kernel

/-- A word of the opcode table, read by its size, runs as its own instruction right after reset (log entry 13). -/
theorem test_withFetchWord : after (step (State.reset.withFetchWord 16 0x41)) (fun t => t.mem.read 0x20000 == 0x41) = true
    ∧ decodeTableWord 16 0x41 = some (.lit 0x41) := by
  decide +kernel

/-! ### Filters, images and checks -/

/-- The example of 45_filter.md R911: filtering by Sub with bw 1 gives running sums modulo 256. -/
theorem test_recon_sub : reconBytes predSub 1 none [0x10, 0x05, 0xFF] = [0x10, 0x15, 0x14] := by decide

/-- "rows `F0: 10 20`, `F2: 01 02` give `10 20`, `11 22`" (45_filter.md R912). -/
theorem test_recon_up : reconBytes predUp 1 (some [0x10, 0x20]) [0x01, 0x02] = [0x11, 0x22] := by decide

/-- "src = 01 10 05 04 01 02: DST = 10 15 11 17" (45_filter.md R920): the second row, by Paeth. -/
theorem test_recon_paeth : reconBytes predSub 1 none [0x10, 0x05] = [0x10, 0x15]
    ∧ reconBytes paeth 1 (some [0x10, 0x15]) [0x01, 0x02] = [0x11, 0x17] := by
  decide

/-- "`F1: 01 02 03 01 01 01` gives `01 02 03 02 03 04`" with bw = 3 (45_filter.md R911). -/
theorem test_recon_sub_rgb : reconBytes predSub 3 none [1, 2, 3, 1, 1, 1] = [1, 2, 3, 2, 3, 4] := by decide

/-- "rows `F0: 10 FF`, `F3: 00 00` give `10 FF`, `08 83`" (45_filter.md R913). -/
theorem test_recon_avg : reconBytes predAvg 1 (some [0x10, 0xFF]) [0x00, 0x00] = [0x08, 0x83] := by decide

/-- "Paeth(10, 20, 15) = 15; Paeth(5, 5, 5) = 5; Paeth(1, 2, 0) = 2; Paeth(200, 10, 100) = 100; Paeth(0, 16, 0) = 16"
(45_filter.md R906). -/
theorem test_paeth : paeth 10 20 15 = 15 ∧ paeth 5 5 5 = 5 ∧ paeth 1 2 0 = 2 ∧ paeth 200 10 100 = 100
    ∧ paeth 0 16 0 = 16 := by
  decide

/-- The rows of V4: pass dimensions of a 13 x 17 image and FILT_SIZE of gray 8-bit images (95_test_vectors.md V4). -/
theorem test_passes : (List.range 7).map (fun q => (passWidth 13 q, passHeight 17 q))
    = [(2, 3), (2, 3), (4, 2), (3, 5), (7, 4), (6, 9), (13, 8)] := by
  decide

theorem test_filtSize : ({ Params.zero with imgW := 13, imgH := 17, bitDepth := 8, interlace := 1 } : Params).filtSize = 255
    ∧ ({ Params.zero with imgW := 1, imgH := 9, bitDepth := 8, interlace := 1 } : Params).filtSize = 18 := by
  decide +kernel

/-! ### States for the witnesses -/

/-- Idle, configured for the INFLATE of `01 01 00 FE FF 41` to one byte. -/
def inflateReady : State :=
  { State.reset with
    regs := { Params.zero with src := ⟨0x1000, 6⟩, dst := ⟨0x20000, 1⟩ }
    mem := Memory.place [] 0x1000 [0x01, 0x01, 0x00, 0xFE, 0xFF, 0x41] }

/-- The same with the zlib-style wrapper. -/
def wrappedReady : State := { inflateReady with regs := { inflateReady.regs with zlib := true } }

/-- The configuration of a 1 x 1 gray image of 8 bits. -/
def grayParams : Params :=
  { Params.zero with
    src := ⟨0x1000, 2⟩, dst := ⟨0x20000, 1⟩, work := ⟨0x40000, 2⟩, imgW := 1, imgH := 1, bitDepth := 8 }

/-- Idle, configured for the UNFILTER of a 1 x 1 gray image. -/
def unfilterReady : State := { State.reset with regs := grayParams, mem := Memory.place [] 0x1000 [0x00, 0x42] }

/-- Idle, configured for a DECODE of a 1 x 1 gray image. -/
def decodeReady : State := { State.reset with regs := grayParams }

/-- INFLATE started: the engine stands at the block header. -/
def inflating : State := startCommand .inflate inflateReady

/-- UNFILTER started: the engine stands at the only row. -/
def unfiltering : State := startCommand .unfilter unfilterReady

/-- An access the host delivers next. -/
def deliverTo (s : State) (a : HostAccess) : State := { s with hostQueue := [a], sched := [.host] }

theorem inflateReady_inv : Invariant inflateReady :=
  ((inv_reset (m := []) rfl 0 [] [] 0).withMem (m := inflateReady.mem) (by decide +kernel)).withConfig rfl _ _

theorem unfilterReady_inv : Invariant unfilterReady :=
  ((inv_reset (m := []) rfl 0 [] [] 0).withMem (m := unfilterReady.mem) (by decide +kernel)).withConfig rfl _ _

theorem inflating_inv : Invariant inflating := inflateReady_inv.startCommand _

theorem unfiltering_inv : Invariant unfiltering := unfilterReady_inv.startCommand _

theorem deliverTo_delivers (s : State) (a : HostAccess) : HostDelivers (deliverTo s a) a [] := ⟨.inl rfl, rfl⟩

theorem deliverTo_inv {s : State} (h : Invariant s) (a : HostAccess) : Invariant (deliverTo s a) :=
  h.withBus [a] [.host] s.hostData s.draws

/-- A placed element: the engine is to move next, and it stands where the format is read. -/
theorem placed_engineNext {f : Format} (hf : f ≠ .cmd) (v : Nat) : EngineNext (placeElement f v State.reset) := by
  cases f <;> first | exact absurd rfl hf | exact ⟨rfl, rfl, rfl, nofun⟩

/-! ### Witnesses: for each statement with hypotheses, states and operands that meet them -/

theorem witness_DecodeOfEncode : (Instr.reservedCmd 4).wf = true ∧ (Instr.reservedCmd 14).wf = true
    ∧ (Instr.llReserved 287).wf = true ∧ (Instr.dReserved 31).wf = true ∧ (Instr.filtReserved 255).wf = true := by
  decide

/-- The two ends of the reserved commands, and the first reserved filter type. -/
theorem witness_ValuesSpell : (0xFFFFFFF4 : Word).toNat % 16 = 4 ∧ (0xE : Word).toNat % 16 = 14
    ∧ ((0xFFFFFFF0 : Word).toNat % 16, Instr.nop) ∈ [(0, Instr.nop), (1, .inflate)] ∧ 5 ≤ (5 : Byte).toNat := by
  decide

theorem witness_EncodeOfDecode : decode .llsym 287 = .ok (.llReserved 287) ∧ decode .cmd 0xFFFFFFFF = .ok .abort := by
  decide

theorem witness_OneRowSelectsEachValue : decode .cmd 0xE = .ok (.reservedCmd 14)
    ∧ decode .blkhdr 7 = .ok (.blkReserved true) ∧ decode .clsym 18 = .ok .clsym18
    ∧ decode .llsym 287 = .ok (.llReserved 287) ∧ decode .dsym 31 = .ok (.dReserved 31)
    ∧ decode .filt 255 = .ok (.filtReserved 255) ∧ (31 : Nat) < 2 ^ Format.clsym.width
    ∧ (511 : Nat) < 2 ^ Format.llsym.width := by
  decide

/-- The field elements, the symbols, the wrapper's elements and a filter byte. -/
theorem witness_EngineStepRunsDecoded_fields :
    (let s := placeElement .blkhdr 7 State.reset
     EngineNext s ∧ s.engine = .blockHeader ∧ s.bp.toNat + 3 ≤ totalBits s ∧ decode .blkhdr (peek s 3) = .ok (.blkReserved true))
    ∧ (let s := placeElement .stored 0xFFFA0005 State.reset
       EngineNext s ∧ s.engine = .stored ∧ s.bp.toNat + 32 ≤ totalBits s
        ∧ decode .stored (peek s 32) = .ok (.stored 5 0xFFFA))
    ∧ (let s := placeElement .dynhdr 0x3C1D State.reset
       EngineNext s ∧ s.engine = .dynHeader ∧ s.codesNext = false ∧ s.bp.toNat + 14 ≤ totalBits s
        ∧ decode .dynhdr (peek s 14) = .ok (.dynhdr 29 0 15)) := by
  refine ⟨⟨placed_engineNext (by decide) _, ?_⟩, ⟨placed_engineNext (by decide) _, ?_⟩,
    ⟨placed_engineNext (by decide) _, ?_⟩⟩ <;> decide +kernel

theorem witness_EngineStepRunsDecoded_symbols :
    (let s := placeElement .clsym 18 State.reset
     EngineNext s ∧ s.engine = .dynHeader ∧ s.codesNext = true ∧ s.lens.length < s.hlit + s.hdist
      ∧ decodeSym s.cl .clInvalidSymbol (takeTurn s) = .sym 18 (skip 1 (takeTurn s)) ∧ decode .clsym 18 = .ok .clsym18)
    ∧ (let s := placeElement .llsym 256 State.reset
       EngineNext s ∧ s.engine = .symbols ∧ s.matchLen = none
        ∧ decodeSym s.ll .llInvalidSymbol (takeTurn s) = .sym 256 (skip 1 (takeTurn s)) ∧ decode .llsym 256 = .ok .eob)
    ∧ (let s := placeElement .dsym 29 State.reset
       EngineNext s ∧ s.engine = .symbols ∧ s.matchLen ≠ none
        ∧ decodeSym s.d .dInvalidSymbol (takeTurn s) = .sym 29 (skip 1 (takeTurn s)) ∧ decode .dsym 29 = .ok .dist29) := by
  refine ⟨⟨placed_engineNext (by decide) _, ?_⟩, ⟨placed_engineNext (by decide) _, ?_⟩,
    ⟨placed_engineNext (by decide) _, ?_⟩⟩ <;> decide +kernel

theorem witness_EngineStepRunsDecoded_bytes :
    (let s := placeElement .zhdr 0x7801 State.reset
     EngineNext s ∧ s.engine = .zhdr ∧ 2 ≤ s.snap.src.len.toNat
      ∧ decode .zhdr ((readByte s s.snap.src 0).toNat * 256 + (readByte s s.snap.src 1).toNat) = .ok (.zhdr 0x78 0x01))
    ∧ (let s := placeElement .ztrl 0x00440043 State.reset
       EngineNext s ∧ s.engine = .ztrailer ∧ (align s).bp.toNat / 8 + 4 ≤ s.snap.src.len.toNat
        ∧ decode .ztrl
            ((((alignedByte (align s) 0).toNat * 256 + (alignedByte (align s) 1).toNat) * 256
              + (alignedByte (align s) 2).toNat) * 256 + (alignedByte (align s) 3).toNat) = .ok (.ztrl 0x00440043))
    ∧ (let s := placeElement .filt 4 State.reset
       EngineNext s ∧ s.engine = .reconstruct
        ∧ decode .filt (readByte s (filtRegion s) (rowOffset s)).toNat = .ok .filtPaeth) := by
  refine ⟨⟨placed_engineNext (by decide) _, ?_⟩, ⟨placed_engineNext (by decide) _, ?_⟩,
    ⟨placed_engineNext (by decide) _, ?_⟩⟩ <;> decide +kernel

/-- A field of each kind one bit or more past the end of SRC, LEN in SRC and not, a stream bit 1 where the tree's one code is 0, a SRC of
one byte for a header and of three for a trailer. -/
theorem witness_EngineStepRunsDecoded_fails :
    (let s : State := { inflating with bp := 46 }; EngineNext s ∧ totalBits s < s.bp.toNat + 3)
    ∧ (let s : State := { inflating with engine := .stored, bp := 24 }
       EngineNext s ∧ totalBits s < s.bp.toNat + 32 ∧ s.bp.toNat + 16 ≤ totalBits s)
    ∧ (let s : State := { inflating with engine := .stored, bp := 40 }; EngineNext s ∧ totalBits s < s.bp.toNat + 16)
    ∧ (let s : State := { inflating with engine := .dynHeader, bp := 35 }
       EngineNext s ∧ s.codesNext = false ∧ totalBits s < s.bp.toNat + 14)
    ∧ (let s : State := { placeElement .clsym 18 State.reset with mem := [(0x1000, 1)] }
       EngineNext s ∧ decodeSym s.cl .clInvalidSymbol (takeTurn s) = .err .clInvalidSymbol)
    ∧ (let s : State := { placeElement .llsym 256 State.reset with mem := [(0x1000, 1)] }
       EngineNext s ∧ decodeSym s.ll .llInvalidSymbol (takeTurn s) = .err .llInvalidSymbol)
    ∧ (let s : State := { placeElement .dsym 29 State.reset with mem := [(0x1000, 1)] }
       EngineNext s ∧ decodeSym s.d .dInvalidSymbol (takeTurn s) = .err .dInvalidSymbol)
    ∧ (let s := placeElement .zhdr 0x7801 State.reset
       let u : State := { s with snap := { s.snap with src := ⟨0x1000, 1⟩ } }
       EngineNext u ∧ u.engine = .zhdr ∧ u.snap.src.len.toNat < 2)
    ∧ (let s := placeElement .ztrl 0x00440043 State.reset
       let u : State := { s with snap := { s.snap with src := ⟨0x1000, 3⟩ } }
       EngineNext u ∧ u.engine = .ztrailer ∧ u.snap.src.len.toNat < (align u).bp.toNat / 8 + 4) := by
  unfold EngineNext
  decide +kernel

/-- Peek past the end of SRC: the last bit of the stream and the first one behind it. -/
theorem witness_BitReader :
    (let s : State := { inflating with bp := 47 }
     0 < 2 ∧ 1 < 2 ∧ s.bp.toNat + 0 < 8 * s.snap.src.len.toNat ∧ ¬s.bp.toNat + 1 < 8 * s.snap.src.len.toNat)
    ∧ inflating.snap.src.base.toNat + inflating.snap.src.len.toNat ≤ memorySize ∧ 5 < inflating.snap.src.len.toNat := by
  decide +kernel

theorem witness_HostStepRunsCommand : HostDelivers (deliverTo inflateReady (.regWrite 0x08 4 0xFFFFFFF1))
    (.regWrite 0x08 4 0xFFFFFFF1) [] := deliverTo_delivers _ _

theorem witness_BusyIgnoresCommands : inflating.status.busy = true ∧ (0xF : Word).toNat % 16 = 15
    ∧ (0x1 : Word).toNat % 16 ≠ 15 := by
  decide +kernel

theorem witness_InflateAndDecodeStart :
    (Instr.inflate, Command.inflate) ∈ startRows ∧ inflateReady.status.busy = false
    ∧ startFailure .inflate inflateReady.regs = none ∧ (Instr.decode, Command.decode) ∈ startRows
    ∧ decodeReady.status.busy = false ∧ startFailure .decode decodeReady.regs = none := by
  decide +kernel

theorem witness_UnfilterStarts : unfilterReady.status.busy = false ∧ startFailure .unfilter unfilterReady.regs = none := by
  decide +kernel

/-- A region that wraps by one byte, a color mode that is not legal, a filtered buffer one byte too long. -/
theorem witness_FailedStartChecks :
    startFailure .inflate { Params.zero with src := ⟨0xFFFFFFFF, 2⟩ } = some (.cfgRegionWrap, 1)
    ∧ startFailure .unfilter { grayParams with colorMode := 1 } = some (.fmtColorMode, 1)
    ∧ startFailure .decode { grayParams with work := ⟨0x40000, 3⟩ } = some (.cfgSizeMismatch, 3)
    ∧ (Instr.inflate, Command.inflate) ∈ startRows ∧ (Instr.unfilter, Command.unfilter) ∈ startRows
    ∧ (Instr.decode, Command.decode) ∈ startRows
    ∧ ({ State.reset with regs := { Params.zero with src := ⟨0xFFFFFFFF, 2⟩ } } : State).status.busy = false := by
  decide +kernel

theorem witness_ReservedCommandElement : 4 ≤ (4 : BitVec 4).toNat ∧ (14 : BitVec 4).toNat ≤ 14
    ∧ (0x00000014 : Word).toNat % 16 = (4 : BitVec 4).toNat
    ∧ State.reset.status.busy = false ∧ State.reset.status.stage = .idle ∧ inflating.status.busy = true := by
  decide +kernel

theorem witness_NopElement : State.reset.status.busy = false ∧ inflating.status.busy = true
    ∧ (0xFFFFFFF0 : Word).toNat % 16 = 0 := by
  decide +kernel

/-- An idle machine, a running command with no ABORT pending, one with an ABORT pending, and one whose steps are used
up. -/
theorem witness_AbortElement : State.reset.status.busy = false
    ∧ (inflating.status.busy = true ∧ inflating.abortIn = none)
    ∧ (let s : State := { inflating with abortIn := some 3 }; s.status.busy = true ∧ s.abortIn ≠ none)
    ∧ ∃ s : State, Invariant s ∧ s.status.busy = true ∧ s.raceIn = none ∧ s.abortIn = some 0
        ∧ s.sched.head? ≠ some .host :=
  ⟨rfl, by decide +kernel, by decide +kernel, _, inflating_inv.withAbort rfl (some 0) 0, rfl, rfl, rfl, nofun⟩

theorem witness_AbortedCommandEnds : ∃ s : State, Invariant s ∧ s.status.busy = true ∧ s.raceIn = none
    ∧ s.abortIn = some 2 ∧ s.sched = [] :=
  ⟨_, inflating_inv.withAbort rfl (some 2) 0, rfl, rfl, rfl, rfl⟩

theorem witness_CompletionEndsCommand : inflating.cmd ≠ .decode ∧ decodeReady.mem.wf = true
    ∧ decodeReady.regs.work.inside ∧ decodeReady.regs.work.has 0x40002 = false := by
  refine ⟨by decide +kernel, by decide +kernel, ?_, by decide +kernel⟩
  unfold Region.inside
  decide +kernel

/-- The four ends of a stream. -/
theorem witness_StreamEndStep :
    (let s : State := { inflating with engine := .streamEnd }
     EngineNext s ∧ s.outCount.toNat < outLimit s)
    ∧ (let s : State := { startCommand .inflate wrappedReady with engine := .streamEnd, outCount := 1 }
       EngineNext s ∧ outLimit s ≤ s.outCount.toNat ∧ s.snap.zlib = true)
    ∧ (let s : State := { inflating with engine := .streamEnd, outCount := 1 }
       EngineNext s ∧ outLimit s ≤ s.outCount.toNat ∧ s.snap.zlib = false ∧ s.cmd = .inflate)
    ∧ (let s : State := { startCommand .decode decodeReady with engine := .streamEnd, outCount := 2 }
       EngineNext s ∧ outLimit s ≤ s.outCount.toNat ∧ s.snap.zlib = false ∧ s.cmd = .decode ∧ s.snap.imgW ≠ 0
        ∧ s.snap.imgH ≠ 0) := by
  unfold EngineNext
  decide +kernel

theorem witness_RaiseErrorEndsCommand : State.reset.status.stage = .idle ∧ inflating.mem.wf = true
    ∧ (∀ r ∈ writtenRegions inflating.cmd inflating.snap, r.base.toNat + r.len.toNat ≤ memorySize)
    ∧ (∀ r ∈ writtenRegions inflating.cmd inflating.snap, r.has 0x1FFFF = false ∧ r.has 0x20001 = false) := by
  decide +kernel

theorem witness_ErrorKeepsOtherMemory : inflating.mem.wf = true
    ∧ (∀ r ∈ writtenRegions inflating.cmd inflating.snap, r.base.toNat + r.len.toNat ≤ memorySize)
    ∧ (∀ r ∈ writtenRegions inflating.cmd inflating.snap, r.has 0x1FFFF = false ∧ r.has 0x20001 = false)
    ∧ State.reset.status.stage = .idle
    ∧ Invariant inflating ∧ inflating.status.busy = true ∧ 5 < inflating.snap.src.len.toNat :=
  ⟨by decide +kernel, by decide +kernel, by decide +kernel, rfl, inflating_inv, rfl, by decide +kernel⟩

theorem witness_InterruptOutput : State.reset.status.busy = false ∧ (0x2 : Word).getLsbD 1 = true := by decide

theorem witness_ResetRegisters : (0x00 : BitVec 8).toNat % 4 = 0 ∧ (0xFC : BitVec 8).toNat % 4 = 0 := by decide

theorem witness_RegisterReadBack : (0x04, 0x3) ∈ configMasks ∧ (0x44, 0x00FFFFFF) ∈ configMasks
    ∧ (0x24 : Nat) ≠ 0x04
    ∧ HostDelivers (deliverTo State.reset (.regWrite 0x44 4 0x00010802)) (.regWrite 0x44 4 0x00010802) []
    ∧ (deliverTo State.reset (.regWrite 0x44 4 0x00010802)).status.busy = false
    ∧ HostDelivers (deliverTo inflating (.regRead 0x04 4)) (.regRead 0x04 4) []
    ∧ ∃ t, Invariant inflating ∧ inflating.status.busy = true ∧ inflating.sched.head? ≠ some .host
        ∧ step inflating = .next t :=
  ⟨by decide, by decide, by decide, deliverTo_delivers _ _, by decide +kernel, deliverTo_delivers _ _, _,
    inflating_inv, rfl, nofun, rfl⟩

/-- Reads of both halves of ERR_BITPOS and of OUT_COUNT while idle, of CTRL while BUSY, and of the first and last
reserved offset. -/
theorem witness_RegisterReadBack_values :
    (let s := deliverTo State.reset (.regRead 0x18 4)
     HostDelivers s (.regRead 0x18 4) [] ∧ (0x18, 0) ∈ readValues s ∧ s.status.busy = false)
    ∧ (let s := deliverTo State.reset (.regRead 0x1C 4)
       HostDelivers s (.regRead 0x1C 4) [] ∧ (0x1C, 0) ∈ readValues s ∧ s.status.busy = false)
    ∧ (let s := deliverTo State.reset (.regRead 0x20 4)
       HostDelivers s (.regRead 0x20 4) [] ∧ (0x20, 0) ∈ readValues s ∧ s.status.busy = false)
    ∧ (let s := deliverTo inflating (.regRead 0x28 4)
       HostDelivers s (.regRead 0x28 4) [] ∧ (0x28, 6) ∈ readValues s ∧ s.status.busy = true)
    ∧ HostDelivers (deliverTo inflating (.regRead 0x48 4)) (.regRead 0x48 4) []
    ∧ HostDelivers (deliverTo inflating (.regRead 0xFC 4)) (.regRead 0xFC 4) [] :=
  ⟨⟨deliverTo_delivers _ _, by decide +kernel⟩, ⟨deliverTo_delivers _ _, by decide +kernel⟩,
    ⟨deliverTo_delivers _ _, by decide +kernel⟩, ⟨deliverTo_delivers _ _, by decide +kernel⟩, deliverTo_delivers _ _,
    deliverTo_delivers _ _⟩

theorem witness_InstructionsKeepConfiguration : ∃ t, exec .inflate inflateReady = .next t := ⟨_, rfl⟩

theorem witness_RegisterWritesWhileBusy :
    HostDelivers (deliverTo inflating (.regWrite 0x44 4 0x123)) (.regWrite 0x44 4 0x123) []
    ∧ HostDelivers (deliverTo inflating (.regWrite 0x0C 4 0x8)) (.regWrite 0x0C 4 0x8) []
    ∧ HostDelivers (deliverTo inflating (.regWrite 0xFC 4 1)) (.regWrite 0xFC 4 1) []
    ∧ HostDelivers (deliverTo State.reset (.regWrite 0xFC 4 1)) (.regWrite 0xFC 4 1) []
    ∧ (deliverTo inflating (.regWrite 0x44 4 0x123)).status.busy = true
    ∧ (0x44 : BitVec 8).toNat ∈ configMasks.map Prod.fst ∧ (0xFC : BitVec 8).toNat ∉ configMasks.map Prod.fst
    ∧ (0xFC : BitVec 8).toNat % 4 = 0 ∧ (0xFC : BitVec 8) ≠ 0x0C ∧ (0xFC : BitVec 8) ≠ 0x08
    ∧ inflating.status.done = false ∧ inflating.status.err = false := by
  refine ⟨deliverTo_delivers _ _, deliverTo_delivers _ _, deliverTo_delivers _ _, deliverTo_delivers _ _, ?_⟩
  decide +kernel

/-- A command that has ended with an error, idle: the write clears ERR. -/
theorem witness_StatusWriteOneToClear :
    (let s := deliverTo { State.reset with status := ⟨false, false, true, true, .idle⟩ } (.regWrite 0x0C 4 0x4)
     HostDelivers s (.regWrite 0x0C 4 0x4) [] ∧ s.status.busy = false ∧ s.status.err = true)
    ∧ HostDelivers (deliverTo inflating (.regWrite 0x0C 4 0x8)) (.regWrite 0x0C 4 0x8) [] ∧ (0x44 : Nat) ≠ 0x0C :=
  ⟨⟨deliverTo_delivers _ _, rfl, rfl⟩, deliverTo_delivers _ _, by decide⟩

/-- A write of two bytes, and a read at an offset that is no multiple of 4. -/
theorem witness_UnsupportedAccesses : ((2 : Nat) ≠ 4 ∨ (0x04 : BitVec 8).toNat % 4 ≠ 0)
    ∧ ((4 : Nat) ≠ 4 ∨ (0x21 : BitVec 8).toNat % 4 ≠ 0)
    ∧ HostDelivers (deliverTo inflating (.regWrite 0x04 2 1)) (.regWrite 0x04 2 1) []
    ∧ HostDelivers (deliverTo inflating (.regRead 0x21 4)) (.regRead 0x21 4) [] :=
  ⟨by decide, by decide, deliverTo_delivers _ _, deliverTo_delivers _ _⟩

theorem witness_ProgressReads :
    (let s := deliverTo inflating (.regRead 0x20 4)
     Invariant s ∧ s.status.busy = true ∧ s.raceIn = none ∧ HostDelivers s (.regRead 0x20 4) [])
    ∧ (let s := deliverTo inflating (.regRead 0x0C 4)
       Invariant s ∧ s.status.busy = true ∧ s.raceIn = none ∧ HostDelivers s (.regRead 0x0C 4) []) :=
  ⟨⟨deliverTo_inv inflating_inv _, rfl, rfl, deliverTo_delivers _ _⟩,
    ⟨deliverTo_inv inflating_inv _, rfl, rfl, deliverTo_delivers _ _⟩⟩

/-- A write inside a region of a running command, one just past it, one with no command running, and a read. -/
theorem witness_HostMemoryAccesses : inflating.mem.wf = true
    ∧ HostDelivers (deliverTo inflating (.memWrite 0x20000 7)) (.memWrite 0x20000 7) []
    ∧ HostDelivers (deliverTo inflating (.memRead 0x20001)) (.memRead 0x20001) []
    ∧ (∃ r ∈ usedRegions inflating.cmd inflating.snap, r.has 0x20000 = true)
    ∧ (∀ r ∈ usedRegions inflating.cmd inflating.snap, r.has 0x20001 = false)
    ∧ (∀ r ∈ writtenRegions inflating.cmd inflating.snap, r.has 0x20001 = false)
    ∧ inflating.status.busy = true ∧ State.reset.status.busy = false := by
  refine ⟨by decide +kernel, deliverTo_delivers _ _, deliverTo_delivers _ _, ?_⟩
  decide +kernel

theorem witness_RacedCommandEnds :
    (∃ s : State, Invariant s ∧ s.raceIn = some 2 ∧ s.sched = [] ∧ Outside (writtenRegions s.cmd s.snap) 0x20001)
    ∧ ∃ s : State, Invariant s ∧ s.raceIn = some 0 ∧ s.sched.head? ≠ some .host
        ∧ Outside (writtenRegions s.cmd s.snap) 0x20001 :=
  ⟨⟨_, inflating_inv.withRace rfl 2 0, rfl, rfl, by unfold Outside; decide +kernel⟩,
    _, inflating_inv.withRace rfl 0 0, rfl, nofun, by unfold Outside; decide +kernel⟩

theorem witness_ResetInput :
    (let s := deliverTo inflating .reset
     Invariant s ∧ HostDelivers s .reset [] ∧ Outside (writtenRegions s.cmd s.snap) 0x1000)
    ∧ (let s := deliverTo inflateReady .reset
       Invariant s ∧ HostDelivers s .reset [] ∧ s.status.busy = false) :=
  ⟨⟨deliverTo_inv inflating_inv _, deliverTo_delivers _ _, by unfold Outside; decide +kernel⟩,
    ⟨deliverTo_inv inflateReady_inv _, deliverTo_delivers _ _, rfl⟩⟩

theorem witness_MemoryPrimitives : inflateReady.mem.wf = true ∧ (0xFFFFFFFF : Nat) < memorySize := by decide +kernel

theorem witness_StepKeepsInvariant : ∃ t, Invariant inflating ∧ step inflating = .next t :=
  ⟨_, inflating_inv, rfl⟩

theorem witness_StepAlwaysAnswers : Invariant State.reset ∧ Invariant inflating ∧ Invariant unfiltering :=
  ⟨inv_reset rfl 0 [] [] 0, inflating_inv, unfiltering_inv⟩

theorem witness_RegionsOfCommands :
    (⟨0xFFFFFFFE, 2⟩ : Region).base.toNat + (⟨0xFFFFFFFE, 2⟩ : Region).len.toNat ≤ memorySize
    ∧ 1 < (⟨0xFFFFFFFE, 2⟩ : Region).len.toNat := by
  decide +kernel

theorem witness_EngineWritesOnlyWrittenRegions : ∃ t, Invariant unfiltering ∧ unfiltering.status.busy = true
    ∧ unfiltering.sched.head? ≠ some .host ∧ step unfiltering = .next t
    ∧ Outside (writtenRegions unfiltering.cmd unfiltering.snap) 0x20001 :=
  ⟨_, unfiltering_inv, rfl, nofun, rfl, by unfold Outside; decide +kernel⟩

/-- With no ABORT pending, and with one. -/
theorem witness_EngineNeverGoesBack :
    (∃ t, Invariant inflating ∧ inflating.status.busy = true ∧ inflating.raceIn = none
      ∧ inflating.sched.head? ≠ some .host ∧ step inflating = .next t ∧ t.status.stage = .inflate)
    ∧ ∃ s t : State, Invariant s ∧ s.abortIn = some 1 ∧ s.status.busy = true ∧ s.raceIn = none
        ∧ s.sched.head? ≠ some .host ∧ step s = .next t ∧ t.status.stage = .inflate :=
  ⟨⟨_, inflating_inv, rfl, rfl, nofun, rfl, by decide +kernel⟩,
    _, _, inflating_inv.withAbort rfl (some 1) 0, rfl, rfl, rfl, nofun, rfl, by decide +kernel⟩

theorem witness_EveryCommandEnds : Invariant inflating ∧ EngineNext inflating ∧ inflating.sched = [] :=
  ⟨inflating_inv, ⟨rfl, rfl, rfl, nofun⟩, rfl⟩

theorem witness_BlockHeaderElements : inflating.bp.toNat ≤ totalBits inflating := by decide +kernel

theorem witness_StoredPayloadCopied :
    let s : State := { inflating with engine := .stored, bp := 40 }
    s.mem.wf = true ∧ s.snap.src.base.toNat + s.snap.src.len.toNat ≤ memorySize
      ∧ (outRegion s).base.toNat + (outRegion s).len.toNat ≤ memorySize
      ∧ s.snap.src.overlaps (outRegion s) = false ∧ 5 + 1 ≤ s.snap.src.len.toNat
      ∧ s.outCount.toNat + 1 ≤ outLimit s := by
  decide +kernel

/-- 12 bits of code-length fields that end with the stream, and one bit short of them. -/
theorem witness_DynhdrElement :
    (let s : State := { inflating with engine := .dynHeader, bp := 36 }
     s.bp.toNat + 3 * ((0 : BitVec 4).toNat + 4) ≤ totalBits s)
    ∧ (let s : State := { inflating with engine := .dynHeader, bp := 37 }
       totalBits s < s.bp.toNat + 3 * ((0 : BitVec 4).toNat + 4) ∧ s.bp.toNat ≤ totalBits s) := by
  decide +kernel

theorem witness_CodeLengthElements : State.reset.lens = []
    ∧ ({ State.reset with lens := [8] } : State).lens.getLast? = some 8 := by
  decide

theorem witness_FinalTreesStep :
    let s : State := { inflating with engine := .dynHeader, codesNext := true, lens := List.replicate 258 1 }
    EngineNext s ∧ s.engine = .dynHeader ∧ s.codesNext = true ∧ s.lens.length = s.hlit + s.hdist ∧ 257 ≤ s.hlit
      ∧ s.hlit ≤ 288 ∧ s.hdist ≤ 32 := by
  unfold EngineNext
  decide +kernel

/-- The lengths [1, 1] and a stream whose first bit is 1: the code of symbol 1. With the lengths [1] that bit spells
nothing. -/
theorem witness_DecodeFindsSpelledSymbol :
    ((∀ l ∈ [1, 1], l ≤ 15) ∧ build [1, 1] = some (makeTree [1, 1]) ∧ 1 < [1, 1].length ∧ Spells inflating [1, 1] 1
      ∧ 2 ≤ present [1, 1])
    ∧ ((∀ l ∈ [1], l ≤ 15) ∧ build [1] = some (makeTree [1]) ∧ ∀ k, k < [1].length → ¬Spells inflating [1] k)
    ∧ (∀ x ∈ [2, 1, 15], x ≤ 15) ∧ [2, 1, 15][2]? = some 15 ∧ 14 < 15 := by
  unfold Spells
  decide +kernel

theorem witness_EmitWritesOneByte : inflating.mem.wf = true ∧ inflating.outCount.toNat < outLimit inflating := by
  decide +kernel

theorem witness_ReservedElements : (286 : BitVec 9).toNat = 286 ∧ (287 : BitVec 9).toNat = 287
    ∧ (30 : BitVec 5).toNat = 30 ∧ (31 : BitVec 5).toNat = 31 ∧ 5 ≤ (5 : Byte).toNat ∧ 5 ≤ (255 : Byte).toNat := by
  decide

/-- LEN_284 with its 5 extra bits the last of the stream, and one bit short of them. -/
theorem witness_LengthElements : (Instr.len284, 227, 5) ∈ lengthRows
    ∧ ({ inflating with bp := 43 } : State).bp.toNat + 5 ≤ totalBits inflating
    ∧ totalBits inflating < ({ inflating with bp := 44 } : State).bp.toNat + 5 := by
  decide +kernel

theorem witness_DistanceElements : (Instr.dist29, 24577, 13) ∈ distanceRows
    ∧ ({ inflating with matchLen := some 258 } : State).matchLen = some 258 := by
  decide +kernel

theorem witness_MatchCopyRepeats :
    let s : State := { inflating with snap := { inflating.snap with dst := ⟨0x20000, 4⟩ }, outCount := 1 }
    s.mem.wf = true ∧ (outRegion s).base.toNat + (outRegion s).len.toNat ≤ memorySize ∧ 1 ≤ 1
      ∧ 1 ≤ s.outCount.toNat ∧ s.outCount.toNat + 3 ≤ outLimit s := by
  decide +kernel

/-- There is another word. -/
theorem other (w : Word) : ∃ v : Word, v ≠ w := ⟨~~~w, by bv_omega⟩

/-- A trailer cut short, one that does not match, one that does for INFLATE and one that does for DECODE. -/
theorem witness_ZtrlElement :
    (let s : State := { inflating with bp := 17 }
     BitVec.toNat (BitVec.ofNat 35 (8 * ((s.bp.toNat + 7) / 8))) / 8 + 4 > s.snap.src.len.toNat)
    ∧ (let s : State := { inflating with bp := 16 }
       BitVec.toNat (BitVec.ofNat 35 (8 * ((s.bp.toNat + 7) / 8))) / 8 + 4 ≤ s.snap.src.len.toNat ∧ s.cmd = .inflate
        ∧ (∃ v : Word, v = Config.adler32 (outBytes s)) ∧ ∃ v : Word, v ≠ Config.adler32 (outBytes s))
    ∧ (let s : State := { startCommand .decode { decodeReady with regs := { grayParams with src := ⟨0x1000, 4⟩ } } with bp := 0 }
       BitVec.toNat (BitVec.ofNat 35 (8 * ((s.bp.toNat + 7) / 8))) / 8 + 4 ≤ s.snap.src.len.toNat ∧ s.cmd = .decode
        ∧ (∃ v : Word, v = Config.adler32 (outBytes s)) ∧ s.snap.imgW ≠ 0 ∧ s.snap.imgH ≠ 0) := by
  refine ⟨by decide +kernel, ⟨by decide +kernel, by decide +kernel, ⟨_, rfl⟩, other _⟩,
    ⟨by decide +kernel, by decide +kernel, ⟨_, rfl⟩, by decide +kernel, by decide +kernel⟩⟩

/-- A row that is not the last; the last row of a non-interlaced image; the last row of a pass with another behind it
and none between; the last row of the last pass that is not empty. -/
theorem witness_FilterElements :
    (Instr.filtPaeth, paeth) ∈ filterRows ∧ unfiltering.mem.wf = true
    ∧ (let s : State := { unfiltering with snap := { grayParams with imgH := 2 } }
       s.y + 1 < s.snap.rowCount s.p)
    ∧ (unfiltering.snap.rowCount unfiltering.p ≤ unfiltering.y + 1 ∧ unfiltering.p = 7)
    ∧ (let s : State := { unfiltering with snap := { grayParams with imgW := 2, imgH := 2, interlace := 1 }, p := 0 }
       s.snap.rowCount s.p ≤ s.y + 1 ∧ s.p < 5 ∧ s.snap.emptyPass 5 = false
        ∧ ∀ r, r < 5 → s.p < r → s.snap.emptyPass r = true)
    ∧ (let s : State := { unfiltering with snap := { grayParams with imgW := 2, imgH := 2, interlace := 1 }, p := 6 }
       s.snap.rowCount s.p ≤ s.y + 1 ∧ s.p < 7 ∧ ∀ r, r < 7 → s.p < r → s.snap.emptyPass r = true) := by
  refine ⟨by simp [filterRows], ?_⟩
  decide +kernel

/-- The last row of a non-interlaced image, and pass 5 of a 2 x 2 one. -/
theorem witness_RowBytesStored :
    0 < 7 ∧ (0, 1) ∈ channelRows ∧ unfiltering.snap.colorMode.toNat = 0 ∧ unfiltering.snap.interlace = 0 ∧
    (let s := unfiltering
     s.mem.wf = true ∧ s.snap.dst.base.toNat + s.snap.dst.len.toNat ≤ memorySize
      ∧ s.snap.dst.len.toNat = s.snap.rawSize ∧ ([0x42] : List Byte).length = rowStride s
      ∧ s.y < s.snap.rowCount s.p ∧ s.p = 7)
    ∧ (let s : State :=
        { unfiltering with
          snap := { grayParams with imgW := 2, imgH := 2, interlace := 1, dst := ⟨0x20000, 4⟩ }, p := 5 }
       s.snap.dst.base.toNat + s.snap.dst.len.toNat ≤ memorySize ∧ s.snap.dst.len.toNat = s.snap.rawSize
        ∧ ([0x42] : List Byte).length = rowStride s ∧ s.y < s.snap.rowCount s.p ∧ s.p < 7 ∧ s.snap.bpp % 8 = 0
        ∧ 0 < s.snap.rowWidth s.p ∧ 0 < s.snap.bpp / 8) := by
  decide +kernel

theorem witness_ReconstructedByte : 1 ≤ 1 ∧ 2 < ([0x10, 0x05, 0xFF] : List Byte).length := by decide

/-- Each of the three neighbours is picked somewhere. -/
theorem witness_PaethPicksNearest :
    (let dist (x : Nat) : Nat := ((5 : Int) + 5 - 5 - x).natAbs; dist 5 ≤ dist 5)
    ∧ (let dist (x : Nat) : Nat := ((1 : Int) + 2 - 0 - x).natAbs; ¬(dist 1 ≤ dist 2 ∧ dist 1 ≤ dist 0) ∧ dist 2 ≤ dist 0)
    ∧ (let dist (x : Nat) : Nat := ((10 : Int) + 20 - 15 - x).natAbs
       ¬(dist 10 ≤ dist 20 ∧ dist 10 ≤ dist 15) ∧ ¬dist 20 ≤ dist 15) := by
  decide

theorem witness_FilterRoundTrip : 1 ≤ 1 ∧ 1 ≤ 8 := by decide

theorem witness_PassesPartitionImage : 12 < 13 ∧ 16 < 17 ∧ (6, (⟨0, 1, 1, 2⟩ : Lattice)) ∈ passRows := by decide

end Sys2Proof.Tests
end

section
/-! The turn a step takes: the host's oldest access delivered, or one step of the engine, each said once. -/

namespace Sys2Proof.Machine

open Sys2Proof.Statements

/-! ### From a turn to a step -/

theorem step_of_quiet {s t : State} (h : nextTurn s = .quiet t) : step s = .next t := by
  unfold step
  rw [h]

theorem step_of_run {s u : State} {i : Instr} (h : nextTurn s = .run i u) : step s = exec i u := by
  unfold step
  rw [h]

theorem step_of_stop {s u t : State} {i : Instr} (h : nextTurn s = .stop i u) (hi : exec i u = .next t) :
    step s = .next (abortStop t.outCount u) := by
  unfold step
  rw [h]
  simp only [hi]

/-! ### Whose turn it is -/

theorem takeTurn_of_sched_nil {s : State} (h : s.sched = []) : takeTurn s = s := by
  unfold takeTurn
  rw [h, List.tail_nil, ← h]

theorem nextTurn_of_hostNext {s : State} (h : HostNext s) : nextTurn s = hostTurn (takeTurn s) := by
  rcases h with h | ⟨h, hb⟩
  · obtain ⟨rest, hs⟩ := List.head?_eq_some_iff.mp h
    simp only [nextTurn, takeTurn, hs, List.tail_cons]
  · rw [takeTurn_of_sched_nil h]
    simp [nextTurn, h, hb]

theorem nextTurn_of_not_hostNext {s : State} (h : ¬HostNext s) : nextTurn s = engineTurn (takeTurn s) := by
  cases hs : s.sched with
  | nil =>
    have hb : s.status.busy = true := by simpa [HostNext, hs] using h
    rw [takeTurn_of_sched_nil hs]
    simp [nextTurn, hs, hb]
  | cons a rest =>
    cases a with
    | host => exact absurd (.inl (by rw [hs]; rfl)) h
    | engine => simp only [nextTurn, takeTurn, hs, List.tail_cons]

theorem not_hostNext {s : State} (hb : s.status.busy = true) (hs : s.sched.head? ≠ some .host) : ¬HostNext s := by
  rintro (h | ⟨-, h⟩)
  · exact hs h
  · rw [hb] at h
    exact Bool.noConfusion h

/-! ### The host's turn -/

theorem nextTurn_of_delivers {s : State} {a : HostAccess} {q : List HostAccess} (h : HostDelivers s a q) :
    nextTurn s = deliver a (taken s q) := by
  have hq : (takeTurn s).hostQueue = a :: q := h.2
  rw [nextTurn_of_hostNext h.1, hostTurn, hq]
  rfl

/-- A CMD write spells a command, whatever its value (30_encoding.md R300). -/
theorem elementTurn_cmd (v : Word) (s : State) : elementTurn .cmd v.toNat s = .run (decodeCmd v.toNat) s := by
  have hd : decode .cmd v.toNat = .ok (decodeCmd v.toNat) := by
    unfold decode
    rw [if_pos (by simpa [Format.width] using v.isLt)]
  rw [elementTurn, hd]

/-- A host access runs a command, or it is no instruction and keeps the invariant. -/
theorem deliver_cases (a : HostAccess) {s : State} (h : Invariant s) :
    (∃ v : Word, deliver a s = .run (decodeCmd v.toNat) s) ∨ ∃ t, deliver a s = .quiet t ∧ Invariant t := by
  cases a with
  | regRead off n => exact .inr ⟨_, rfl, h.readReg off n⟩
  | regWrite off n v =>
    simp only [deliver]
    split_ifs
    · exact .inr ⟨s, rfl, h⟩
    · exact .inl ⟨v, elementTurn_cmd v s⟩
    · exact .inr ⟨_, rfl, h.writeReg off.toNat v⟩
  | memRead a => exact .inr ⟨_, rfl, h.hostMemRead a⟩
  | memWrite a v => exact .inr ⟨_, rfl, h.hostMemWrite a v⟩
  | reset => exact .inr ⟨_, rfl, h.resetEvent⟩

theorem Invariant.step_host {s t : State} (h : Invariant s) (hn : HostNext s) (hstep : step s = .next t) :
    Invariant t := by
  have hturn := nextTurn_of_hostNext hn
  unfold hostTurn at hturn
  split at hturn
  · rw [step_of_quiet hturn] at hstep
    cases hstep
    exact h.takeTurn
  · next a q _ =>
    have hq : Invariant (taken s q) := h.takeTurn.withBus q _ _ _
    rcases deliver_cases a hq with ⟨v, hd⟩ | ⟨u, hd, hu⟩
    · obtain ⟨u, hx, hu⟩ := exec_decodeCmd hq v.toNat
      rw [step_of_run (hturn.trans hd), hx] at hstep
      cases hstep
      exact hu
    · rw [step_of_quiet (hturn.trans hd)] at hstep
      cases hstep
      exact hu

/-! ### The engine's turn -/

/-- Everything one engine step does to a running command s: it goes on, with what an accepted ABORT still allows
counted down; an ABORT stops it, with the bits of the element under way consumed; or a race counts down or ends it. -/
inductive EngineStep (s : State) : State → Prop
  | goesOn (n : Option Nat) {t : State} (h : Advance (-1) { s with abortIn := n } t) : EngineStep s t
  | stops (upTo : Word) {u : State} (hu : u = { s with bp := u.bp }) (h : Invariant u) : EngineStep s (abortStop upTo u)
  | raceTicks {n : Nat} (h : s.raceIn = some (n + 1)) : EngineStep s { s with raceIn := some n }
  | raceEnds (h : s.raceIn = some 0) : EngineStep s (endRace s)

/-- A step whose turn is an element the engine goes on with takes the command on. -/
theorem GoesOn.advance {r s t : State} {n : Turn} (hg : GoesOn r n) (hturn : nextTurn s = n)
    (hstep : step s = .next t) : Advance (-1) r t := by
  rcases hg with ⟨u, rfl, hA⟩ | ⟨i, u, rfl, -, -, v, hv, hA⟩
  · rw [step_of_quiet hturn] at hstep
    cases hstep
    exact hA
  · rw [step_of_run hturn, hv] at hstep
    cases hstep
    exact hA

/-- An ABORT with no step left stops the command inside the element that would come next, or before an end of
the engine's own. -/
theorem engineTurn_of_abort {r : State} (hb : r.status.busy = true) (hrace : r.raceIn = none)
    (habort : r.abortIn = some 0) :
    (∀ i u, fetchElement r = .run i u → engineTurn r = .stop i u)
      ∧ ∀ u, fetchElement r = .quiet u → engineTurn r = .quiet (abortStop r.outCount r) := by
  constructor
  · intro i u hf
    simp [engineTurn, hb, hrace, habort, hf]
  · intro u hf
    simp [engineTurn, hb, hrace, habort, hf]

theorem engineStep_of_abort {r s t : State} (h : Invariant r) (hb : r.status.busy = true) (hrace : r.raceIn = none)
    (habort : r.abortIn = some 0) (hturn : nextTurn s = engineTurn r) (hstep : step s = .next t) : EngineStep r t := by
  obtain ⟨inside, before⟩ := engineTurn_of_abort hb hrace habort
  rcases goesOn_fetchElement h hb with ⟨u, hf, -⟩ | ⟨i, u, hf, hu, hA, v, hv, -⟩
  · rw [step_of_quiet (hturn.trans (before u hf))] at hstep
    cases hstep
    exact .stops _ rfl h
  · rw [step_of_stop (hturn.trans (inside i u hf)) hv] at hstep
    cases hstep
    exact .stops _ hu hA.inv

/-- The inversion of an engine step of a running command. -/
theorem engineStep_of_step {s t : State} (h : Invariant s) (hb : s.status.busy = true) (hs : s.sched.head? ≠ some .host)
    (hstep : step s = .next t) : EngineStep (takeTurn s) t := by
  have hr : Invariant (takeTurn s) := h.takeTurn
  have hbr : (takeTurn s).status.busy = true := hb
  have hengine := nextTurn_of_not_hostNext (not_hostNext hb hs)
  have hturn := hengine
  rw [engineTurn, if_neg (by simp [hbr])] at hturn
  split at hturn
  · next hrace =>
    rw [step_of_quiet hturn] at hstep
    cases hstep
    exact .raceEnds hrace
  · next hrace =>
    rw [step_of_quiet hturn] at hstep
    cases hstep
    exact .raceTicks hrace
  · next n _ _ =>
    exact .goesOn _ ((goesOn_fetchElement (hr.withAbort hbr (some n) (takeTurn s).draws) hbr).advance hturn hstep)
  · next hrace habort => exact engineStep_of_abort hr hbr hrace habort hengine hstep
  · exact .goesOn _ ((goesOn_fetchElement hr hbr).advance hturn hstep)

/-- A step of the engine while idle takes its place in the schedule and nothing else. -/
theorem step_of_idle_engine {s : State} (hn : ¬HostNext s) (hb : s.status.busy = false) :
    step s = .next (takeTurn s) := by
  have hbr : (takeTurn s).status.busy = false := hb
  refine step_of_quiet ?_
  rw [nextTurn_of_not_hostNext hn, engineTurn, if_pos hbr]

theorem EngineStep.invariant {s t : State} (hstep : EngineStep s t) (h : Invariant s) (hb : s.status.busy = true) :
    Invariant t := by
  cases hstep with
  | goesOn n hA => exact hA.inv
  | stops upTo hu hI => exact (abortStop_spec hI (by rw [hu]; exact hb) upTo).1
  | @raceTicks n _ => exact h.withRace hb n s.draws
  | raceEnds _ => exact (endRace_spec h hb).1

/-- Settles O34: the host's accesses and the engine's steps each keep the invariant. -/
theorem stepKeepsInvariant : Obligations.StepKeepsInvariant := by
  intro s t h hstep
  by_cases hn : HostNext s
  · exact h.step_host hn hstep
  cases hb : s.status.busy with
  | true => exact (engineStep_of_step h hb (fun hs => hn (.inl hs)) hstep).invariant h.takeTurn hb
  | false =>
    rw [step_of_idle_engine hn hb] at hstep
    cases hstep
    exact h.takeTurn

/-- Settles O33: the reset state is a state at rest with nothing reported. -/
theorem resetKeepsInvariant : Obligations.ResetKeepsInvariant := inv_reset rfl 0 [] [] 0

/-! ### Progress -/

theorem abortStop_stage (upTo : Word) (s : State) : (abortStop upTo s).status.stage = .idle := by simp [abortStop]

/-- The count an ABORT leaves lies between the count at that step and the one the element would reach, so it does not
wrap (40_commands.md R444). -/
theorem le_abortStop_outCount (upTo : Word) (s : State) : s.outCount.toNat ≤ (abortStop upTo s).outCount.toNat := by
  have hk := Nat.mod_lt (Config.freeNat s.draws) (Nat.succ_pos (upTo.toNat - s.outCount.toNat))
  have h1 := upTo.isLt
  have h2 := s.outCount.isLt
  rw [abortStop, raiseError_outCount]
  simp only [BitVec.toNat_add, BitVec.toNat_ofNat]
  generalize Config.freeNat s.draws % (upTo.toNat - s.outCount.toNat + 1) = k at hk ⊢
  omega

theorem EngineStep.neverGoesBack {s t : State} (hstep : EngineStep s t) (hr : s.raceIn = none) :
    s.outCount.toNat ≤ t.outCount.toNat ∧ (t.status.stage = .inflate → s.bp.toNat ≤ t.bp.toNat) := by
  cases hstep with
  | goesOn n hA => exact ⟨hA.out, hA.cursor⟩
  | @stops upTo u hu _ =>
    have ho : u.outCount = s.outCount := by rw [hu]
    exact ⟨ho ▸ le_abortStop_outCount upTo u, fun hi => by rw [abortStop_stage] at hi; cases hi⟩
  | raceTicks h => rw [hr] at h; cases h
  | raceEnds h => rw [hr] at h; cases h

/-- Settles O37: an element goes forward, and an ABORT stops at a count no less than the one reached. -/
theorem engineNeverGoesBack : Obligations.EngineNeverGoesBack := by
  intro s t h hb hr hs hstep
  exact (engineStep_of_step h hb hs hstep).neverGoesBack hr

end Sys2Proof.Machine
end

section
/-! What an instruction, and a step of the engine, leaves to the host: the configuration, the interrupt enable, the
bus and the schedule (10_state.md R114). -/

namespace Sys2Proof.Machine

/-- The fields the host alone writes are the same in t as in s. -/
structure HostFieldsKept (s t : State) : Prop where
  regs : t.regs = s.regs
  irqEn : t.irqEn = s.irqEn
  hostQueue : t.hostQueue = s.hostQueue
  sched : t.sched = s.sched
  hostData : t.hostData = s.hostData

theorem HostFieldsKept.refl (s : State) : HostFieldsKept s s := ⟨rfl, rfl, rfl, rfl, rfl⟩

theorem HostFieldsKept.trans {s u t : State} (h : HostFieldsKept s u) (h' : HostFieldsKept u t) : HostFieldsKept s t :=
  ⟨h'.regs.trans h.regs, h'.irqEn.trans h.irqEn, h'.hostQueue.trans h.hostQueue, h'.sched.trans h.sched,
    h'.hostData.trans h.hostData⟩

/-- Transitivity with the part first that names the state between. -/
theorem HostFieldsKept.after {s u t : State} (h' : HostFieldsKept u t) (h : HostFieldsKept s u) : HostFieldsKept s t :=
  h.trans h'

/-- An outcome that is a next state in which the host's fields are kept. -/
def KeepsHostFields (s : State) (o : Host.Outcome State Fault Refusal) : Prop := ∃ t, o = .next t ∧ HostFieldsKept s t

/-! ### The shared operations -/

theorem hostFieldsKept_raiseError (c : Cause) (i : Word) (s : State) : HostFieldsKept s (raiseError c i s) := by
  constructor <;> simp

theorem hostFieldsKept_complete (s : State) : HostFieldsKept s (complete s) := by
  constructor <;> simp

theorem hostFieldsKept_readBits {n v : Nat} {s t : State} (h : readBits n s = some (v, t)) : HostFieldsKept s t := by
  obtain ⟨-, -, rfl⟩ := readBits_eq_some h
  exact ⟨rfl, rfl, rfl, rfl, rfl⟩

theorem hostFieldsKept_abortStop (upTo : Word) (s : State) : HostFieldsKept s (abortStop upTo s) :=
  .after (hostFieldsKept_raiseError .aborted 0 _) ⟨rfl, rfl, rfl, rfl, rfl⟩

theorem hostFieldsKept_endRace (s : State) : HostFieldsKept s (endRace s) := by
  unfold endRace
  simp only
  split <;> exact ⟨rfl, rfl, rfl, rfl, rfl⟩

/-! ### The reconstruct stage -/

theorem hostFieldsKept_seekPass (q : Nat) (s : State) : HostFieldsKept s (seekPass q s) := by
  unfold seekPass
  split
  · exact ⟨rfl, rfl, rfl, rfl, rfl⟩
  · exact hostFieldsKept_complete s

theorem hostFieldsKept_startReconstruct (s : State) : HostFieldsKept s (startReconstruct s) := by
  unfold startReconstruct
  split
  · exact .after (hostFieldsKept_seekPass 0 _) ⟨rfl, rfl, rfl, rfl, rfl⟩
  · exact ⟨rfl, rfl, rfl, rfl, rfl⟩

theorem hostFieldsKept_nextRow (row : List Byte) (s : State) : HostFieldsKept s (nextRow row s) := by
  unfold nextRow
  split_ifs
  · exact ⟨rfl, rfl, rfl, rfl, rfl⟩
  · exact hostFieldsKept_seekPass _ s
  · exact hostFieldsKept_complete s

theorem hostFieldsKept_filterElement (f : Predictor) (s : State) : HostFieldsKept s (filterElement f s) := by
  unfold filterElement
  exact .after (hostFieldsKept_nextRow _ _) (by constructor <;> simp)

/-! ### The inflate stage -/

theorem hostFieldsKept_endInflate (s : State) : HostFieldsKept s (endInflate s) := by
  unfold endInflate
  split
  · exact hostFieldsKept_startReconstruct s
  · exact hostFieldsKept_complete s
  · exact hostFieldsKept_complete s

theorem hostFieldsKept_streamEnd (s : State) : HostFieldsKept s (streamEnd s) := by
  unfold streamEnd
  split_ifs
  · exact hostFieldsKept_raiseError _ _ s
  · exact ⟨rfl, rfl, rfl, rfl, rfl⟩
  · exact hostFieldsKept_endInflate s

theorem hostFieldsKept_readFields {w n : Nat} {s : State} :
    (∀ t, readFields w n s = .error t → HostFieldsKept s t)
      ∧ ∀ vs t, readFields w n s = .ok (vs, t) → HostFieldsKept s t := by
  induction n generalizing s with
  | zero =>
    constructor
    · intro t h
      cases h
    · intro vs t h
      cases h
      exact .refl s
  | succ n ih =>
    rw [readFields]
    cases hr : readBits w s with
    | none =>
      constructor
      · intro t h
        cases h
        exact .refl s
      · intro vs t h
        cases h
    | some p =>
      obtain ⟨v, u⟩ := p
      have hu := hostFieldsKept_readBits hr
      simp only
      cases hf : readFields w n u with
      | error z =>
        constructor
        · intro t h
          cases h
          exact (ih.1 _ hf).after hu
        · intro vs t h
          cases h
      | ok p =>
        obtain ⟨us, z⟩ := p
        constructor
        · intro t h
          cases h
        · intro vs t h
          cases h
          exact (ih.2 _ _ hf).after hu

theorem hostFieldsKept_repeatLen (base extra l : Nat) (s : State) : HostFieldsKept s (repeatLen base extra l s) := by
  unfold repeatLen
  split
  · exact hostFieldsKept_raiseError _ _ s
  · next hr =>
    split
    · exact (hostFieldsKept_raiseError _ _ _).after (hostFieldsKept_readBits hr)
    · exact (hostFieldsKept_readBits hr).trans ⟨rfl, rfl, rfl, rfl, rfl⟩

theorem hostFieldsKept_finishTrees (s : State) : HostFieldsKept s (finishTrees s) := by
  unfold finishTrees
  split
  · exact hostFieldsKept_raiseError _ _ s
  split
  · exact hostFieldsKept_raiseError _ _ s
  split
  · exact hostFieldsKept_raiseError _ _ s
  · exact ⟨rfl, rfl, rfl, rfl, rfl⟩

theorem hostFieldsKept_lengthSymbol (base extra : Nat) (s : State) : HostFieldsKept s (lengthSymbol base extra s) := by
  unfold lengthSymbol
  split
  · exact hostFieldsKept_raiseError _ _ s
  · next hr => exact (hostFieldsKept_readBits hr).trans ⟨rfl, rfl, rfl, rfl, rfl⟩

theorem hostFieldsKept_matchCopy (distance : Nat) (s : State) : HostFieldsKept s (matchCopy distance s) := by
  unfold matchCopy
  simp only
  split_ifs
  · exact hostFieldsKept_raiseError _ _ s
  · exact hostFieldsKept_raiseError _ _ s
  · constructor <;> simp

theorem hostFieldsKept_distanceSymbol (base extra : Nat) (s : State) :
    HostFieldsKept s (distanceSymbol base extra s) := by
  unfold distanceSymbol
  split
  · exact hostFieldsKept_raiseError _ _ s
  · next hr => exact (hostFieldsKept_matchCopy _ _).after (hostFieldsKept_readBits hr)

/-! ### The instructions with a meaning of several cases -/

theorem hostFieldsKept_startCommand (c : Command) (s : State) : HostFieldsKept s (startCommand c s) := by
  unfold startCommand
  split
  · exact ⟨rfl, rfl, rfl, rfl, rfl⟩
  split
  · exact .after (hostFieldsKept_raiseError _ _ _) ⟨rfl, rfl, rfl, rfl, rfl⟩
  · cases c with
    | inflate | decode => exact ⟨rfl, rfl, rfl, rfl, rfl⟩
    | unfilter => exact .after (hostFieldsKept_startReconstruct _) ⟨rfl, rfl, rfl, rfl, rfl⟩

theorem execNop_keeps (s : State) : KeepsHostFields s (execNop s) := by
  refine ⟨_, rfl, ?_⟩
  split <;> exact ⟨rfl, rfl, rfl, rfl, rfl⟩

theorem execAbort_keeps (s : State) : KeepsHostFields s (execAbort s) := by
  refine ⟨_, rfl, ?_⟩
  split <;> exact ⟨rfl, rfl, rfl, rfl, rfl⟩

theorem execReservedCmd_keeps (op : BitVec 4) (s : State) : KeepsHostFields s (execReservedCmd op s) := by
  refine ⟨_, rfl, ?_⟩
  split
  · exact ⟨rfl, rfl, rfl, rfl, rfl⟩
  · exact .after (hostFieldsKept_raiseError _ _ _) ⟨rfl, rfl, rfl, rfl, rfl⟩

theorem execZhdr_keeps (cmf flg : Byte) (s : State) : KeepsHostFields s (execZhdr cmf flg s) := by
  refine ⟨_, rfl, ?_⟩
  split_ifs
  case neg => exact ⟨rfl, rfl, rfl, rfl, rfl⟩
  all_goals exact hostFieldsKept_raiseError _ _ s

theorem execZtrl_keeps (v : Word) (s : State) : KeepsHostFields s (execZtrl v s) := by
  have hal : HostFieldsKept s (align s) := ⟨rfl, rfl, rfl, rfl, rfl⟩
  refine ⟨_, rfl, ?_⟩
  split_ifs
  · exact (hostFieldsKept_raiseError _ _ _).after hal
  · exact (hostFieldsKept_raiseError _ _ _).after hal
  · exact .after (hostFieldsKept_endInflate _) ⟨rfl, rfl, rfl, rfl, rfl⟩

theorem execStored_keeps (len nlen : BitVec 16) (s : State) : KeepsHostFields s (execStored len nlen s) := by
  refine ⟨_, rfl, ?_⟩
  split_ifs
  · exact hostFieldsKept_raiseError _ _ s
  · exact hostFieldsKept_raiseError _ _ s
  · exact hostFieldsKept_raiseError _ _ s
  · constructor <;> simp

theorem execDynhdr_keeps (hlit hdist : BitVec 5) (hclen : BitVec 4) (s : State) :
    KeepsHostFields s (execDynhdr hlit hdist hclen s) := by
  have hset : HostFieldsKept s (setCounts hlit hdist hclen s) := ⟨rfl, rfl, rfl, rfl, rfl⟩
  refine ⟨_, rfl, ?_⟩
  split
  · next hf => exact (hostFieldsKept_raiseError _ _ _).after ((hostFieldsKept_readFields.1 _ hf).after hset)
  · next hf =>
    have hread := (hostFieldsKept_readFields.2 _ _ hf).after hset
    split
    · exact (hostFieldsKept_raiseError _ _ _).after hread
    · exact hread.trans ⟨rfl, rfl, rfl, rfl, rfl⟩

theorem execClsym16_keeps (s : State) : KeepsHostFields s (execClsym16 s) := by
  refine ⟨_, rfl, ?_⟩
  split
  · exact hostFieldsKept_raiseError _ _ s
  · exact hostFieldsKept_repeatLen _ _ _ s

theorem execLit_keeps (b : Byte) (s : State) : KeepsHostFields s (execLit b s) := by
  refine ⟨_, rfl, ?_⟩
  split
  · exact hostFieldsKept_raiseError _ _ s
  · exact ⟨rfl, rfl, rfl, rfl, rfl⟩

/-! ### Every instruction -/

/-- Every instruction answers a next state, in which the host's fields are kept. -/
theorem exec_keeps (i : Instr) (s : State) : KeepsHostFields s (exec i s) := by
  cases i with
  | nop => exact execNop_keeps s
  | inflate | unfilter | decode => exact ⟨_, rfl, hostFieldsKept_startCommand _ s⟩
  | abort => exact execAbort_keeps s
  | reservedCmd op => exact execReservedCmd_keeps op s
  | zhdr cmf flg => exact execZhdr_keeps cmf flg s
  | blkStored | blkFixed | blkDynamic => exact ⟨_, rfl, rfl, rfl, rfl, rfl, rfl⟩
  | blkReserved => exact ⟨_, rfl, .after (hostFieldsKept_raiseError _ _ _) ⟨rfl, rfl, rfl, rfl, rfl⟩⟩
  | stored len nlen => exact execStored_keeps len nlen s
  | dynhdr hlit hdist hclen => exact execDynhdr_keeps hlit hdist hclen s
  | clsymLen => exact ⟨_, rfl, rfl, rfl, rfl, rfl, rfl⟩
  | clsym16 => exact execClsym16_keeps s
  | clsym17 | clsym18 => exact ⟨_, rfl, hostFieldsKept_repeatLen _ _ _ s⟩
  | lit b => exact execLit_keeps b s
  | eob => exact ⟨_, rfl, rfl, rfl, rfl, rfl, rfl⟩
  | len257 | len258 | len259 | len260 | len261 | len262 | len263 | len264 | len265 | len266 | len267 | len268 | len269
  | len270 | len271 | len272 | len273 | len274 | len275 | len276 | len277 | len278 | len279 | len280 | len281 | len282
  | len283 | len284 | len285 => exact ⟨_, rfl, hostFieldsKept_lengthSymbol _ _ s⟩
  | dist0 | dist1 | dist2 | dist3 | dist4 | dist5 | dist6 | dist7 | dist8 | dist9 | dist10 | dist11 | dist12 | dist13
  | dist14 | dist15 | dist16 | dist17 | dist18 | dist19 | dist20 | dist21 | dist22 | dist23 | dist24 | dist25 | dist26
  | dist27 | dist28 | dist29 => exact ⟨_, rfl, hostFieldsKept_distanceSymbol _ _ s⟩
  | ztrl v => exact execZtrl_keeps v s
  | filtNone | filtSub | filtUp | filtAvg | filtPaeth => exact ⟨_, rfl, hostFieldsKept_filterElement _ s⟩
  | llReserved | dReserved | filtReserved => exact ⟨_, rfl, hostFieldsKept_raiseError _ _ s⟩

/-- Settles O24: each instruction's meaning is built of operations that keep the fields the host alone writes. -/
theorem instructionsKeepConfiguration : Obligations.InstructionsKeepConfiguration := by
  intro i s t h
  obtain ⟨u, hu, hkept⟩ := exec_keeps i s
  rw [hu] at h
  cases h
  exact ⟨hkept.regs, hkept.irqEn, hkept.hostQueue, hkept.sched, hkept.hostData⟩

/-! ### A step of the engine -/

/-- In the state a turn hands on, the host's fields are those of s. -/
def Turn.KeepsHostFields (s : State) : Turn → Prop
  | .run _ t | .quiet t | .stop _ t => HostFieldsKept s t
  | .reject _ _ => True

theorem Turn.KeepsHostFields.after {s u : State} {n : Turn} (hn : n.KeepsHostFields u) (h : HostFieldsKept s u) :
    n.KeepsHostFields s := by
  cases n with
  | run _ _ | quiet _ | stop _ _ => exact HostFieldsKept.after hn h
  | reject _ _ => trivial

theorem elementTurn_keeps (f : Format) (v : Nat) (s : State) : (elementTurn f v s).KeepsHostFields s := by
  unfold elementTurn
  split
  · exact .refl s
  · trivial

theorem hostFieldsKept_storedCut (s : State) : HostFieldsKept s (storedCut s) := by
  unfold storedCut
  split
  · exact hostFieldsKept_raiseError _ _ s
  · exact .after (hostFieldsKept_raiseError _ _ _) ⟨rfl, rfl, rfl, rfl, rfl⟩

theorem hostFieldsKept_fieldCut (f : Format) (s : State) : HostFieldsKept s (fieldCut f s) := by
  cases f with
  | stored => exact hostFieldsKept_storedCut s
  | _ => exact hostFieldsKept_raiseError _ _ s

theorem fetchField_keeps (f : Format) (s : State) : (fetchField f s).KeepsHostFields s := by
  unfold fetchField
  split
  · exact hostFieldsKept_fieldCut f s
  · next hr => exact .after (elementTurn_keeps _ _ _) (hostFieldsKept_readBits hr)

theorem fetchSymbol_keeps (f : Format) (T : Tree) (c : Cause) (s : State) :
    (fetchSymbol f T c s).KeepsHostFields s := by
  unfold fetchSymbol
  split
  · exact hostFieldsKept_raiseError _ _ s
  · next hd =>
    obtain ⟨k, len, -, -, rfl⟩ := decodeSym_eq_sym hd
    exact .after (elementTurn_keeps _ _ _) ⟨rfl, rfl, rfl, rfl, rfl⟩

theorem fetchElement_keeps (s : State) : (fetchElement s).KeepsHostFields s := by
  unfold fetchElement
  split
  · exact .refl s
  · exact elementTurn_keeps _ _ s
  · exact fetchField_keeps _ s
  · exact fetchField_keeps _ s
  · split_ifs
    · exact fetchField_keeps _ s
    · exact fetchSymbol_keeps _ _ _ s
    · exact hostFieldsKept_finishTrees s
  · split
    · exact fetchSymbol_keeps _ _ _ s
    · exact fetchSymbol_keeps _ _ _ s
  · exact hostFieldsKept_streamEnd s
  · exact elementTurn_keeps _ _ s
  · exact elementTurn_keeps _ _ s

theorem engineTurn_keeps (s : State) : (engineTurn s).KeepsHostFields s := by
  unfold engineTurn
  split
  · exact .refl s
  split
  · exact hostFieldsKept_endRace s
  · exact ⟨rfl, rfl, rfl, rfl, rfl⟩
  · exact .after (fetchElement_keeps _) ⟨rfl, rfl, rfl, rfl, rfl⟩
  · have hf := fetchElement_keeps s
    split
    · next hrun => rwa [hrun] at hf
    all_goals exact hostFieldsKept_abortStop _ s
  · exact fetchElement_keeps s

/-- A step that runs a turn keeps what the turn keeps. -/
theorem hostFieldsKept_of_step {r s t : State} (hn : (nextTurn s).KeepsHostFields r) (hstep : step s = .next t) :
    HostFieldsKept r t := by
  cases hturn : nextTurn s with
  | run i u =>
    obtain ⟨v, hv, hkept⟩ := exec_keeps i u
    rw [step_of_run hturn, hv] at hstep
    cases hstep
    exact hkept.after (by rwa [hturn] at hn)
  | quiet u =>
    rw [step_of_quiet hturn] at hstep
    cases hstep
    rwa [hturn] at hn
  | reject f v =>
    unfold step at hstep
    rw [hturn] at hstep
    cases hstep
  | stop i u =>
    obtain ⟨v, hv, -⟩ := exec_keeps i u
    rw [step_of_stop hturn hv] at hstep
    cases hstep
    exact (hostFieldsKept_abortStop _ u).after (by rwa [hturn] at hn)

theorem hostFieldsKept_of_engine_step {s t : State} (hb : s.status.busy = true) (hs : s.sched.head? ≠ some .host)
    (hstep : step s = .next t) : HostFieldsKept (takeTurn s) t := by
  refine hostFieldsKept_of_step ?_ hstep
  rw [nextTurn_of_not_hostNext (not_hostNext hb hs)]
  exact engineTurn_keeps _

end Sys2Proof.Machine
end

section
/-! The host's register accesses: what each register reads as, what a write changes, and the steps that deliver them
(10_state.md R101 to R114). -/

namespace Sys2Proof.Machine

open Sys2Proof.Statements

/-! ### Reads -/

theorem regValue_of_reserved {off : Nat} (h : 0x48 ≤ off) (s : State) : regValue off s = 0 := by
  unfold regValue
  split <;> first | omega | rfl

/-- At reset every register but the identification reads 0 (10_state.md R146). -/
theorem regValue_reset (off : Nat) : regValue off State.reset = if off = 0 then 0x44460001 else 0 := by
  by_cases h0 : off = 0
  · rw [h0]
    rfl
  · rw [if_neg h0]
    unfold regValue
    split <;> first | rfl | exact absurd rfl h0

theorem readReg_eq_regValue {off : BitVec 8} {n : Nat} {s : State} (hs : supported off n = true)
    (hp : s.status.busy = true → off ≠ 0x0C ∧ off ≠ 0x20) :
    readReg off n s = { s with hostData := regValue off.toNat s } := by
  have hstat : ¬(s.status.busy && off == 0x0C) = true := by
    simp only [Bool.and_eq_true, beq_iff_eq]
    exact fun hc => (hp hc.1).1 hc.2
  have hout : ¬(s.status.busy && off == 0x20) = true := by
    simp only [Bool.and_eq_true, beq_iff_eq]
    exact fun hc => (hp hc.1).2 hc.2
  rw [readReg, if_neg (by simp [hs]), if_neg hstat, if_neg hout]

theorem readReg_status_of_busy {s : State} (hb : s.status.busy = true) : readReg 0x0C 4 s = showStage s := by
  rw [readReg, if_neg (by decide), if_pos (by rw [hb]; rfl)]

theorem readReg_outCount_of_busy {s : State} (hb : s.status.busy = true) : readReg 0x20 4 s = showOut s := by
  rw [readReg, if_neg (by decide), if_neg (by rw [hb]; decide), if_pos (by rw [hb]; rfl)]

/-- Settles O22: no register but the identification is set at reset. -/
theorem resetRegisters : Obligations.ResetRegisters := by
  refine ⟨fun off hoff => ?_, rfl, rfl, rfl⟩
  have hs : supported off 4 = true := by simpa [supported] using hoff
  rw [readReg_eq_regValue hs (fun hb => Bool.noConfusion hb)]
  exact (regValue_reset off.toNat).trans (if_congr (by rw [BitVec.toNat_eq]; rfl) rfl rfl)

/-! ### The steps that deliver a register access -/

theorem step_regRead {s : State} {off : BitVec 8} {n : Nat} {q : List HostAccess}
    (h : HostDelivers s (.regRead off n) q) : step s = .next (readReg off n (taken s q)) :=
  step_of_quiet (nextTurn_of_delivers h)

theorem step_regWrite {s : State} {off : BitVec 8} {n : Nat} {v : Word} {q : List HostAccess}
    (h : HostDelivers s (.regWrite off n v) q) (hs : supported off n = true) (hcmd : off ≠ 0x08) :
    step s = .next (writeReg off.toNat v (taken s q)) := by
  refine step_of_quiet ?_
  rw [nextTurn_of_delivers h, deliver, if_neg (by simp [hs]), if_neg hcmd]

/-- A read of a register at an offset of the window gives its value and changes nothing else. -/
theorem step_regRead_value {s : State} {off : Nat} {q : List HostAccess}
    (h : HostDelivers s (.regRead (BitVec.ofNat 8 off) 4) q) (hlt : off < 0x100) (hoff : off % 4 = 0)
    (hp : s.status.busy = true → off ≠ 0x0C ∧ off ≠ 0x20) :
    step s = .next { taken s q with hostData := regValue off s } := by
  have hto : (BitVec.ofNat 8 off).toNat = off := by
    rw [BitVec.toNat_ofNat]
    exact Nat.mod_eq_of_lt hlt
  have hs : supported (BitVec.ofNat 8 off) 4 = true := by simp [supported, hto, hoff]
  rw [step_regRead h, readReg_eq_regValue hs, hto]
  · rfl
  · intro hb
    obtain ⟨h1, h2⟩ := hp hb
    exact ⟨fun he => h1 (by rw [← hto, he]; rfl), fun he => h2 (by rw [← hto, he]; rfl)⟩

/-! ### STATUS -/

theorem stageNumber_eq_code (g : Stage) : stageNumber g = g.code := by cases g <;> rfl

theorem statusBits_eq_word (f : Status) : statusBits f = f.word := by
  rw [statusBits, Status.word, stageNumber_eq_code]

/-- Bits 1 to 3 of a word. -/
theorem and_doneErrIgn (v : Word) :
    v &&& 0xE = BitVec.ofNat 32 (2 * (v.getLsbD 1).toNat + 4 * (v.getLsbD 2).toNat + 8 * (v.getLsbD 3).toNat) := by
  have hbits : ∀ (i : Fin 32) (x y z b : Bool), (i = 1 → b = x) → (i = 2 → b = y) → (i = 3 → b = z) →
      (b && (0xE : Word).getLsbD i)
        = (BitVec.ofNat 32 (2 * x.toNat + 4 * y.toNat + 8 * z.toNat)).getLsbD i := by decide
  refine BitVec.eq_of_getLsbD_eq fun i hi => ?_
  rw [BitVec.getLsbD_and]
  refine hbits ⟨i, hi⟩ _ _ _ _ ?_ ?_ ?_ <;> rintro ⟨⟩ <;> rfl

/-- Write-1-to-clear in terms of the word STATUS reads as (10_state.md R106). -/
theorem Status.word_clear (f : Status) (v : Word) : (f.clear v).word = f.word &&& ~~~(v &&& 0xE) := by
  obtain ⟨busy, done, err, ign, stage⟩ := f
  rw [and_doneErrIgn]
  simp only [Status.clear]
  generalize v.getLsbD 1 = x, v.getLsbD 2 = y, v.getLsbD 3 = z
  cases stage <;> revert busy done err ign x y z <;> decide

theorem writeReg_status (v : Word) (s : State) : writeReg 0x0C v s = { s with status := s.status.clear v } := rfl

theorem regValue_withStatus {o : Nat} (ho : o ≠ 0x0C) (s : State) (f : Status) :
    regValue o { s with status := f } = regValue o s := by
  unfold regValue
  split <;> first | rfl | exact absurd rfl ho

/-- Settles O26: the write clears the bits it has a 1 for, in STATUS alone. -/
theorem statusWriteOneToClear : Obligations.StatusWriteOneToClear := by
  intro s v
  refine ⟨fun q h => step_regWrite h rfl (by decide), s.status.word_clear v, fun o ho => ?_⟩
  rw [writeReg_status]
  exact regValue_withStatus ho s _

/-- Settles O28: what a read shows lies between what was shown before and what has been reached. -/
theorem progressReads : Obligations.ProgressReads := by
  intro s q h hb hr
  have ht : Invariant (taken s q) := h.takeTurn.withBus q _ _ _
  have hbt : (taken s q).status.busy = true := hb
  have hrt : (taken s q).raceIn = none := hr
  constructor
  · intro hd
    obtain ⟨w, he, hlo, hhi⟩ := showOut_spec ht hbt
    rw [outReached, hrt] at hhi
    exact ⟨w, _, by rw [step_regRead hd, readReg_outCount_of_busy hbt, he], hlo, hhi⟩
  · intro hd
    obtain ⟨g, he, hlo, hhi, hpath⟩ := showStage_spec ht hbt
    rw [stageReached, hrt] at hhi
    simp only [stageNumber_eq_code, statusBits_eq_word]
    refine ⟨g, _, by rw [step_regRead hd, readReg_status_of_busy hbt, he]; rfl, hlo, hhi, ?_, ?_⟩
    all_goals
      intro hc
      rw [show (taken s q).cmd = _ from hc] at hpath
      rintro rfl
      simp [stagePath] at hpath

/-! ### The configuration registers -/

/-- The RW registers are the ones that ignore a write while BUSY (70_reset_and_hazards.md R1210). -/
theorem isConfig_of_mem {off : Nat} {mask : Word} (h : (off, mask) ∈ configMasks) :
    isConfig off = true ∧ off < 0x100 ∧ off % 4 = 0 ∧ off ∉ [0, 0x08, 0x0C, 0x20] := by
  have hall : ∀ r ∈ configMasks, isConfig r.1 = true ∧ r.1 < 0x100 ∧ r.1 % 4 = 0 ∧ r.1 ∉ [0, 0x08, 0x0C, 0x20] := by
    decide
  exact hall _ h

theorem regValue_of_hostFieldsKept {off : Nat} {s t : State} (ho : isConfig off = true) (h : HostFieldsKept s t) :
    regValue off t = regValue off s := by
  simp only [isConfig, List.contains_eq_mem, List.mem_cons, List.not_mem_nil, or_false, decide_eq_true_eq] at ho
  rcases ho with rfl | rfl | rfl | rfl | rfl | rfl | rfl | rfl | rfl | rfl <;> simp only [regValue, h.regs, h.irqEn]

/-- CTRL stores bits 0 and 1 (10_state.md R104). -/
theorem ctrlWord_getLsbD (v : Word) : ctrlWord (v.getLsbD 0) (v.getLsbD 1) = v &&& 0x3 := by
  have hmod : v.toNat &&& 3 = v.toNat % 4 := Nat.and_two_pow_sub_one_eq_mod v.toNat 2
  refine BitVec.eq_of_toNat_eq ?_
  simp only [ctrlWord, BitVec.getLsbD, Nat.toNat_testBit, BitVec.toNat_ofNat, BitVec.toNat_and]
  change _ = v.toNat &&& 3
  rw [hmod]
  omega

/-- IMG_FMT stores bits [23:0] (10_state.md R113). -/
theorem fmtWord_fields (p : Params) (v : Word) :
    { p with
      bitDepth := v.setWidth 8
      colorMode := (v >>> 8).setWidth 8
      interlace := (v >>> 16).setWidth 8 }.fmtWord = v &&& 0x00FFFFFF := by
  have hmod : v.toNat &&& 0xFFFFFF = v.toNat % 2 ^ 24 := Nat.and_two_pow_sub_one_eq_mod v.toNat 24
  refine BitVec.eq_of_toNat_eq ?_
  simp only [Params.fmtWord, BitVec.toNat_setWidth, BitVec.toNat_ushiftRight, Nat.shiftRight_eq_div_pow,
    BitVec.toNat_ofNat, BitVec.toNat_and]
  change _ = v.toNat &&& 0xFFFFFF
  rw [hmod]
  omega

/-- A configuration register reads back the bits of it that are stored. -/
theorem regValue_writeConfig_self {off : Nat} {mask : Word} (h : (off, mask) ∈ configMasks) (v : Word) (s : State) :
    regValue off (writeConfig off v s) = v &&& mask := by
  have full : v = v &&& 0xFFFFFFFF := BitVec.and_allOnes.symm
  have hall : ∀ r ∈ configMasks, regValue r.1 (writeConfig r.1 v s) = v &&& r.2 := by
    simp only [configMasks, List.forall_mem_cons]
    exact ⟨ctrlWord_getLsbD v, full, full, full, full, full, full, full, full, fmtWord_fields s.regs v, nofun⟩
  exact hall _ h

theorem regValue_writeConfig_of_ne {off o : Nat} (ho : o ≠ off) (v : Word) (s : State) :
    regValue o (writeConfig off v s) = regValue o s := by
  unfold writeConfig
  split <;> unfold regValue <;> split <;> first | rfl | exact absurd rfl ho

theorem writeReg_of_isConfig {off : Nat} {s : State} (ho : isConfig off = true) (hb : s.status.busy = false)
    (v : Word) :
    writeReg off v s = writeConfig off v s := by
  have hstat : off ≠ 0x0C := by
    rintro rfl
    cases ho
  rw [writeReg, if_neg hstat, if_pos ho, if_neg (by simp [hb])]

/-- The two words of ERR_BITPOS (10_state.md R109). -/
theorem bitpos_low (b : BitCursor) : BitVec.ofNat 32 (b.toNat % 2 ^ 32) = b.setWidth 32 := by
  refine BitVec.eq_of_toNat_eq ?_
  simp only [BitVec.toNat_ofNat, BitVec.toNat_setWidth]
  omega

theorem bitpos_high (b : BitCursor) : BitVec.ofNat 32 (b.toNat / 2 ^ 32) = (b >>> 32).setWidth 32 := by
  refine BitVec.eq_of_toNat_eq ?_
  simp only [BitVec.toNat_ofNat, BitVec.toNat_setWidth, BitVec.toNat_ushiftRight, Nat.shiftRight_eq_div_pow]

/-- What the rules of the registers name is what the window gives, register by register. -/
theorem readValues_eq (s : State) : readValues s = (List.range 18).map fun k => (4 * k, regValue (4 * k) s) := by
  rw [readValues, statusBits_eq_word, bitpos_low, bitpos_high]
  rfl

theorem regValue_of_mem_readValues {s : State} {off : Nat} {w : Word} (h : (off, w) ∈ readValues s) :
    regValue off s = w ∧ off < 0x100 ∧ off % 4 = 0 := by
  rw [readValues_eq, List.mem_map] at h
  obtain ⟨k, hk, he⟩ := h
  obtain ⟨rfl, rfl⟩ := Prod.mk.inj he
  rw [List.mem_range] at hk
  exact ⟨rfl, by omega, by omega⟩

/-- Settles O23: a write reaches its own register alone, a read gives the register's value, and the engine keeps the
fields the RW registers are read from. -/
theorem registerReadBack : Obligations.RegisterReadBack := by
  refine ⟨fun s off mask hm => ?_, fun s off q hd => ⟨fun w hw hp => ?_, fun hlo hhi hal => ?_⟩⟩
  · obtain ⟨hc, hlt, hal, hne⟩ := isConfig_of_mem hm
    simp only [List.mem_cons, List.not_mem_nil, or_false, not_or] at hne
    obtain ⟨h0, hcmd, hstat, hcount⟩ := hne
    have hto : (BitVec.ofNat 8 off).toNat = off := by
      rw [BitVec.toNat_ofNat]
      exact Nat.mod_eq_of_lt hlt
    refine ⟨by rw [regValue_reset, if_neg h0], fun v q hd hb => ?_, fun q hd => ?_, fun t _ hb hs hstep => ?_⟩
    · have hsup : supported (BitVec.ofNat 8 off) 4 = true := by simp [supported, hto, hal]
      refine ⟨_, step_regWrite hd hsup (fun he => hcmd (by rw [← hto, he]; rfl)), ?_⟩
      rw [hto, writeReg_of_isConfig (s := taken s q) hc hb]
      exact ⟨regValue_writeConfig_self hm v _, fun o ho => regValue_writeConfig_of_ne ho v _⟩
    · exact step_regRead_value hd hlt hal fun _ => ⟨hstat, hcount⟩
    · exact regValue_of_hostFieldsKept (s := takeTurn s) hc (hostFieldsKept_of_engine_step hb hs hstep)
  · obtain ⟨rfl, hlt, hal⟩ := regValue_of_mem_readValues hw
    exact step_regRead_value hd hlt hal hp
  · rw [step_regRead_value hd hhi hal (fun _ => by omega), regValue_of_reserved hlo]

end Sys2Proof.Machine
end

section
/-! Memory as the host and the engine see it: its bytes determine it, what the engine may write of it, and the host's
accesses to it and the race they can start (20_memory.md). -/

namespace Sys2Proof.Machine

open Sys2Proof.Statements

/-! ### The canonical form -/

theorem Memory.wfFrom_cons_iff {lo k : Nat} {v : Byte} {m : Memory} :
    Memory.wfFrom lo ((k, v) :: m) = true
      ↔ lo ≤ k ∧ k < memorySize ∧ v ≠ Config.unlistedByte ∧ Memory.wfFrom (k + 1) m = true := by
  simp [Memory.wfFrom, and_assoc]

theorem Memory.read_head (k : Nat) (v : Byte) (m : Memory) : Memory.read ((k, v) :: m) k = v := if_pos rfl

theorem Memory.read_tail {a k : Nat} (h : a ≠ k) (v : Byte) (m : Memory) :
    Memory.read ((k, v) :: m) a = Memory.read m a :=
  if_neg h

theorem Memory.read_before_head {lo a k : Nat} {v : Byte} {m : Memory} (h : Memory.wfFrom lo ((k, v) :: m) = true)
    (ha : a < k) : Memory.read ((k, v) :: m) a = Config.unlistedByte := by
  obtain ⟨-, hsize, hv, hm⟩ := Memory.wfFrom_cons_iff.mp h
  exact Memory.read_below (Memory.wfFrom_cons_iff.mpr ⟨le_refl k, hsize, hv, hm⟩) ha

/-- A memory with the same bytes lists an address no later than the first one listed. -/
theorem Memory.exists_cons_of_read_eq {lo lo' k : Nat} {v : Byte} {m n : Memory}
    (hm : Memory.wfFrom lo ((k, v) :: m) = true) (hn : Memory.wfFrom lo' n = true)
    (h : Memory.read n k = Memory.read ((k, v) :: m) k) : ∃ l w n', n = (l, w) :: n' ∧ l ≤ k := by
  obtain ⟨-, -, hv, -⟩ := Memory.wfFrom_cons_iff.mp hm
  rw [Memory.read_head] at h
  cases n with
  | nil => exact absurd h.symm hv
  | cons c n =>
    refine ⟨c.1, c.2, n, rfl, Nat.le_of_not_lt fun hk => hv ?_⟩
    rw [← h]
    exact Memory.read_before_head hn hk

/-- Canonical memories with the same bytes are the same list. -/
theorem Memory.eq_of_read_eq {lo lo' : Nat} {m n : Memory} (hm : Memory.wfFrom lo m = true)
    (hn : Memory.wfFrom lo' n = true) (h : ∀ a, Memory.read m a = Memory.read n a) : m = n := by
  induction m generalizing lo lo' n with
  | nil =>
    cases n with
    | nil => rfl
    | cons c n =>
      obtain ⟨_, _, _, hnil, -⟩ := Memory.exists_cons_of_read_eq hn hm (h c.1)
      cases hnil
  | cons c m ih =>
    obtain ⟨k, v⟩ := c
    obtain ⟨l, w, n, rfl, hle⟩ := Memory.exists_cons_of_read_eq hm hn (h k).symm
    obtain ⟨_, _, _, hcons, hge⟩ := Memory.exists_cons_of_read_eq hn hm (h l)
    cases hcons
    obtain rfl : k = l := le_antisymm hge hle
    have hvw : v = w := by simpa only [Memory.read_head] using h k
    obtain ⟨-, -, -, hm'⟩ := Memory.wfFrom_cons_iff.mp hm
    obtain ⟨-, -, -, hn'⟩ := Memory.wfFrom_cons_iff.mp hn
    have htail : m = n := by
      refine ih hm' hn' fun a => ?_
      by_cases ha : a = k
      · rw [Memory.read_below hm' (by omega), Memory.read_below hn' (by omega)]
      · simpa only [Memory.read_tail ha] using h a
    rw [hvw, htail]

/-- Settles O32: reads after a write, and extensionality of the canonical form by induction on the listed bytes. -/
theorem memoryPrimitives : Obligations.MemoryPrimitives :=
  ⟨fun _ _ _ _ h ha => ⟨Memory.wf_write h ha, Memory.read_write_from h⟩,
    fun _ _ hm hn h => Memory.eq_of_read_eq hm hn h⟩

/-! ### Regions -/

/-- A byte of a region lies in no region that does not overlap it. -/
theorem Region.has_addr_of_disjoint {r q : Region} {i : Nat} (hr : r.inside) (hq : q.inside)
    (ho : r.overlaps q = false) (hi : i < r.len.toNat) : q.has (r.addr i) = false := by
  by_contra hc
  obtain ⟨hlo, hhi⟩ : q.base.toNat ≤ r.addr i ∧ r.addr i < q.base.toNat + q.len.toNat := by
    simpa [Region.has] using hc
  have hj : r.addr i - q.base.toNat < q.len.toNat := by omega
  refine Region.addr_ne hr hq ho hi hj ?_
  rw [Region.addr_eq hq hj]
  omega

/-- SRC lies outside the written regions of a running command (20_memory.md R205). -/
theorem Invariant.src_outside {s : State} (h : Invariant s) (hb : s.status.busy = true) {j : Nat}
    (hj : j < s.snap.src.len.toNat) : Outside (writtenRegions s.cmd s.snap) (s.snap.src.addr j) := by
  obtain ⟨-, -, -, -, hchecks⟩ := h.running hb
  obtain ⟨hsrc, hdst, hsd, hdec⟩ := regions_of_checks hchecks
  have hd := Region.has_addr_of_disjoint hsrc hdst hsd hj
  intro r hr
  cases hc : s.cmd with
  | inflate | unfilter =>
    obtain rfl : r = s.snap.dst := by simpa [writtenRegions, hc] using hr
    exact hd
  | decode =>
    obtain ⟨hwork, hsw, -⟩ := hdec hc
    obtain rfl | rfl : r = s.snap.work ∨ r = s.snap.dst := by simpa [writtenRegions, hc] using hr
    · exact Region.has_addr_of_disjoint hsrc hwork hsw hj
    · exact hd

/-- An error raised before a stage has begun changes no byte (20_memory.md R221). -/
theorem raiseError_mem_of_idle {s : State} (h : s.status.stage = .idle) (c : Cause) (i : Word) :
    (raiseError c i s).mem = s.mem := by
  unfold raiseError
  rw [if_pos h]

/-- Settles O19: the error's free bytes fall in the written regions, which SRC is outside of. -/
theorem errorKeepsOtherMemory : Obligations.ErrorKeepsOtherMemory := by
  intro c info s hm hr
  have hframe := fun a => read_raiseError (c := c) (i := info) (a := a) hm hr
  exact ⟨hframe, fun hi => raiseError_mem_of_idle hi c info, fun h hb j hj => hframe _ (h.src_outside hb hj)⟩

/-! ### What a step of the engine may write -/

theorem EngineStep.frame {s t : State} {a : Nat} (hstep : EngineStep s t) (h : Invariant s) (hb : s.status.busy = true)
    (ha : Outside (writtenRegions s.cmd s.snap) a) : t.mem.read a = s.mem.read a := by
  cases hstep with
  | goesOn n hA => exact hA.frame a ha
  | @stops upTo u hu hI =>
    have hkept : u.status = s.status ∧ u.cmd = s.cmd ∧ u.snap = s.snap ∧ u.mem = s.mem := by
      rw [hu]
      exact ⟨rfl, rfl, rfl, rfl⟩
    obtain ⟨hstatus, hcmd, hsnap, hmem⟩ := hkept
    obtain ⟨-, hframe⟩ := abortStop_spec hI (hstatus ▸ hb) upTo
    rw [hframe a (by rw [hcmd, hsnap]; exact ha), hmem]
  | raceTicks _ => rfl
  | raceEnds _ =>
    obtain ⟨-, -, -, -, hframe⟩ := endRace_spec h hb
    exact hframe a ha

theorem regionsOfCommands : RegionsOfCommands := by
  refine ⟨fun _ => ⟨rfl, rfl⟩, fun r a => by simp [Region.has], fun _ _ hr hi => Region.addr_eq hr hi,
    fun s => ⟨?_, rfl⟩⟩
  unfold outRegion
  cases s.cmd <;> rfl

/-- Settles O36: each kind of engine step has its frame, read off the inversion of the step. -/
theorem engineWritesOnlyWrittenRegions : Obligations.EngineWritesOnlyWrittenRegions :=
  ⟨regionsOfCommands, fun _ _ _ h hb hs hstep ha => (engineStep_of_step h hb hs hstep).frame h.takeTurn hb ha⟩

/-! ### The host's accesses -/

theorem any_has_eq_false {rs : List Region} {a : Nat} : rs.any (·.has a) = false ↔ Outside rs a := by
  simp [Outside]

/-- Everything a host write to memory changes, but for the race it may start. -/
theorem hostMemWrite_eq (a : Word) (v : Byte) (s : State) :
    hostMemWrite a v s =
      { s with
        mem := s.mem.write a.toNat v
        raceIn := (hostMemWrite a v s).raceIn
        draws := (hostMemWrite a v s).draws } := by
  unfold hostMemWrite
  simp only
  split <;> rfl

theorem hostMemWrite_raceIn_of_unused {a : Word} {s : State}
    (h : s.status.busy = false ∨ Outside (usedRegions s.cmd s.snap) a.toNat) (v : Byte) :
    (hostMemWrite a v s).raceIn = s.raceIn := by
  unfold hostMemWrite
  rw [if_neg]
  rcases h with h | h
  · simp [h]
  · simp [any_has_eq_false.mpr h]

theorem hostMemWrite_raceIn_of_used {a : Word} {s : State} (hb : s.status.busy = true)
    (h : ¬Outside (usedRegions s.cmd s.snap) a.toNat) (v : Byte) : (hostMemWrite a v s).raceIn ≠ none := by
  rw [← any_has_eq_false, Bool.not_eq_false] at h
  unfold hostMemWrite
  cases hr : s.raceIn with
  | none => simp [hb, h]
  | some n => simp

theorem hostMemRead_mem (a : Word) (s : State) : (hostMemRead a s).mem = s.mem := by
  unfold hostMemRead
  split <;> rfl

theorem hostMemRead_hostData {a : Word} {s : State}
    (h : s.status.busy = false ∨ Outside (writtenRegions s.cmd s.snap) a.toNat) :
    (hostMemRead a s).hostData = (s.mem.read a.toNat).setWidth 32 := by
  unfold hostMemRead
  rw [if_neg]
  rcases h with h | h
  · simp [h]
  · simp [any_has_eq_false.mpr h]

/-- Settles O29: the step that delivers the access is the access. -/
theorem hostMemoryAccesses : Obligations.HostMemoryAccesses := by
  intro s a v q hm
  constructor
  · intro hd
    refine ⟨_, step_of_quiet (nextTurn_of_delivers hd), fun b => ?_, ?_, ?_, ?_,
      fun h => hostMemWrite_raceIn_of_unused (s := taken s q) h v,
      fun hb h => hostMemWrite_raceIn_of_used (s := taken s q) hb h v⟩
    · rw [hostMemWrite_eq]
      exact Memory.read_write_from hm
    all_goals
      rw [hostMemWrite_eq]
      rfl
  · intro hd
    exact ⟨_, step_of_quiet (nextTurn_of_delivers hd), hostMemRead_mem a _, hostMemRead_hostData (s := taken s q)⟩

/-- Settles O27: an access the window does not support reaches no register. -/
theorem unsupportedAccesses : Obligations.UnsupportedAccesses := by
  intro s off bytes v q h
  have hs : (!supported off bytes) = true := by
    rcases h with h | h <;> simp [supported, h]
  constructor
  · intro hd
    refine step_of_quiet ?_
    rw [nextTurn_of_delivers hd, deliver, if_pos hs]
  · intro hd
    refine ⟨Config.freeWord s.draws, s.draws + 1, ?_⟩
    rw [step_regRead hd, readReg, if_pos hs]
    rfl

/-! ### Races -/

theorem step_of_raceTick {s : State} {n : Nat} (hb : s.status.busy = true) (hs : s.sched.head? ≠ some .host)
    (hr : s.raceIn = some (n + 1)) : step s = .next { takeTurn s with raceIn := some n } := by
  refine step_of_quiet ?_
  rw [nextTurn_of_not_hostNext (not_hostNext hb hs)]
  simp [engineTurn, takeTurn, hb, hr]

theorem step_of_raceEnd {s : State} (hb : s.status.busy = true) (hs : s.sched.head? ≠ some .host)
    (hr : s.raceIn = some 0) : step s = .next (endRace (takeTurn s)) := by
  refine step_of_quiet ?_
  rw [nextTurn_of_not_hostNext (not_hostNext hb hs)]
  simp [engineTurn, takeTurn, hb, hr]

/-- How a race ends does not depend on the steps it was left. -/
theorem endRace_withRace (r : Option Nat) (s : State) : endRace { s with raceIn := r } = endRace s := rfl

/-- Left to itself, a command with n steps left to it ends in the step after them. -/
theorem steps_of_race {s : State} {n : Nat} (hb : s.status.busy = true) (hs : s.sched = []) (hr : s.raceIn = some n) :
    steps (n + 1) s = some (endRace s) := by
  have hhost : s.sched.head? ≠ some .host := by rw [hs]; nofun
  have htake := takeTurn_of_sched_nil hs
  induction n generalizing s with
  | zero =>
    have hstep := step_of_raceEnd hb hhost hr
    simp only [steps, hstep, htake]
  | succ n ih =>
    have hstep := step_of_raceTick hb hhost hr
    rw [htake] at hstep
    rw [steps, hstep, ← endRace_withRace (some n) s]
    exact ih (s := { s with raceIn := some n }) hb hs rfl hhost (takeTurn_of_sched_nil hs)

/-- Only a running command is in a race. -/
theorem Invariant.busy_of_race {s : State} {n : Nat} (h : Invariant s) (hr : s.raceIn = some n) :
    s.status.busy = true := by
  by_contra hb
  obtain ⟨-, hnone⟩ := h.resting (Bool.eq_false_of_not_eq_true hb)
  rw [hnone] at hr
  cases hr

/-- Settles O30: the count runs down by induction, and the race's end is the same whatever was left. -/
theorem racedCommandEnds : Obligations.RacedCommandEnds := by
  intro s n h hr
  have hb := h.busy_of_race hr
  constructor
  · intro hs
    obtain ⟨-, hend⟩ := endRace_spec h hb
    exact ⟨n + 1, _, le_refl _, steps_of_race hb hs hr, hend⟩
  · rintro rfl hs
    obtain ⟨-, hend⟩ := endRace_spec h.takeTurn hb
    exact ⟨_, step_of_raceEnd hb hs hr, hend⟩

end Sys2Proof.Machine
end

section
/-! The encoding (30_encoding.md): every well-formed instruction is the one its value spells, every value that decodes
is its instruction's encoding, and one row of the opcode table selects it. -/

namespace Sys2Proof.Machine

open Sys2Proof.Statements Sys2Proof.Laws

/-! ### The decoder of each format -/

theorem decode_cmd_of_lt {v : Nat} (h : v < 2 ^ 32) : decode .cmd v = .ok (decodeCmd v) := if_pos h
theorem decode_zhdr_of_lt {v : Nat} (h : v < 2 ^ 16) : decode .zhdr v = .ok (decodeZhdr v) := if_pos h
theorem decode_blkhdr_of_lt {v : Nat} (h : v < 2 ^ 3) : decode .blkhdr v = .ok (decodeBlkhdr v) := if_pos h
theorem decode_stored_of_lt {v : Nat} (h : v < 2 ^ 32) : decode .stored v = .ok (decodeStored v) := if_pos h
theorem decode_dynhdr_of_lt {v : Nat} (h : v < 2 ^ 14) : decode .dynhdr v = .ok (decodeDynhdr v) := if_pos h
theorem decode_clsym_of_lt {v : Nat} (h : v < 2 ^ 5) : decode .clsym v = decodeClsym v := if_pos h
theorem decode_llsym_of_lt {v : Nat} (h : v < 2 ^ 9) : decode .llsym v = decodeLlsym v := if_pos h
theorem decode_dsym_of_lt {v : Nat} (h : v < 2 ^ 5) : decode .dsym v = .ok (decodeDsym v) := if_pos h
theorem decode_ztrl_of_lt {v : Nat} (h : v < 2 ^ 32) : decode .ztrl v = .ok (.ztrl (BitVec.ofNat 32 v)) := if_pos h
theorem decode_filt_of_lt {v : Nat} (h : v < 2 ^ 8) : decode .filt v = .ok (decodeFilt v) := if_pos h

theorem lt_of_decode_eq_ok {f : Format} {v : Nat} {i : Instr} (h : decode f v = .ok i) : v < 2 ^ f.width := by
  by_contra hv
  rw [decode.eq_def, if_neg hv] at h
  cases h

/-- Bits [31:4] of a CMD word do not matter (30_encoding.md R300). -/
theorem decodeCmd_mod (v : Nat) : decodeCmd (v % 16) = decodeCmd v := by
  rw [decodeCmd, Nat.mod_mod, decodeCmd]

/-! ### Decoding what was encoded -/

/-- A reserved command's OP is none of the five other rows'. -/
theorem decodeCmd_reserved {op : BitVec 4} (h : (Instr.reservedCmd op).wf = true) :
    decodeCmd op.toNat = .reservedCmd op := by
  revert op
  decide

theorem decodeFilt_of_ge {v : Nat} (h : 5 ≤ v) : decodeFilt v = .filtReserved (BitVec.ofNat 8 v) := by
  unfold decodeFilt
  split
  case h_6 => rfl
  all_goals omega

theorem decodeFilt_reserved {ft : Byte} (h : (Instr.filtReserved ft).wf = true) :
    decodeFilt ft.toNat = .filtReserved ft := by
  rw [decodeFilt_of_ge (of_decide_eq_true h), BitVec.ofNat_toNat, BitVec.setWidth_eq]

theorem decodeZhdr_fields (cmf flg : Byte) : decodeZhdr (encode (.zhdr cmf flg)) = .zhdr cmf flg := by
  have := flg.isLt
  simp only [decodeZhdr, encode, Instr.zhdr.injEq]
  constructor <;> apply BitVec.eq_of_toNat_eq <;> simp only [BitVec.toNat_ofNat] <;> omega

theorem decodeStored_fields (len nlen : BitVec 16) :
    decodeStored (encode (.stored len nlen)) = .stored len nlen := by
  have := len.isLt
  have := nlen.isLt
  simp only [decodeStored, encode, Instr.stored.injEq]
  constructor <;> apply BitVec.eq_of_toNat_eq <;> simp only [BitVec.toNat_ofNat] <;> omega

theorem decodeDynhdr_fields (hlit hdist : BitVec 5) (hclen : BitVec 4) :
    decodeDynhdr (encode (.dynhdr hlit hdist hclen)) = .dynhdr hlit hdist hclen := by
  have := hlit.isLt
  have := hdist.isLt
  have := hclen.isLt
  simp only [decodeDynhdr, encode, Instr.dynhdr.injEq]
  refine ⟨?_, ?_, ?_⟩ <;> apply BitVec.eq_of_toNat_eq <;> simp only [BitVec.toNat_ofNat] <;> omega

theorem decodeClsym_len (l : BitVec 4) : decodeClsym l.toNat = .ok (.clsymLen l) := by
  rw [decodeClsym.eq_def, if_pos l.isLt, BitVec.ofNat_toNat, BitVec.setWidth_eq]

theorem decodeLlsym_lit (b : Byte) : decodeLlsym b.toNat = .ok (.lit b) := by
  rw [decodeLlsym.eq_def, if_pos b.isLt, BitVec.ofNat_toNat, BitVec.setWidth_eq]

/-- Settles O1: a row of one value by evaluation, a row with an operand by its format's fields. -/
theorem decodeOfEncode : Obligations.DecodeOfEncode := by
  intro i hw
  cases i with
  | reservedCmd op =>
    exact (decode_cmd_of_lt (EncodingFits.reservedCmd op hw)).trans (congrArg _ (decodeCmd_reserved hw))
  | zhdr cmf flg =>
    exact (decode_zhdr_of_lt (EncodingFits.zhdr cmf flg hw)).trans (congrArg _ (decodeZhdr_fields cmf flg))
  | blkStored b => cases b <;> rfl
  | blkFixed b => cases b <;> rfl
  | blkDynamic b => cases b <;> rfl
  | blkReserved b => cases b <;> rfl
  | stored len nlen =>
    exact (decode_stored_of_lt (EncodingFits.stored len nlen hw)).trans (congrArg _ (decodeStored_fields len nlen))
  | dynhdr hlit hdist hclen =>
    exact (decode_dynhdr_of_lt (EncodingFits.dynhdr hlit hdist hclen hw)).trans
      (congrArg _ (decodeDynhdr_fields hlit hdist hclen))
  | clsymLen l => exact (decode_clsym_of_lt (EncodingFits.clsymLen l hw)).trans (decodeClsym_len l)
  | lit b => exact (decode_llsym_of_lt (EncodingFits.lit b hw)).trans (decodeLlsym_lit b)
  | llReserved s =>
    have hs : s = 286 ∨ s = 287 := by simpa [Instr.wf, ← BitVec.toNat_inj] using hw
    rcases hs with rfl | rfl <;> rfl
  | dReserved d =>
    have hd : d = 30 ∨ d = 31 := by simpa [Instr.wf, ← BitVec.toNat_inj] using hw
    rcases hd with rfl | rfl <;> rfl
  | ztrl v =>
    rw [Instr.format, decode_ztrl_of_lt (EncodingFits.ztrl v hw), encode, BitVec.ofNat_toNat, BitVec.setWidth_eq]
  | filtReserved ft =>
    exact (decode_filt_of_lt (EncodingFits.filtReserved ft hw)).trans (congrArg _ (decodeFilt_reserved hw))
  | _ => rfl

/-! ### Encoding what was decoded -/

/-- The instruction is a well-formed one of the format, and the value is its encoding. -/
def Encodes (f : Format) (v : Nat) (i : Instr) : Prop := i.format = f ∧ i.wf = true ∧ encode i = v

theorem encodes_decodeCmd (v : Nat) : Encodes .cmd (v % 16) (decodeCmd v) := by
  rw [← decodeCmd_mod]
  have hv : v % 16 < 16 := Nat.mod_lt _ (by decide)
  generalize v % 16 = op at hv
  interval_cases op <;> exact ⟨rfl, rfl, rfl⟩

theorem encodes_decodeZhdr {v : Nat} (h : v < 2 ^ 16) : Encodes .zhdr v (decodeZhdr v) := by
  refine ⟨rfl, rfl, ?_⟩
  simp only [decodeZhdr, encode, BitVec.toNat_ofNat]
  omega

theorem encodes_decodeBlkhdr {v : Nat} (h : v < 2 ^ 3) : Encodes .blkhdr v (decodeBlkhdr v) := by
  interval_cases v <;> exact ⟨rfl, rfl, rfl⟩

theorem encodes_decodeStored {v : Nat} (h : v < 2 ^ 32) : Encodes .stored v (decodeStored v) := by
  refine ⟨rfl, rfl, ?_⟩
  simp only [decodeStored, encode, BitVec.toNat_ofNat]
  omega

theorem encodes_decodeDynhdr {v : Nat} (h : v < 2 ^ 14) : Encodes .dynhdr v (decodeDynhdr v) := by
  refine ⟨rfl, rfl, ?_⟩
  simp only [decodeDynhdr, encode, BitVec.toNat_ofNat]
  omega

theorem encodes_of_decodeClsym {v : Nat} {i : Instr} (h : decodeClsym v = .ok i) : Encodes .clsym v i := by
  unfold decodeClsym at h
  split at h
  · next hv =>
    cases h
    exact ⟨rfl, rfl, Nat.mod_eq_of_lt hv⟩
  · split at h <;> cases h <;> exact ⟨rfl, rfl, rfl⟩

theorem encodes_of_decodeLlsym {v : Nat} {i : Instr} (h : decodeLlsym v = .ok i) : Encodes .llsym v i := by
  unfold decodeLlsym at h
  split at h
  · next hv =>
    cases h
    exact ⟨rfl, rfl, Nat.mod_eq_of_lt hv⟩
  · split at h <;> cases h <;> exact ⟨rfl, rfl, rfl⟩

theorem encodes_decodeDsym {v : Nat} (h : v < 2 ^ 5) : Encodes .dsym v (decodeDsym v) := by
  interval_cases v <;> exact ⟨rfl, rfl, rfl⟩

theorem encodes_decodeFilt {v : Nat} (h : v < 2 ^ 8) : Encodes .filt v (decodeFilt v) := by
  by_cases h5 : 5 ≤ v
  · have hv : (BitVec.ofNat 8 v).toNat = v := Nat.mod_eq_of_lt h
    rw [decodeFilt_of_ge h5]
    exact ⟨rfl, by simpa [Instr.wf, hv] using h5, hv⟩
  · interval_cases v <;> exact ⟨rfl, rfl, rfl⟩

/-- Settles O2, format by format. -/
theorem encodeOfDecode : Obligations.EncodeOfDecode := by
  intro f v i h
  have hv := lt_of_decode_eq_ok h
  cases f with
  | cmd => rw [decode_cmd_of_lt hv] at h; cases h; exact encodes_decodeCmd v
  | zhdr => rw [decode_zhdr_of_lt hv] at h; cases h; exact encodes_decodeZhdr hv
  | blkhdr => rw [decode_blkhdr_of_lt hv] at h; cases h; exact encodes_decodeBlkhdr hv
  | stored => rw [decode_stored_of_lt hv] at h; cases h; exact encodes_decodeStored hv
  | dynhdr => rw [decode_dynhdr_of_lt hv] at h; cases h; exact encodes_decodeDynhdr hv
  | clsym => exact encodes_of_decodeClsym ((decode_clsym_of_lt hv).symm.trans h)
  | llsym => exact encodes_of_decodeLlsym ((decode_llsym_of_lt hv).symm.trans h)
  | dsym => rw [decode_dsym_of_lt hv] at h; cases h; exact encodes_decodeDsym hv
  | ztrl => rw [decode_ztrl_of_lt hv] at h; cases h; exact ⟨rfl, rfl, Nat.mod_eq_of_lt hv⟩
  | filt => rw [decode_filt_of_lt hv] at h; cases h; exact encodes_decodeFilt hv

/-! ### The rows of the opcode table -/

/-- The rows of the table that select a value of a format (30_encoding.md R350). -/
def selectedRows (f : Format) (v : Nat) : List Nat := (opcodeRows.filter fun r => r.selects f v).map (·.row)

theorem selects_iff {r : OpRow} {f : Format} {v : Nat} :
    r.selects f v = true ↔ r.format = f ∧ ∃ p ∈ r.pairs, v &&& p.2 = p.1 := by
  simp only [OpRow.selects, Bool.and_eq_true, beq_iff_eq, List.any_eq_true]

/-- Every mask of a CMD row lies in OP's four bits (30_encoding.md R301). -/
theorem selectedRows_cmd_mod (v : Nat) : selectedRows .cmd (v % 16) = selectedRows .cmd v := by
  have hmask : ∀ r ∈ opcodeRows, r.format = .cmd → ∀ p ∈ r.pairs, 15 &&& p.2 = p.2 := by decide
  refine congrArg (List.map OpRow.row) (List.filter_congr fun r hr => ?_)
  rw [Bool.eq_iff_iff, selects_iff, selects_iff]
  refine and_congr_right fun hf => exists_congr fun p => and_congr_right fun hp => ?_
  rw [← Nat.and_two_pow_sub_one_eq_mod v 4, Nat.and_assoc, hmask r hr hf p hp]

theorem selectedRows_cmd (v : Nat) : selectedRows .cmd v = [(decodeCmd v).row] := by
  have hop : ∀ op < 16, selectedRows .cmd op = [(decodeCmd op).row] := by decide
  rw [← selectedRows_cmd_mod, hop _ (Nat.mod_lt _ (by decide)), decodeCmd_mod]

theorem selectedRows_eq_singleton {f : Format} {v n : Nat}
    (hn : (opcodeRows.filter fun r => r.row == n).map (·.row) = [n])
    (h : ∀ r ∈ opcodeRows, r.selects f v = (r.row == n)) : selectedRows f v = [n] := by
  rw [selectedRows, List.filter_congr h, hn]

/-- A literal is selected by row 17 alone, since the match of every other symbol's row is above 255. -/
theorem selectedRows_lit {v : Nat} (h : v < 256) : selectedRows .llsym v = [17] := by
  have hrows : ∀ r ∈ opcodeRows, r = ⟨17, .llsym, [(0x000, 0x100)]⟩
      ∨ r.row ≠ 17 ∧ (r.format = .llsym → ∀ p ∈ r.pairs, 256 ≤ p.1) := by decide
  refine selectedRows_eq_singleton (by decide) fun r hr => ?_
  rcases hrows r hr with rfl | ⟨hne, hmatch⟩
  · have hbit : v &&& 0x100 = 0 := by
      rw [show (0x100 : Nat) = 2 ^ 8 from rfl, Nat.and_two_pow, Nat.testBit_lt_two_pow h]
      rfl
    exact selects_iff.mpr ⟨rfl, _, List.mem_singleton_self _, hbit⟩
  · rw [beq_false_of_ne hne, Bool.eq_false_iff, Ne, selects_iff]
    rintro ⟨hf, p, hp, hv⟩
    have := hmatch hf p hp
    have := Nat.and_le_left (n := v) (m := p.2)
    omega

/-- The row of the reserved filter types. -/
def filtReservedRow : OpRow :=
  ⟨86, .filt, [(0x05, 0xFF), (0x06, 0xFE), (0x08, 0xF8), (0x10, 0xF0), (0x20, 0xE0), (0x40, 0xC0), (0x80, 0x80)]⟩

/-- A reserved filter type is selected by row 86 alone, since the other FILT rows match one value below 5 each. -/
theorem selectedRows_filtReserved {v : Nat} (h5 : 5 ≤ v) (h : v < 256) : selectedRows .filt v = [86] := by
  have hrows : ∀ r ∈ opcodeRows, r = filtReservedRow
      ∨ r.row ≠ 86 ∧ (r.format = .filt → ∀ p ∈ r.pairs, p.1 < 5 ∧ p.2 = 0xFF) := by decide
  have hcover : ∀ v < 256, 5 ≤ v → ∃ p ∈ filtReservedRow.pairs, v &&& p.2 = p.1 := by decide +kernel
  refine selectedRows_eq_singleton (by decide) fun r hr => ?_
  rcases hrows r hr with rfl | ⟨hne, hmatch⟩
  · exact selects_iff.mpr ⟨rfl, hcover v h h5⟩
  · rw [beq_false_of_ne hne, Bool.eq_false_iff, Ne, selects_iff]
    rintro ⟨hf, p, hp, hv⟩
    obtain ⟨hlt, hmask⟩ := hmatch hf p hp
    have hfull : v &&& 0xFF = v := (Nat.and_two_pow_sub_one_eq_mod v 8).trans (Nat.mod_eq_of_lt h)
    rw [hmask, hfull] at hv
    omega

theorem selectedRows_blkhdr {v : Nat} (h : v < 2 ^ 3) : selectedRows .blkhdr v = [(decodeBlkhdr v).row] := by
  interval_cases v <;> rfl

theorem selectedRows_clsym {v : Nat} {i : Instr} (h : decodeClsym v = .ok i) : selectedRows .clsym v = [i.row] := by
  unfold decodeClsym at h
  split at h
  · cases h
    interval_cases v <;> rfl
  · split at h <;> cases h <;> rfl

theorem selectedRows_llsym {v : Nat} {i : Instr} (h : decodeLlsym v = .ok i) : selectedRows .llsym v = [i.row] := by
  unfold decodeLlsym at h
  split at h
  · next hv =>
    cases h
    exact selectedRows_lit hv
  · split at h <;> cases h <;> rfl

theorem selectedRows_dsym {v : Nat} (h : v < 2 ^ 5) : selectedRows .dsym v = [(decodeDsym v).row] := by
  interval_cases v <;> rfl

theorem selectedRows_filt {v : Nat} (h : v < 2 ^ 8) : selectedRows .filt v = [(decodeFilt v).row] := by
  by_cases h5 : 5 ≤ v
  · rw [decodeFilt_of_ge h5]
    exact selectedRows_filtReserved h5 h
  · interval_cases v <;> rfl

/-- Of the formats whose rows R350 numbers, every value that decodes is selected by its instruction's row alone. -/
theorem selectedRows_of_decode {f : Format} {v : Nat} {i : Instr}
    (hf : f ∈ [Format.cmd, .blkhdr, .clsym, .llsym, .dsym, .filt]) (h : decode f v = .ok i) :
    selectedRows f v = [i.row] := by
  have hv := lt_of_decode_eq_ok h
  simp only [List.mem_cons, List.not_mem_nil, or_false] at hf
  rcases hf with rfl | rfl | rfl | rfl | rfl | rfl
  · rw [decode_cmd_of_lt hv] at h; cases h; exact selectedRows_cmd v
  · rw [decode_blkhdr_of_lt hv] at h; cases h; exact selectedRows_blkhdr hv
  · exact selectedRows_clsym ((decode_clsym_of_lt hv).symm.trans h)
  · exact selectedRows_llsym ((decode_llsym_of_lt hv).symm.trans h)
  · rw [decode_dsym_of_lt hv] at h; cases h; exact selectedRows_dsym hv
  · rw [decode_filt_of_lt hv] at h; cases h; exact selectedRows_filt hv

/-! ### Values that spell no instruction -/

theorem decodeClsym_of_ge {v : Nat} (h : 19 ≤ v) : decodeClsym v = .error .noClSymbol := by
  rw [decodeClsym.eq_def, if_neg (by omega)]
  split
  case h_4 => rfl
  all_goals omega

theorem decodeLlsym_of_ge {v : Nat} (h : 288 ≤ v) : decodeLlsym v = .error .noLlSymbol := by
  rw [decodeLlsym.eq_def, if_neg (by omega)]
  split
  case h_33 => rfl
  all_goals omega

theorem not_exists_error {f : Format} {v : Nat} {i : Instr} (h : decode f v = .ok i) :
    ¬∃ r, decode f v = .error r := by
  rintro ⟨r, hr⟩
  rw [h] at hr
  cases hr

theorem decode_error_iff {f : Format} {v : Nat} (hv : v < 2 ^ f.width) :
    (∃ r, decode f v = .error r) ↔ (f = .clsym ∧ 19 ≤ v) ∨ (f = .llsym ∧ 288 ≤ v) := by
  cases f with
  | clsym =>
    by_cases h : 19 ≤ v
    · exact iff_of_true ⟨_, (decode_clsym_of_lt hv).trans (decodeClsym_of_ge h)⟩ (.inl ⟨rfl, h⟩)
    · obtain ⟨i, hi⟩ := decode_clsym_ok (Nat.lt_of_not_le h)
      exact iff_of_false (not_exists_error hi) (by simpa using h)
  | llsym =>
    by_cases h : 288 ≤ v
    · exact iff_of_true ⟨_, (decode_llsym_of_lt hv).trans (decodeLlsym_of_ge h)⟩ (.inr ⟨rfl, h⟩)
    · obtain ⟨i, hi⟩ := decode_llsym_ok (Nat.lt_of_not_le h)
      exact iff_of_false (not_exists_error hi) (by simpa using h)
  | cmd => exact iff_of_false (not_exists_error (decode_cmd_of_lt hv)) (by simp)
  | zhdr => exact iff_of_false (not_exists_error (decode_zhdr_of_lt hv)) (by simp)
  | blkhdr => exact iff_of_false (not_exists_error (decode_blkhdr_of_lt hv)) (by simp)
  | stored => exact iff_of_false (not_exists_error (decode_stored_of_lt hv)) (by simp)
  | dynhdr => exact iff_of_false (not_exists_error (decode_dynhdr_of_lt hv)) (by simp)
  | dsym => exact iff_of_false (not_exists_error (decode_dsym_of_lt hv)) (by simp)
  | ztrl => exact iff_of_false (not_exists_error (decode_ztrl_of_lt hv)) (by simp)
  | filt => exact iff_of_false (not_exists_error (decode_filt_of_lt hv)) (by simp)

/-! ### The values written out -/

/-- A CMD word spells the instruction that its low four bits encode. -/
theorem decode_cmd_of_mod {w : Word} {i : Instr} (hf : i.format = .cmd) (hw : i.wf = true)
    (h : w.toNat % 16 = encode i) : decode .cmd w.toNat = .ok i := by
  have hi : decode .cmd (encode i) = .ok i := by simpa only [hf] using decodeOfEncode i hw
  rw [← h, decode_cmd_of_lt (by omega), decodeCmd_mod] at hi
  rw [decode_cmd_of_lt w.isLt, hi]

/-- A value with an operand is the encoding of its instruction, which DecodeOfEncode decodes; a table of values is
evaluated. -/
theorem valuesSpell : ValuesSpell := by
  refine ⟨fun w i h => ?_, fun cmf flg => ?_, fun b => by cases b <;> rfl, fun len nlen => ?_,
    fun hlit hdist hclen => ?_, fun l => decodeOfEncode (.clsymLen l) rfl, rfl, fun b => decodeOfEncode (.lit b) rfl,
    rfl, rfl, fun v => decodeOfEncode (.ztrl v) rfl, rfl,
    fun ft h => decodeOfEncode (.filtReserved ft) (decide_eq_true h)⟩
  · rcases h with h | ⟨h4, h14, rfl⟩
    · simp only [List.mem_cons, Prod.mk.injEq, List.not_mem_nil, or_false] at h
      rcases h with ⟨h, rfl⟩ | ⟨h, rfl⟩ | ⟨h, rfl⟩ | ⟨h, rfl⟩ | ⟨h, rfl⟩ <;> exact decode_cmd_of_mod rfl rfl h
    · refine decode_cmd_of_mod rfl ?_ rfl
      simp [Instr.wf, h4, h14]
  · rw [Nat.mul_comm 256]
    exact decodeOfEncode (.zhdr cmf flg) rfl
  · rw [Nat.mul_comm (2 ^ 16)]
    exact decodeOfEncode (.stored len nlen) rfl
  · rw [Nat.mul_comm (2 ^ 5), Nat.mul_comm (2 ^ 10)]
    exact decodeOfEncode (.dynhdr hlit hdist hclen) rfl

/-- Settles O3: the values' instructions, the rows that select them, and the values rejected. -/
theorem oneRowSelectsEachValue : Obligations.OneRowSelectsEachValue :=
  ⟨valuesSpell, fun _ hf _ _ h => selectedRows_of_decode hf h, fun _ _ hv => decode_error_iff hv⟩

/-- Settles O4, by evaluation. -/
theorem wordsDecode : Obligations.WordsDecode := by
  unfold Obligations.WordsDecode
  decide

end Sys2Proof.Machine
end

section
/-! Where a row of the filtered buffer is read from and where its reconstructed bytes go (30_encoding.md R341, R342,
45_filter.md R920, 46_interlace.md R1003, R1005). -/

namespace Sys2Proof.Machine

open Sys2Proof.Statements

/-! ### The filtered buffer -/

theorem channels_eq_lookup (m : Nat) : channels m = (channelRows.lookup m).getD 0 := by
  unfold channels
  split
  case h_6 h0 h2 h3 h4 h6 =>
    simp [channelRows, List.lookup, beq_false_of_ne h0, beq_false_of_ne h2, beq_false_of_ne h3, beq_false_of_ne h4,
      beq_false_of_ne h6]
  all_goals rfl

theorem pixelBits_eq_bpp (p : Params) : pixelBits p = p.bpp := by
  rw [pixelBits, ← channels_eq_lookup, Params.bpp]

theorem bpp_of_mem_channelRows {p : Params} {m n : Nat} (h : (m, n) ∈ channelRows) (hm : p.colorMode.toNat = m) :
    p.bpp = n * p.bitDepth.toNat := by
  have hrows : ∀ r ∈ channelRows, channels r.1 = r.2 := by decide
  rw [Params.bpp, hm, hrows _ h]

theorem emptyPass_iff {p : Params} {q : Nat} : p.emptyPass q = true ↔ p.rowWidth q = 0 ∨ p.rowCount q = 0 := by
  rw [Params.emptyPass, Bool.or_eq_true, beq_iff_eq, beq_iff_eq]

theorem rowWidth_of_lt {p : Params} {q : Nat} (h : q < 7) : p.rowWidth q = passWidth p.imgW.toNat q := if_pos h

theorem rowCount_of_lt {p : Params} {q : Nat} (h : q < 7) : p.rowCount q = passHeight p.imgH.toNat q := if_pos h

theorem bytesOfPass_eq {p : Params} {q : Nat} (h : q < 7) : bytesOfPass p q = p.passBytes q := by
  simp only [bytesOfPass, scanlineBytes, pixelBits_eq_bpp, Params.passBytes, emptyPass_iff, rowWidth_of_lt h,
    rowCount_of_lt h, Params.stride]

/-- A pass starts behind the passes before it. -/
theorem passStart_eq_sum (p : Params) {q : Nat} (h : q ≤ 7) :
    p.passStart q = ((List.range q).map (bytesOfPass p)).sum := by
  induction q with
  | zero => rfl
  | succ q ih =>
    rw [Params.passStart, ih (by omega), List.range_succ, List.map_append, List.sum_append, List.map_singleton,
      List.sum_singleton, bytesOfPass_eq (by omega)]

theorem filteredLayout : FilteredLayout := by
  intro s
  refine ⟨fun m n => bpp_of_mem_channelRows, rfl, rfl, rfl,
    fun q hq => ⟨rowWidth_of_lt hq, rowCount_of_lt hq, emptyPass_iff⟩, ?_, fun hp => ?_, fun hp => ?_,
    length_scanline s, fun k hk => ?_, fun hi => ?_, fun hi => ?_⟩
  · rw [filtRegion]
    cases s.cmd <;> rfl
  · simp [rowOffset, rowStride, hp, Params.rowWidth, Params.stride]
  · simp only [rowOffset, rowStride, if_pos hp, rowWidth_of_lt hp, Params.stride, passStart_eq_sum s.snap hp.le,
      and_self]
  · simp [scanline, readBytes, hk]
  · rw [Params.filtSize, if_neg (by rw [hi]; decide)]
    rfl
  · rw [Params.filtSize, if_pos hi, passStart_eq_sum _ le_rfl]

/-! ### Bytes written at their offsets -/

/-- writeBytes stores each byte at its own offset, when no two of the offsets name one address. -/
theorem read_writeBytes_self {r : Region} {o : Nat → Nat} {j k : Nat} {bs : List Byte} {s : State}
    (h : s.mem.wf = true) (hk : k < bs.length)
    (hinj : ∀ m, m < bs.length → r.addr (o (j + m)) = r.addr (o (j + k)) → m = k) :
    (writeBytes r o j bs s).mem.read (r.addr (o (j + k))) = bs.getD k 0 := by
  induction bs generalizing j k s with
  | nil => cases hk
  | cons b bs ih =>
    have hw : (writeByte r (o j) b s).mem.wf = true := Memory.wf_write h (Region.addr_lt r _)
    rw [writeBytes]
    cases k with
    | zero =>
      rw [read_writeBytes_of_ne hw, writeByte_mem, Memory.read_write_from h, Nat.add_zero, if_pos rfl,
        List.getD_cons_zero]
      intro m hm hm' he
      have := hinj (m - j) (by simp only [List.length_cons]; omega) (by rw [he, Nat.add_sub_cancel' (by omega)])
      omega
    | succ k =>
      rw [List.getD_cons_succ, show j + (k + 1) = j + 1 + k by omega]
      refine ih hw (Nat.lt_of_succ_lt_succ hk) fun m hm he => Nat.succ.inj (hinj (m + 1) (Nat.succ_lt_succ hm) ?_)
      rwa [show j + (m + 1) = j + 1 + m by omega, show j + (k + 1) = j + 1 + k by omega]

/-! ### The offsets of a row -/

/-- The state with a previous row and the interlace register that RowInv asks for; no offset depends on either. -/
def withRowInv (s : State) : State :=
  { s with
    snap := { s.snap with interlace := if s.p < 7 then 1 else 0 }
    prev := if s.y = 0 then none else some (List.replicate (rowStride s) 0) }

theorem rowInv_withRowInv {s : State} (hp : s.p ≤ 7) (hy : s.y < s.snap.rowCount s.p)
    (hw : 0 < s.snap.rowWidth s.p) : RowInv (withRowInv s) := by
  refine ⟨⟨hp, by simp [withRowInv]⟩, hy, hw, ?_⟩
  simp only [withRowInv]
  split
  · rfl
  · simp [rowStride, Params.stride, Params.bpp, Params.rowWidth]

/-- Every byte of a row lies inside RAW_SIZE, wherever the row stands. -/
theorem rasterOffset_lt_rawSize {s : State} {j : Nat} (hp : s.p ≤ 7) (hy : s.y < s.snap.rowCount s.p)
    (hb : s.p < 7 → s.snap.bpp % 8 = 0 ∧ 8 ≤ s.snap.bpp) (hj : j < rowStride s) :
    rasterOffset s j < s.snap.rawSize := by
  have hw : 0 < s.snap.rowWidth s.p := by
    by_contra h0
    simp [rowStride, Params.stride, Nat.eq_zero_of_not_pos h0] at hj
  exact rasterOffset_lt (s := withRowInv s) (rowInv_withRowInv hp hy hw) hb hj

theorem adam7_dx_pos (q : Nat) : 0 < (adam7 q).dx := by
  unfold adam7
  split <;> decide

/-- Pixel px of a row of a pass, and byte k of it (46_interlace.md R1005). -/
theorem rasterOffset_pixel {s : State} {px k : Nat} (hp : s.p < 7) (hk : k < s.snap.bpp / 8) :
    rasterOffset s (px * (s.snap.bpp / 8) + k)
      = (((adam7 s.p).startY + s.y * (adam7 s.p).dy) * s.snap.imgW.toNat + ((adam7 s.p).startX + px * (adam7 s.p).dx))
          * (s.snap.bpp / 8) + k := by
  have hmod : (px * (s.snap.bpp / 8) + k) % (s.snap.bpp / 8) = k := Nat.mul_add_mod_of_lt hk
  have hdiv : (px * (s.snap.bpp / 8) + k) / (s.snap.bpp / 8) = px := by
    rw [Nat.mul_comm, Nat.mul_add_div (by omega), Nat.div_eq_of_lt hk, Nat.add_zero]
  rw [rasterOffset, if_pos hp]
  simp only [hmod, hdiv]

/-- No two bytes of a row have one offset. -/
theorem rasterOffset_inj {s : State} {i j : Nat} (hb : s.p < 7 → 0 < s.snap.bpp / 8)
    (h : rasterOffset s i = rasterOffset s j) : i = j := by
  unfold rasterOffset at h
  split at h
  · next hp =>
    simp only at h
    have hpos := hb hp
    generalize s.snap.bpp / 8 = b at hpos h
    have hmod : i % b = j % b := by
      simpa [Nat.mul_add_mod_of_lt (Nat.mod_lt _ hpos)] using congrArg (· % b) h
    rw [hmod, Nat.add_right_cancel_iff, Nat.mul_left_inj hpos.ne', Nat.add_left_cancel_iff, Nat.add_left_cancel_iff,
      Nat.mul_left_inj (adam7_dx_pos s.p).ne'] at h
    rw [← Nat.div_add_mod i b, ← Nat.div_add_mod j b, h, hmod]
  · omega

/-- Each byte of a row stands at its offset in DST once the row is written. -/
theorem read_writeBytes_rasterOffset {s : State} {bs : List Byte} {j : Nat} (h : s.mem.wf = true)
    (hr : s.snap.dst.inside) (hlen : s.snap.dst.len.toNat = s.snap.rawSize) (hbs : bs.length = rowStride s)
    (hp : s.p ≤ 7) (hy : s.y < s.snap.rowCount s.p) (hb : s.p < 7 → s.snap.bpp % 8 = 0 ∧ 8 ≤ s.snap.bpp)
    (hj : j < rowStride s) :
    (writeBytes s.snap.dst (rasterOffset s) 0 bs s).mem.read (s.snap.dst.base.toNat + rasterOffset s j)
      = bs.getD j 0 := by
  have hlt : ∀ m, m < rowStride s → rasterOffset s m < s.snap.dst.len.toNat := fun m hm =>
    hlen ▸ rasterOffset_lt_rawSize hp hy hb hm
  have hbw : s.p < 7 → 0 < s.snap.bpp / 8 := fun hp => Nat.div_pos (hb hp).2 (by decide)
  have hread := read_writeBytes_self (r := s.snap.dst) (o := rasterOffset s) (j := 0) (k := j) h (hbs ▸ hj)
    fun m hm he => by
      rw [Nat.zero_add, Nat.zero_add] at he
      exact rasterOffset_inj hbw (Region.addr_inj hr (hlt m (hbs ▸ hm)) (hlt j hj) he)
  rwa [Nat.zero_add, Region.addr_eq hr (hlt j hj)] at hread

/-- The bytes of a pixel of whole bytes lie in its row. -/
theorem pixel_lt_rowStride {s : State} {px k : Nat} (h8 : s.snap.bpp % 8 = 0) (hpx : px < s.snap.rowWidth s.p)
    (hk : k < s.snap.bpp / 8) : px * (s.snap.bpp / 8) + k < rowStride s := by
  have hbpp : s.snap.bpp = s.snap.bpp / 8 * 8 := by omega
  calc px * (s.snap.bpp / 8) + k < (px + 1) * (s.snap.bpp / 8) := by rw [Nat.succ_mul]; omega
    _ ≤ s.snap.rowWidth s.p * (s.snap.bpp / 8) := Nat.mul_le_mul_right _ hpx
    _ ≤ rowStride s := by
      rw [rowStride, Params.stride, Nat.le_div_iff_mul_le (by decide), Nat.mul_assoc, ← hbpp]
      omega

/-- Settles O56: the layout, and each byte of a row read back at its offset. -/
theorem rowBytesStored : Obligations.RowBytesStored := by
  refine ⟨filteredLayout, fun bs s hwf hin hlen hbs hy => ⟨fun hp j hj => ?_, fun hp h8 px k hpx hk => ?_⟩⟩
  · have hread := read_writeBytes_rasterOffset hwf hin hlen hbs hp.le hy (fun h => by omega) hj
    rwa [rasterOffset, if_neg (by omega), ← Nat.add_assoc] at hread
  · have hread := read_writeBytes_rasterOffset hwf hin hlen hbs hp.le hy (fun _ => ⟨h8, by omega⟩)
      (pixel_lt_rowStride h8 hpx hk)
    rwa [rasterOffset_pixel hp hk, ← Nat.add_assoc] at hread

end Sys2Proof.Machine
end

section
/-! The commands the host writes (40_commands.md): the start checks in their order, the start sequence, and what is
ignored while a command runs. -/

namespace Sys2Proof.Machine

open Sys2Proof.Statements

/-! ### The order of the start checks -/

/-- A check answers first; the checks behind it, whose answer is r, are made when it passes. -/
theorem findSome?_failIf {b : Bool} {P : Prop} [Decidable P] (h : b = true ↔ P) (f : Failure)
    {l : List (Option Failure)} {r : Option Failure} (hl : l.findSome? id = r) :
    (failIf b f :: l).findSome? id = if P then some f else r := by
  by_cases hP : P
  · rw [if_pos hP, h.mpr hP]
    rfl
  · rw [if_neg hP, Bool.eq_false_iff.mpr (hP ∘ h.mp)]
    exact hl

theorem Region.wraps_iff {r : Region} : r.wraps = true ↔ Statements.wraps r := by
  simp [Region.wraps, memorySize]

theorem Region.overlaps_iff {a b : Region} : a.overlaps b = true ↔ meet a b := by
  simp [Region.overlaps, and_assoc]

theorem findSome?_checkWrap (k : Nat) (r : Region) (l : List (Option Failure)) :
    (checkWrap k r :: l).findSome? id
      = if Statements.wraps r then some (.cfgRegionWrap, BitVec.ofNat 32 k) else l.findSome? id :=
  findSome?_failIf Region.wraps_iff _ rfl

theorem findSome?_checkOverlap (j k : Nat) (a b : Region) (l : List (Option Failure)) :
    (checkOverlap j k a b :: l).findSome? id
      = if meet a b then some (.cfgOverlap, BitVec.ofNat 32 (j + 16 * k)) else l.findSome? id :=
  findSome?_failIf Region.overlaps_iff _ rfl

theorem findSome?_checkSize (k : Nat) (r : Region) (n : Nat) (l : List (Option Failure)) :
    (checkSize k r n :: l).findSome? id
      = if r.len.toNat ≠ n then some (.cfgSizeMismatch, BitVec.ofNat 32 k) else l.findSome? id :=
  findSome?_failIf bne_iff_ne _ rfl

/-! ### The image checks -/

/-- The table of 10_state.md R142 read as pairs. -/
theorem mem_legalFormats {m d : Nat} : (m, d) ∈ legalFormats ↔ d ∈ legalDepths m := by
  have hpairs : legalFormats = [0, 2, 3, 4, 6].flatMap fun m => (legalDepths m).map (m, ·) := rfl
  have hnone : m ∉ [0, 2, 3, 4, 6] → legalDepths m = [] := by
    intro hm
    unfold legalDepths
    split
    case h_6 => rfl
    all_goals exact absurd (by decide) hm
  rw [hpairs]
  simp only [List.mem_flatMap, List.mem_map, Prod.mk.injEq]
  constructor
  · rintro ⟨_, -, _, hd, rfl, rfl⟩
    exact hd
  · intro hd
    refine ⟨m, ?_, d, hd, rfl, rfl⟩
    by_contra hm
    rw [hnone hm] at hd
    cases hd

theorem scanlineBytes_eq_stride (p : Params) (w : Nat) : scanlineBytes p w = p.stride w := by
  rw [scanlineBytes, pixelBits_eq_bpp, Params.stride]

theorem rasterBytes_eq_rawSize (p : Params) : rasterBytes p = p.rawSize := by
  rw [rasterBytes, scanlineBytes_eq_stride, Params.rawSize]

theorem filteredBytes_eq_filtSize (p : Params) : filteredBytes p = p.filtSize := by
  rw [filteredBytes, Params.filtSize, scanlineBytes_eq_stride, passStart_eq_sum p le_rfl]

/-- The image checks come first, each in its place (40_commands.md R424). -/
theorem findSome?_imageChecks (p : Params) (l : List (Option Failure)) :
    (imageChecks p ++ l).findSome? id = imageFailure p (l.findSome? id) := by
  unfold imageFailure
  rw [filteredBytes_eq_filtSize, rasterBytes_eq_rawSize, pixelBits_eq_bpp]
  exact findSome?_failIf (by simp) _ <| findSome?_failIf (by simp [mem_legalFormats]) _ <|
    findSome?_failIf (by simp) _ <| findSome?_failIf (by simp) _ <| findSome?_failIf (by simp) _ <|
    findSome?_failIf (by simp [memorySize]) _ rfl

/-- Settles O10: the first failure of a list of checks is an if-chain, check by check. -/
theorem startChecksInOrder : Obligations.StartChecksInOrder := by
  intro p
  rw [filteredBytes_eq_filtSize, rasterBytes_eq_rawSize]
  simp only [startFailure, startChecks, findSome?_imageChecks, findSome?_checkWrap, findSome?_checkSize,
    findSome?_checkOverlap]
  exact ⟨rfl, rfl, rfl⟩

/-! ### Starting a command -/

theorem startCommand_of_busy {s : State} (hb : s.status.busy = true) (c : Command) :
    startCommand c s = ignoreWrite s := by
  rw [startCommand, if_pos hb]

theorem startCommand_of_passed {c : Command} {s : State} (hb : s.status.busy = false)
    (hf : startFailure c s.regs = none) : startCommand c s = beginStages (startSequence c s) := by
  rw [startCommand, if_neg (by simp [hb]), hf]

theorem startCommand_of_failed {c : Command} {s : State} {cause : Cause} {info : Word} (hb : s.status.busy = false)
    (hf : startFailure c s.regs = some (cause, info)) :
    startCommand c s = raiseError cause info (startSequence c s) := by
  rw [startCommand, if_neg (by simp [hb]), hf]

theorem exec_of_startRows {i : Instr} {c : Command} (h : (i, c) ∈ startRows) (s : State) :
    exec i s = .next (startCommand c s) := by
  simp only [startRows, List.mem_cons, Prod.mk.injEq, List.not_mem_nil, or_false] at h
  obtain ⟨rfl, rfl⟩ | ⟨rfl, rfl⟩ | ⟨rfl, rfl⟩ := h <;> rfl

/-- An error raised before a stage has begun, said whole: no free value is drawn (20_memory.md R221). -/
theorem raiseError_of_idle {s : State} (h : s.status.stage = .idle) (c : Cause) (i : Word) :
    raiseError c i s =
      { s with report := ⟨c.word, i, 0⟩, status := failed s, engine := .idle, abortIn := none, raceIn := none } := by
  rw [raiseError, if_pos h, if_neg (by simp [h])]
  rfl

/-- Settles O8: the start sequence, then the entry of the inflate stage. -/
theorem inflateAndDecodeStart : Obligations.InflateAndDecodeStart := by
  intro i c s hi hc hb hf
  rw [exec_of_startRows hi, startCommand_of_passed hb hf]
  cases c with
  | inflate | decode => rfl
  | unfilter => exact absurd rfl hc

/-- Settles O9: the start checks leave no image without a first row. -/
theorem unfilterStarts : Obligations.UnfilterStarts := by
  intro s hb hf
  obtain ⟨hw, hh, -⟩ := image_of_checks hf (by decide)
  have hentry := startReconstruct_eq (s := startSequence .unfilter s) hw hh
  rw [exec_of_startRows (c := .unfilter) (by decide), startCommand_of_passed hb hf]
  exact congrArg Host.Outcome.next hentry

/-- Settles O11: the check fails after the start sequence and before any stage. -/
theorem failedStartChecks : Obligations.FailedStartChecks := by
  intro i c s cause info hi hb hf
  rw [exec_of_startRows hi, startCommand_of_failed hb hf, raiseError_of_idle (by rfl)]
  rfl

/-! ### Commands that do not start -/

theorem execNop_of_idle {s : State} (hb : s.status.busy = false) : execNop s = .next s := by
  rw [execNop, if_neg (by simp [hb])]

theorem execNop_of_busy {s : State} (hb : s.status.busy = true) : execNop s = .next (ignoreWrite s) := by
  rw [execNop, if_pos hb]

theorem execReservedCmd_of_busy {s : State} (hb : s.status.busy = true) (op : BitVec 4) :
    execReservedCmd op s = .next (ignoreWrite s) := by
  rw [execReservedCmd, if_pos hb]

theorem execReservedCmd_of_idle {s : State} (hb : s.status.busy = false) (op : BitVec 4) :
    execReservedCmd op s = .next (raiseError .badCmd (op.setWidth 32) { s with outCount := 0 }) := by
  rw [execReservedCmd, if_neg (by simp [hb])]

/-- While BUSY every command but ABORT is ignored (40_commands.md R405). -/
theorem exec_decodeCmd_of_busy {s : State} {v : Nat} (hb : s.status.busy = true) (hv : v % 16 ≠ 15) :
    exec (decodeCmd v) s = .next (ignoreWrite s) := by
  unfold decodeCmd
  split
  · exact execNop_of_busy hb
  · exact congrArg _ (startCommand_of_busy hb .inflate)
  · exact congrArg _ (startCommand_of_busy hb .unfilter)
  · exact congrArg _ (startCommand_of_busy hb .decode)
  · next h => exact absurd h hv
  · exact execReservedCmd_of_busy hb _

/-- A word whose low four bits are OP spells the command of OP (30_encoding.md R300). -/
theorem decode_cmd_of_op {w : Word} {op : Nat} (h : w.toNat % 16 = op) : decode .cmd w.toNat = .ok (decodeCmd op) := by
  rw [decode_cmd_of_lt w.isLt, ← decodeCmd_mod, h]

/-- Settles O6: delivering the write is running the command it spells. -/
theorem hostStepRunsCommand : Obligations.HostStepRunsCommand := by
  intro s w q h
  have hturn : deliver (.regWrite 0x08 4 w) (taken s q) = .run (decodeCmd w.toNat) (taken s q) :=
    elementTurn_cmd w (taken s q)
  exact ⟨decode_cmd_of_op rfl, by rw [decodeCmd_mod, step_of_run ((nextTurn_of_delivers h).trans hturn)]⟩

/-- Settles O7, command by command. -/
theorem busyIgnoresCommands : Obligations.BusyIgnoresCommands := by
  intro s w hb
  refine ⟨fun h => by rw [h]; rfl, fun h => ?_⟩
  rw [decodeCmd_mod, exec_decodeCmd_of_busy hb h]
  rfl

/-- Settles O12: BAD_CMD is raised with no stage begun, and the command is ignored while BUSY. -/
theorem reservedCommandElement : Obligations.ReservedCommandElement := by
  intro op s hlo hhi
  have hwf : (Instr.reservedCmd op).wf = true := by simp [Instr.wf, hlo, hhi]
  refine ⟨fun w hw => ?_, fun hb hidle => ?_, execReservedCmd_of_busy (op := op)⟩
  · rw [decode_cmd_of_op hw, decodeCmd_reserved hwf]
  · exact (execReservedCmd_of_idle hb op).trans
      (congrArg _ (raiseError_of_idle (s := { s with outCount := 0 }) hidle .badCmd _))

/-- Settles O13: the two cases of BUSY. -/
theorem nopElement : Obligations.NopElement := fun _ =>
  ⟨fun _ hw => decode_cmd_of_op hw, execNop_of_idle, execNop_of_busy⟩

end Sys2Proof.Machine
end

section
/-! How a command ends other than by an error of its own: by completing, or by an accepted ABORT once the steps it
was left are used up (40_commands.md R404, R444). -/

namespace Sys2Proof.Machine

open Sys2Proof.Statements

/-! ### Completion -/

/-- A completion changes no byte but after DECODE (20_memory.md R220). -/
theorem complete_mem_of_ne {s : State} (h : s.cmd ≠ .decode) : (complete s).mem = s.mem := by
  rw [complete, if_neg h]

/-- Settles O16: the fields by the equation of a completion, memory by its frame. -/
theorem completionEndsCommand : Obligations.CompletionEndsCommand := fun s =>
  ⟨(complete s).mem, (complete s).draws, complete_eq s, complete_mem_of_ne,
    fun hm hr _ ha => read_complete hm (fun _ => hr) (fun _ => ha)⟩

/-! ### An ABORT that takes effect -/

theorem abortStop_status (upTo : Word) (s : State) : (abortStop upTo s).status = failed s := by
  simp [abortStop, failed]

theorem abortStop_report (upTo : Word) (s : State) : (abortStop upTo s).report = ⟨0x770, 0, 0⟩ := by
  simp [abortStop, Cause.word, Cause.cls, Cause.code]

theorem abortStop_engine (upTo : Word) (s : State) : (abortStop upTo s).engine = .idle := by
  simp [abortStop]

theorem abortStop_regs (upTo : Word) (s : State) : (abortStop upTo s).regs = s.regs := by
  simp [abortStop]

/-- The count an ABORT leaves is at most the larger of the count at that step and the one the element would reach. -/
theorem abortStop_outCount_le {upTo : Word} {s : State} {m : Nat} (hs : s.outCount.toNat ≤ m)
    (hu : upTo.toNat ≤ m) : (abortStop upTo s).outCount.toNat ≤ m := by
  have hk := Nat.mod_lt (Config.freeNat s.draws) (Nat.succ_pos (upTo.toNat - s.outCount.toNat))
  rw [abortStop, raiseError_outCount]
  simp only [BitVec.toNat_add, BitVec.toNat_ofNat]
  generalize Config.freeNat s.draws % (upTo.toNat - s.outCount.toNat + 1) = k at hk ⊢
  omega

/-! ### The steps of a command with an ABORT accepted -/

/-- A turn the engine goes on with is a step that takes the command on. -/
theorem GoesOn.exists_step {r s : State} {n : Turn} (hg : GoesOn r n) (hturn : nextTurn s = n) :
    ∃ t, step s = .next t ∧ Advance (-1) r t := by
  rcases hg with ⟨u, rfl, hA⟩ | ⟨i, u, rfl, -, -, v, hv, hA⟩
  · exact ⟨u, step_of_quiet hturn, hA⟩
  · exact ⟨v, (step_of_run hturn).trans hv, hA⟩

/-- While steps are left the command goes on, with one step fewer left. -/
theorem step_of_abortTick {s : State} {n : Nat} (h : Invariant s) (hb : s.status.busy = true)
    (hs : s.sched.head? ≠ some .host) (hr : s.raceIn = none) (ha : s.abortIn = some (n + 1)) :
    ∃ t, step s = .next t ∧ Advance (-1) { takeTurn s with abortIn := some n } t := by
  refine (goesOn_fetchElement (h.takeTurn.withAbort hb (some n) s.draws) hb).exists_step ?_
  rw [nextTurn_of_not_hostNext (not_hostNext hb hs)]
  simp [engineTurn, takeTurn, hb, hr, ha]

/-- With no step left the command is stopped, inside the element that comes next or before an end of the engine's
own. -/
theorem step_of_abortStop {s : State} (h : Invariant s) (hb : s.status.busy = true)
    (hs : s.sched.head? ≠ some .host) (hr : s.raceIn = none) (ha : s.abortIn = some 0) :
    ∃ upTo u, step s = .next (abortStop upTo u) ∧ u = { takeTurn s with bp := u.bp } ∧ upTo.toNat ≤ outMax s := by
  have hturn := nextTurn_of_not_hostNext (not_hostNext hb hs)
  obtain ⟨inside, before⟩ := engineTurn_of_abort (r := takeTurn s) hb hr ha
  rcases goesOn_fetchElement h.takeTurn hb with ⟨u, hf, -⟩ | ⟨i, u, hf, hu, -, v, hv, hA⟩
  · exact ⟨_, _, step_of_quiet (hturn.trans (before u hf)), rfl, h.out_le hb⟩
  · exact ⟨_, _, step_of_stop (hturn.trans (inside i u hf)) hv, hu, hA.bound⟩

/-- Settles O14: ABORT by its three cases, and its taking effect by the step that stops the command. -/
theorem abortElement : Obligations.AbortElement := by
  intro s
  refine ⟨fun hb => ?_, fun hb ha => ?_, fun _ ha => ?_, fun h hb hr ha hs => ?_⟩
  · exact congrArg _ (if_neg (by simp [hb]))
  · exact ⟨_, _, congrArg _ (if_pos ⟨hb, ha⟩)⟩
  · exact congrArg _ (if_neg fun hc => ha hc.2)
  · obtain ⟨upTo, u, hstep, hu, hmax⟩ := step_of_abortStop h hb hs hr ha
    have hout : u.outCount = s.outCount := by rw [hu]; rfl
    have hstatus : failed u = failed s := by rw [hu]; rfl
    have hregs : u.regs = s.regs := by rw [hu]; rfl
    exact ⟨_, hstep, (abortStop_status upTo u).trans hstatus, abortStop_report upTo u, abortStop_engine upTo u,
      (abortStop_regs upTo u).trans hregs, hout ▸ le_abortStop_outCount upTo u,
      abortStop_outCount_le (hout ▸ h.out_le hb) hmax⟩

/-! ### A command with an ABORT accepted ends -/

theorem steps_succ {s t : State} (h : step s = .next t) (n : Nat) : steps (n + 1) s = steps n t := by
  simp only [steps, h]

/-- Settles O15, by induction on the steps granted: each step ends the command or leaves it one step fewer. -/
theorem abortedCommandEnds : Obligations.AbortedCommandEnds := by
  intro s n
  induction n generalizing s with
  | zero =>
    intro h hb hr ha hs
    obtain ⟨upTo, u, hstep, -, -⟩ := step_of_abortStop h hb (by rw [hs]; nofun) hr ha
    have hstatus := abortStop_status upTo u
    exact ⟨1, _, le_rfl, steps_succ hstep 0, by rw [hstatus]; rfl, .inr (by rw [hstatus]; rfl)⟩
  | succ n ih =>
    intro h hb hr ha hs
    obtain ⟨t, hstep, hA⟩ := step_of_abortTick h hb (by rw [hs]; nofun) hr ha
    cases hbt : t.status.busy with
    | false =>
      have hend := hA.ended hbt
      exact ⟨1, t, by omega, steps_succ hstep 0, hbt, by cases he : t.status.err <;> simp [hend, he]⟩
    | true =>
      obtain ⟨-, -, habort, hrace⟩ := hA.same hbt
      have hsched : t.sched = [] := hA.bus.1.trans (by simp [takeTurn, hs])
      obtain ⟨k, u, hk, hsteps, hu⟩ := ih t hA.inv hbt (hrace.trans hr) habort hsched
      exact ⟨k + 1, u, by omega, (steps_succ hstep k).trans hsteps, hu⟩

end Sys2Proof.Machine
end

section
/-! What the bit reader reads (41_bitreader.md), and the step of each of the engine's elements: it runs the instruction
the fetched value spells, or raises the error of its fetch (42_huffman.md R620, 90_conflicts.md C3). -/

namespace Sys2Proof.Machine

open Sys2Proof.Statements

/-! ### The bit reader -/

theorem streamBit_eq (s : State) (k : Nat) : streamBit s k =
    (decide (k < 8 * s.snap.src.len.toNat) && (readByte s s.snap.src (k / 8)).getLsbD (k % 8)) := by
  by_cases h : k < totalBits s
  · rw [streamBit, if_pos h, decide_eq_true (show k < 8 * s.snap.src.len.toNat from h), Bool.true_and]
  · rw [streamBit, if_neg h, decide_eq_false (show ¬k < 8 * s.snap.src.len.toNat from h), Bool.false_and]

theorem bitReader : BitReader := by
  intro s
  have field (k n j : Nat) (hj : j < n) := (testBit_streamField s k hj).trans (streamBit_eq s (k + j))
  refine ⟨rfl, fun n => ⟨peek_lt s n, field _ n⟩, fun k n => ⟨streamField_lt s k n, field k n⟩, fun hr k hk => ?_,
    fun _ => rfl, ?_, fun _ => rfl⟩
  · rw [readByte, Region.addr_eq hr hk]
  · rw [align, Nat.mul_comm]

/-- The schedule is no part of the stream. -/
theorem peek_takeTurn (s : State) (n : Nat) : peek (takeTurn s) n = peek s n :=
  streamField_congr (s := s) (t := takeTurn s) rfl rfl s.bp.toNat n

/-! ### The turn of a fetch -/

theorem elementTurn_of_decode {f : Format} {v : Nat} {i : Instr} (h : decode f v = .ok i) (s : State) :
    elementTurn f v s = .run i s := by
  rw [elementTurn, h]

theorem fetchField_of_le {f : Format} {s : State} (h : s.bp.toNat + f.width ≤ totalBits s) :
    fetchField f s = elementTurn f (peek s f.width) (skip f.width s) := by
  rw [fetchField, readBits_of_le h]

theorem fetchField_of_lt {f : Format} {s : State} (h : totalBits s < s.bp.toNat + f.width) :
    fetchField f s = .quiet (fieldCut f s) := by
  rw [fetchField, readBits_of_lt h]

theorem fetchSymbol_of_sym {f : Format} {T : Tree} {c : Cause} {s u : State} {v : Nat}
    (h : decodeSym T c s = .sym v u) : fetchSymbol f T c s = elementTurn f v u := by
  rw [fetchSymbol, h]

theorem fetchSymbol_of_err {f : Format} {T : Tree} {c d : Cause} {s : State} (h : decodeSym T c s = .err d) :
    fetchSymbol f T c s = .quiet (raiseError d 0 s) := by
  rw [fetchSymbol, h]

theorem storedCut_of_le {s : State} (h : s.bp.toNat + 16 ≤ totalBits s) :
    storedCut s = raiseError .storedTrunc (BitVec.ofNat 32 (peek s 16)) s := if_pos h

theorem storedCut_of_lt {s : State} (h : totalBits s < s.bp.toNat + 16) :
    storedCut s = raiseError .storedTrunc (Config.freeWord s.draws) { s with draws := s.draws + 1 } :=
  if_neg (Nat.not_le.mpr h)

/-! ### The bytes of the wrapper -/

theorem srcByte_of_lt {s : State} {j : Nat} (h : j < s.snap.src.len.toNat) :
    srcByte s j = (readByte s s.snap.src j).toNat := if_pos h

theorem srcByte_lt (s : State) (j : Nat) : srcByte s j < 256 := by
  unfold srcByte
  split
  · exact BitVec.isLt _
  · decide

theorem headerValue_lt (s : State) : headerValue s < 2 ^ 16 := by
  have h0 := srcByte_lt s 0
  have h1 := srcByte_lt s 1
  unfold headerValue
  omega

theorem trailerValue_lt (s : State) : trailerValue s < 2 ^ 32 := by
  simp only [trailerValue]
  generalize (align s).bp.toNat / 8 = k
  have h0 := srcByte_lt s k
  have h1 := srcByte_lt s (k + 1)
  have h2 := srcByte_lt s (k + 2)
  have h3 := srcByte_lt s (k + 3)
  omega

theorem headerValue_of_le {s : State} (h : 2 ≤ s.snap.src.len.toNat) :
    headerValue s = (readByte s s.snap.src 0).toNat * 256 + (readByte s s.snap.src 1).toNat := by
  rw [headerValue, srcByte_of_lt (by omega), srcByte_of_lt (by omega)]

theorem trailerValue_of_le {s : State} (h : (align s).bp.toNat / 8 + 4 ≤ s.snap.src.len.toNat) :
    trailerValue s = (((alignedByte (align s) 0).toNat * 256 + (alignedByte (align s) 1).toNat) * 256
      + (alignedByte (align s) 2).toNat) * 256 + (alignedByte (align s) 3).toNat := by
  rw [trailerValue, srcByte_of_lt (by omega), srcByte_of_lt (by omega), srcByte_of_lt (by omega),
    srcByte_of_lt (by omega)]
  rfl

theorem execZhdr_of_short {s : State} (h : s.snap.src.len.toNat < 2) (cmf flg : Byte) :
    execZhdr cmf flg s = .next (raiseError .zhdrTrunc s.snap.src.len s) := congrArg _ (if_pos h)

theorem execZtrl_of_short {s : State} (h : s.snap.src.len.toNat < (align s).bp.toNat / 8 + 4) (adler : Word) :
    execZtrl adler s = .next (raiseError .ztrailerTrunc 0 (align s)) := congrArg _ (if_pos h)

/-! ### The element of an engine state -/

theorem fetchElement_zhdr {s : State} (h : s.engine = .zhdr) :
    fetchElement s = elementTurn .zhdr (headerValue s) s := by
  simp only [fetchElement, h]

theorem fetchElement_blockHeader {s : State} (h : s.engine = .blockHeader) :
    fetchElement s = fetchField .blkhdr s := by
  simp only [fetchElement, h]

theorem fetchElement_stored {s : State} (h : s.engine = .stored) : fetchElement s = fetchField .stored s := by
  simp only [fetchElement, h]

theorem fetchElement_dynhdr {s : State} (h : s.engine = .dynHeader) (hc : s.codesNext = false) :
    fetchElement s = fetchField .dynhdr s := by
  simp only [fetchElement, h, hc, if_true]

theorem fetchElement_clsym {s : State} (h : s.engine = .dynHeader) (hc : s.codesNext = true)
    (hl : s.lens.length < lensWanted s) : fetchElement s = fetchSymbol .clsym s.cl .clInvalidSymbol s := by
  simp only [fetchElement, h, hc, hl, if_true, reduceCtorEq, if_false]

theorem fetchElement_llsym {s : State} (h : s.engine = .symbols) (hm : s.matchLen = none) :
    fetchElement s = fetchSymbol .llsym s.ll .llInvalidSymbol s := by
  simp only [fetchElement, h, hm]

theorem fetchElement_dsym {s : State} (h : s.engine = .symbols) (hm : s.matchLen ≠ none) :
    fetchElement s = fetchSymbol .dsym s.d .dInvalidSymbol s := by
  obtain ⟨n, hn⟩ := Option.ne_none_iff_exists'.mp hm
  simp only [fetchElement, h, hn]

theorem fetchElement_ztrailer {s : State} (h : s.engine = .ztrailer) :
    fetchElement s = elementTurn .ztrl (trailerValue s) s := by
  simp only [fetchElement, h]

theorem fetchElement_reconstruct {s : State} (h : s.engine = .reconstruct) :
    fetchElement s = elementTurn .filt (filterType s) s := by
  simp only [fetchElement, h]

/-! ### The step of a fetch -/

theorem nextTurn_of_engineNext {s : State} (h : EngineNext s) : nextTurn s = fetchElement (takeTurn s) := by
  obtain ⟨hb, ha, hr, hs⟩ := h
  rw [nextTurn_of_not_hostNext (not_hostNext hb hs)]
  simp [engineTurn, takeTurn, hb, ha, hr]

theorem step_of_elementTurn {s u : State} {f : Format} {v : Nat} {i : Instr} (hturn : nextTurn s = elementTurn f v u)
    (hd : decode f v = .ok i) : step s = exec i u :=
  step_of_run (hturn.trans (elementTurn_of_decode hd u))

theorem step_of_field {s : State} {f : Format} {i : Instr} (hturn : nextTurn s = fetchField f (takeTurn s))
    (hle : s.bp.toNat + f.width ≤ totalBits s) (hd : decode f (peek s f.width) = .ok i) :
    step s = exec i (skip f.width (takeTurn s)) := by
  rw [← peek_takeTurn] at hd
  exact step_of_elementTurn (hturn.trans (fetchField_of_le hle)) hd

theorem step_of_fieldCut {s : State} {f : Format} (hturn : nextTurn s = fetchField f (takeTurn s))
    (hlt : totalBits s < s.bp.toNat + f.width) : step s = .next (fieldCut f (takeTurn s)) :=
  step_of_quiet (hturn.trans (fetchField_of_lt hlt))

/-- A decoded symbol runs at the state its code leaves; a decode without one raises its cause. -/
theorem step_of_symbol {s u : State} {f : Format} {T : Tree} {c : Cause} (hturn : nextTurn s = fetchSymbol f T c u) :
    (∀ v t i, decodeSym T c u = .sym v t → decode f v = .ok i → step s = exec i t)
      ∧ ∀ d, decodeSym T c u = .err d → step s = .next (raiseError d 0 u) :=
  ⟨fun _ _ _ hv hi => step_of_elementTurn (hturn.trans (fetchSymbol_of_sym hv)) hi,
    fun _ hd => step_of_quiet (hturn.trans (fetchSymbol_of_err hd))⟩

/-- The fields that are elements: the engine state that reads each, its format and its width. -/
def fieldElements : List (Engine × Format × Nat) :=
  [(.blockHeader, .blkhdr, 3), (.stored, .stored, 32), (.dynHeader, .dynhdr, 14)]

/-- A field element is its format's width of bits; cut short it is BIT_OVERRUN, but for LEN and NLEN. -/
theorem fieldElements_spec {e : Engine} {f : Format} {n : Nat} (hf : (e, f, n) ∈ fieldElements) :
    f.width = n ∧ (e ≠ .stored → ∀ s, fieldCut f s = raiseError .bitOverrun 0 s)
      ∧ ∀ s : State, s.engine = e → (e = .dynHeader → s.codesNext = false) → fetchElement s = fetchField f s := by
  simp only [fieldElements, List.mem_cons, Prod.mk.injEq, List.not_mem_nil, or_false] at hf
  rcases hf with ⟨rfl, rfl, rfl⟩ | ⟨rfl, rfl, rfl⟩ | ⟨rfl, rfl, rfl⟩
  · exact ⟨rfl, fun _ _ => rfl, fun _ he _ => fetchElement_blockHeader he⟩
  · exact ⟨rfl, fun hne => absurd rfl hne, fun _ he _ => fetchElement_stored he⟩
  · exact ⟨rfl, fun _ _ => rfl, fun _ he hc => fetchElement_dynhdr he (hc rfl)⟩

/-- LEN and NLEN cut short: STORED_TRUNC, with LEN where SRC holds it (90_conflicts.md C3). -/
theorem step_of_storedCut {s : State} (hn : EngineNext s) (he : s.engine = .stored)
    (hlt : totalBits s < s.bp.toNat + 32) :
    (s.bp.toNat + 16 ≤ totalBits s →
      step s = .next (raiseError .storedTrunc (BitVec.ofNat 32 (peek s 16)) (takeTurn s)))
    ∧ (totalBits s < s.bp.toNat + 16 →
      ∃ w k, step s = .next (raiseError .storedTrunc w { takeTurn s with draws := k })) := by
  have hstep : step s = .next (storedCut (takeTurn s)) :=
    step_of_fieldCut ((nextTurn_of_engineNext hn).trans (fetchElement_stored he)) hlt
  refine ⟨fun h => ?_, fun h => ⟨_, _, hstep.trans (congrArg _ (storedCut_of_lt h))⟩⟩
  rw [hstep, storedCut_of_le (s := takeTurn s) h, peek_takeTurn]

/-- The header's element; of a SRC too short for it the element itself raises ZHDR_TRUNC (43_inflate.md R701). -/
theorem step_of_zhdr {s : State} (hn : EngineNext s) (he : s.engine = .zhdr) :
    (∀ i, decode .zhdr (headerValue s) = .ok i → step s = exec i (takeTurn s))
      ∧ (s.snap.src.len.toNat < 2 → step s = .next (raiseError .zhdrTrunc s.snap.src.len (takeTurn s))) := by
  have run {i : Instr} : decode .zhdr (headerValue s) = .ok i → step s = exec i (takeTurn s) :=
    step_of_elementTurn ((nextTurn_of_engineNext hn).trans (fetchElement_zhdr he))
  exact ⟨fun _ => run, fun h => (run (decode_zhdr_of_lt (headerValue_lt s))).trans
    (execZhdr_of_short (s := takeTurn s) h _ _)⟩

/-- The trailer's element; of a SRC too short for it the element itself raises ZTRAILER_TRUNC (43_inflate.md R713). -/
theorem step_of_ztrailer {s : State} (hn : EngineNext s) (he : s.engine = .ztrailer) :
    (∀ i, decode .ztrl (trailerValue s) = .ok i → step s = exec i (takeTurn s))
      ∧ (s.snap.src.len.toNat < (align s).bp.toNat / 8 + 4 →
        step s = .next (raiseError .ztrailerTrunc 0 (align (takeTurn s)))) := by
  have run {i : Instr} : decode .ztrl (trailerValue s) = .ok i → step s = exec i (takeTurn s) :=
    step_of_elementTurn ((nextTurn_of_engineNext hn).trans (fetchElement_ztrailer he))
  exact ⟨fun _ => run, fun h => (run (decode_ztrl_of_lt (trailerValue_lt s))).trans
    (execZtrl_of_short (s := takeTurn s) h _)⟩

/-- Settles O5: each engine state's element is fetched by one of the fetches above, whose step is known. -/
theorem engineStepRunsDecoded : Obligations.EngineStepRunsDecoded := by
  refine ⟨bitReader, fun s hn => ?_⟩
  have hturn := nextTurn_of_engineNext hn
  refine ⟨fun e f n hf he hc => ?_, fun he => step_of_storedCut hn he,
    fun he hc hl => step_of_symbol (hturn.trans (fetchElement_clsym he hc hl)),
    fun he hm => step_of_symbol (hturn.trans (fetchElement_llsym he hm)),
    fun he hm => step_of_symbol (hturn.trans (fetchElement_dsym he hm)), fun he => ?_, fun he => ?_,
    fun he _ => step_of_elementTurn (hturn.trans (fetchElement_reconstruct he))⟩
  · obtain ⟨rfl, hcut, hfetch⟩ := fieldElements_spec hf
    have hfield := hturn.trans (hfetch (takeTurn s) he hc)
    exact ⟨fun hle _ => step_of_field hfield hle,
      fun hlt hne => (step_of_fieldCut hfield hlt).trans (congrArg _ (hcut hne _))⟩
  · obtain ⟨run, short⟩ := step_of_zhdr hn he
    exact ⟨fun h i => headerValue_of_le h ▸ run i, short⟩
  · obtain ⟨run, short⟩ := step_of_ztrailer hn he
    exact ⟨fun h i => trailerValue_of_le h ▸ run i, short⟩

end Sys2Proof.Machine
end

section
/-! Huffman trees (42_huffman.md): which length sets Build accepts, and what a decode of a built tree answers. -/

namespace Sys2Proof.Machine

open Sys2Proof.Statements

/-! ### Build -/

theorem build_eq_none_iff (lens : List Nat) : build lens = none ↔ 2 ≤ present lens ∧ kraft lens ≠ 2 ^ 15 := by
  simp [build, accepted, Nat.lt_iff_add_one_le]

/-- The Kraft sum counts the used symbols. -/
theorem kraft_eq_sum (lens : List Nat) : kraft lens = (lens.map fun l => if 0 < l then 2 ^ (15 - l) else 0).sum := by
  simp only [kraft, Nat.pos_iff_ne_zero, ite_not]

/-- Settles O46: Build answers none exactly where the completeness check fails. -/
theorem buildAcceptsExactlyCompleteSets : Obligations.BuildAcceptsExactlyCompleteSets := by
  intro lens
  refine ⟨kraft_eq_sum lens ▸ build_eq_none_iff lens, fun t h => ?_⟩
  obtain ⟨-, rfl⟩ := build_eq_some h
  exact ⟨rfl, rfl⟩

/-! ### The canonical codes -/

theorem firstCode_eq_nextCode (lens : List Nat) (l : Nat) : firstCode lens l = nextCode lens l := by
  induction l with
  | zero => rfl
  | succ l ih => rw [firstCode, nextCode, ih, blCount]

theorem getD_of_getElem?_eq_some {ls : List Nat} {k v : Nat} (h : ls[k]? = some v) : ls.getD k 0 = v := by
  rw [List.getD_eq_getElem?_getD, h, Option.getD_some]

theorem canonicalCodes_spec : CanonicalCodes := by
  refine ⟨fun lens k l h15 hk hl => ?_, fun v n => ⟨rev_lt v n, fun j => testBit_rev v⟩⟩
  have hl16 : l < 16 := Nat.lt_succ_of_le (h15 l (List.mem_of_getElem? hk))
  have hfirst : ((List.range 16).map (firstCode lens)).getD l 0 = nextCode lens l := by
    apply getD_of_getElem?_eq_some
    rw [List.getElem?_map, List.getElem?_range hl16, Option.map_some, firstCode_eq_nextCode]
  rw [canonicalCodes, getElem?_assignCodes _ _ k l hk hl (by simpa using fun x hx => Nat.lt_succ_of_le (h15 x hx)),
    hfirst]

/-- The stream spells a symbol exactly where it holds the bits of that symbol's spelling. -/
theorem spells_iff {lens : List Nat} (h15 : ∀ l ∈ lens, l ≤ 15) (s : State) (k : Nat) :
    Spells s lens k ↔ ∃ r ∈ allSpellings lens, r.sym = k ∧ r.len = lens.getD k 0 ∧ peek s r.len = r.bits := by
  constructor
  · rintro ⟨hpos, hpeek⟩
    have hk : lens[k]? = some (lens.getD k 0) := by
      have hlt : k < lens.length := by
        by_contra hge
        simp [List.getElem?_eq_none (Nat.le_of_not_lt hge)] at hpos
      simp [hlt]
    have hc := canonicalCodes_spec.1 lens k _ h15 hk hpos
    rw [getD_of_getElem?_eq_some hc] at hpeek
    exact ⟨_, spellings_mem hk hpos hc, Nat.zero_add k, rfl, hpeek⟩
  · rintro ⟨r, hr, rfl, hlen, hpeek⟩
    obtain ⟨j, hj, -, h0, c, hc, hbits⟩ := mem_spellings hr
    rw [Nat.zero_add] at hj
    subst hj
    refine ⟨by omega, ?_⟩
    rw [← hlen, getD_of_getElem?_eq_some hc, hpeek, hbits]

/-! ### The ways through the decode table -/

theorem takeCode_eq (len v : Nat) (s : State) : takeCode len v s =
    if s.bp.toNat + len > totalBits s then .err .bitOverrun else .sym v (skip len s) := by
  split
  · next h => rw [takeCode, readBits_of_lt h]
  · next h => rw [takeCode, readBits_of_le (Nat.le_of_not_lt h)]

section
variable {t : Tree} {c : Cause} {s : State}

theorem decodeSym_of_invalid (h : t.entry (peek s 9) = .invalid) : decodeSym t c s = .err c := by
  rw [decodeSym, h]

theorem decodeSym_of_leaf {len v : Nat} (h : t.entry (peek s 9) = .leaf len v) :
    decodeSym t c s = takeCode len v s := by
  rw [decodeSym, h]

theorem decodeSym_of_link_invalid {m base : Nat} (h : t.entry (peek s 9) = .link m base)
    (he : t.entry (base + peek s m / 512) = .invalid) : decodeSym t c s = .err c := by
  simp only [decodeSym, h, he]

theorem decodeSym_of_link_leaf {m base len v : Nat} (h : t.entry (peek s 9) = .link m base)
    (he : t.entry (base + peek s m / 512) = .leaf len v) : decodeSym t c s = takeCode len v s := by
  simp only [decodeSym, h, he]

end

/-- The spellings that have their leaf in a secondary table. -/
def longSpellings (lens : List Nat) : List Spelling := (allSpellings lens).filter (9 < ·.len)

theorem mem_longSpellings {lens : List Nat} {r : Spelling} :
    r ∈ longSpellings lens ↔ r ∈ allSpellings lens ∧ 9 < r.len := by
  simp [longSpellings]

/-- No long code begins with the first 9 bits: the primary entry decides. -/
theorem primary_of_maxLen_eq_zero {lens : List Nat} {s : State} (hm : maxLen (longSpellings lens) (peek s 9) = 0) :
    (makeTree lens).entry (peek s 9) = shortEntry ((allSpellings lens).filter (·.len ≤ 9)) (peek s 9) :=
  (makeTree_primary lens (peek_lt s 9)).trans (if_pos hm)

/-- Some long code begins with the first 9 bits: the primary entry links to a table that holds the rest. -/
theorem link_of_maxLen_ne_zero {lens : List Nat} {s : State} (hm : maxLen (longSpellings lens) (peek s 9) ≠ 0) :
    ∃ base, (makeTree lens).entry (peek s 9) = .link (maxLen (longSpellings lens) (peek s 9)) base
      ∧ (makeTree lens).entry (base + peek s (maxLen (longSpellings lens) (peek s 9)) / 512)
        = longEntry (longSpellings lens) (peek s 9) (peek s (maxLen (longSpellings lens) (peek s 9)) / 512) := by
  refine ⟨_, (makeTree_primary lens (peek_lt s 9)).trans (if_neg hm), makeTree_secondary lens (peek_lt s 9) hm ?_⟩
  obtain ⟨r, hr, -, hlen⟩ := (maxLen_spec (longSpellings lens) (peek s 9)).2.resolve_left hm
  have h9 : 9 < r.len := (mem_longSpellings.mp hr).2
  change peek s (maxLen (longSpellings lens) (peek s 9)) / 512 < 2 ^ (maxLen (longSpellings lens) (peek s 9) - 9)
  rw [← hlen]
  refine Nat.div_lt_of_lt_mul ?_
  rw [show (512 : Nat) = 2 ^ 9 from rfl, ← pow_add, Nat.add_sub_cancel' h9.le]
  exact peek_lt s r.len

/-- A code longer than 9 bits is spelled where its first 9 bits are the primary index and the rest begins the
secondary one (42_huffman.md R606, R608). -/
theorem peek_eq_iff_of_long {r : Spelling} {m : Nat} (s : State) (h9 : 9 < r.len) (hm : r.len ≤ m) :
    peek s r.len = r.bits ↔ r.bits % 512 = peek s 9 ∧ peek s m / 512 % 2 ^ (r.len - 9) = r.bits / 512 := by
  have low : peek s r.len % 512 = peek s 9 := streamField_mod s s.bp.toNat 9 r.len h9.le
  have high : peek s m / 512 % 2 ^ (r.len - 9) = peek s r.len / 512 := by
    rw [← Nat.mod_mul_right_div_self, show 512 * 2 ^ (r.len - 9) = 2 ^ r.len from by
      rw [show (512 : Nat) = 2 ^ 9 from rfl, ← pow_add, Nat.add_sub_cancel' h9.le]]
    exact congrArg (· / 512) (streamField_mod s s.bp.toNat r.len m hm)
  rw [← low, high]
  omega

/-- A decode takes the code of the spelling that the stream holds (42_huffman.md R620). -/
theorem decodeSym_of_spelled {lens : List Nat} (h15 : ∀ l ∈ lens, l ≤ 15) (ha : accepted lens = true) {r : Spelling}
    (hr : r ∈ allSpellings lens) {s : State} (hpeek : peek s r.len = r.bits) (c : Cause) :
    decodeSym (makeTree lens) c s = takeCode r.len r.sym s := by
  rcases Nat.lt_or_ge 9 r.len with h9 | h9
  · have hlong := mem_longSpellings.mpr ⟨hr, h9⟩
    have hprefix : r.bits % 512 = peek s 9 := ((peek_eq_iff_of_long s h9 le_rfl).mp hpeek).1
    have hle := (maxLen_spec (longSpellings lens) (peek s 9)).1 r hlong hprefix
    obtain ⟨base, hlink, hentry⟩ := link_of_maxLen_ne_zero (lens := lens) (s := s) (by omega)
    have hleaf := longEntry_eq h15 ha hr h9 ((peek_eq_iff_of_long s h9 hle).mp hpeek).2
    rw [hprefix] at hleaf
    exact decodeSym_of_link_leaf hlink (hentry.trans hleaf)
  · have hp : peek s 9 % 2 ^ r.len = r.bits := (streamField_mod s _ _ _ h9).trans hpeek
    exact decodeSym_of_leaf ((primary_of_maxLen_eq_zero (maxLen_of_short h15 ha hr h9 hp)).trans
      (shortEntry_eq h15 ha hr h9 hp))

/-- A decode meets the sentinel where the stream holds no spelling (42_huffman.md R609, R621). -/
theorem decodeSym_of_unspelled {lens : List Nat} {s : State} (h : ∀ r ∈ allSpellings lens, peek s r.len ≠ r.bits)
    (c : Cause) : decodeSym (makeTree lens) c s = .err c := by
  by_cases hm : maxLen (longSpellings lens) (peek s 9) = 0
  · refine decodeSym_of_invalid ((primary_of_maxLen_eq_zero hm).trans (shortEntry_invalid fun r hr h9 hp => ?_))
    exact h r hr ((streamField_mod s _ _ _ h9).symm.trans hp)
  · obtain ⟨base, hlink, hentry⟩ := link_of_maxLen_ne_zero hm
    refine decodeSym_of_link_invalid hlink (hentry.trans (longEntry_invalid fun r hr h9 hprefix hrest => ?_))
    have hle := (maxLen_spec (longSpellings lens) (peek s 9)).1 r (mem_longSpellings.mpr ⟨hr, h9⟩) hprefix
    exact h r hr ((peek_eq_iff_of_long s h9 hle).mpr ⟨hprefix, hrest⟩)

/-- Settles O47: the stream spells a symbol where it holds its spelling, and the table leads there. -/
theorem decodeFindsSpelledSymbol : Obligations.DecodeFindsSpelledSymbol := by
  refine ⟨canonicalCodes_spec, fun lens t c s h15 hbuild => ?_⟩
  obtain ⟨ha, rfl⟩ := build_eq_some hbuild
  refine ⟨fun k _ hk => ?_, fun hnone => decodeSym_of_unspelled (fun r hr hpeek => ?_) c, fun h2 => ?_⟩
  · obtain ⟨r, hr, rfl, hlen, hpeek⟩ := (spells_iff h15 s k).mp hk
    rw [decodeSym_of_spelled h15 ha hr hpeek, takeCode_eq, hlen]
  · obtain ⟨k, hsym, hk, -⟩ := mem_spellings hr
    rw [Nat.zero_add] at hsym
    obtain ⟨hlt, -⟩ := List.getElem?_eq_some_iff.mp hk
    exact hnone k hlt ((spells_iff h15 s k).mpr
      ⟨r, hr, hsym, (getD_of_getElem?_eq_some hk).symm, hpeek⟩)
  · obtain ⟨k, l, hk, hpos, hpeek⟩ := exists_spelled h15 ha h2 s
    have hlen := getD_of_getElem?_eq_some hk
    exact ⟨k, (List.getElem?_eq_some_iff.mp hk).1, by rwa [hlen], by rwa [hlen]⟩

end Sys2Proof.Machine
end

section
/-! The inflate stage's frame (43_inflate.md): the wrapper, the block headers, the stored blocks and the end of the
stream. -/

namespace Sys2Proof.Machine

open Sys2Proof.Statements

/-! ### The end of the stage -/

theorem endInflate_of_inflate {s : State} (h : s.cmd = .inflate) : endInflate s = complete s := by
  simp only [endInflate, h]

theorem endInflate_of_decode {s : State} (h : s.cmd = .decode) : endInflate s = startReconstruct s := by
  simp only [endInflate, h]

/-! ### The end of the stream -/

theorem streamEnd_of_short {s : State} (h : s.outCount.toNat < outLimit s) :
    streamEnd s = raiseError .outputShort s.outCount s := if_pos h

theorem streamEnd_of_zlib {s : State} (h : outLimit s ≤ s.outCount.toNat) (hz : s.snap.zlib = true) :
    streamEnd s = { s with engine := .ztrailer } := by
  rw [streamEnd, if_neg (Nat.not_lt.mpr h), if_pos hz]

theorem streamEnd_of_raw {s : State} (h : outLimit s ≤ s.outCount.toNat) (hz : s.snap.zlib = false) :
    streamEnd s = endInflate s := by
  rw [streamEnd, if_neg (Nat.not_lt.mpr h), if_neg (Bool.not_eq_true _ ▸ hz)]

theorem fetchElement_streamEnd {s : State} (h : s.engine = .streamEnd) :
    fetchElement s = .quiet (streamEnd s) := by
  simp only [fetchElement, h]

theorem step_of_streamEnd {s : State} (hn : EngineNext s) (he : s.engine = .streamEnd) :
    step s = .next (streamEnd (takeTurn s)) :=
  step_of_quiet ((nextTurn_of_engineNext hn).trans (fetchElement_streamEnd he))

/-- Settles O17: the step is the stream's end, taken by its cases. -/
theorem streamEndStep : Obligations.StreamEndStep := by
  intro s hn he
  rw [step_of_streamEnd hn he]
  refine ⟨fun h => ?_, fun h hz => ?_, fun h hz hc => ?_, fun h hz hc hw hh => ?_⟩
  · exact congrArg _ (streamEnd_of_short (s := takeTurn s) h)
  · exact congrArg _ (streamEnd_of_zlib (s := takeTurn s) h hz)
  · rw [streamEnd_of_raw (s := takeTurn s) h hz, endInflate_of_inflate (s := takeTurn s) hc]
  · rw [streamEnd_of_raw (s := takeTurn s) h hz, endInflate_of_decode (s := takeTurn s) hc]
    exact congrArg _ (startReconstruct_eq (s := takeTurn s) hw hh)

/-! ### The wrapper -/

theorem getLsbD_five_iff (b : Byte) : b.getLsbD 5 = true ↔ b.toNat / 32 % 2 = 1 := by
  rw [BitVec.getLsbD, Nat.testBit_eq_decide_div_mod_eq, decide_eq_true_eq]

/-- Settles O39: the meaning's own chain of checks, FDICT read as a bit of the number. -/
theorem zhdrElement : Obligations.ZhdrElement := by
  intro cmf flg s
  refine ⟨fun hbp c x => by rw [raiseError_report, hbp, ite_self], ?_⟩
  simp only [exec, execZhdr, getLsbD_five_iff]

theorem align_eq (s : State) : align s = { s with bp := BitVec.ofNat 35 (8 * ((s.bp.toNat + 7) / 8)) } := by
  rw [align, Nat.mul_comm]

theorem execZtrl_of_mismatch {s : State} {v : Word} (h : (align s).bp.toNat / 8 + 4 ≤ s.snap.src.len.toNat)
    (hv : v ≠ Config.adler32 (outBytes s)) : execZtrl v s = .next (raiseError .adlerMismatch v (align s)) :=
  congrArg _ ((if_neg (Nat.not_lt.mpr h)).trans (if_pos hv))

theorem execZtrl_of_match {s : State} {v : Word} (h : (align s).bp.toNat / 8 + 4 ≤ s.snap.src.len.toNat)
    (hv : v = Config.adler32 (outBytes s)) : execZtrl v s = .next (endInflate (skip 32 (align s))) :=
  congrArg _ ((if_neg (Nat.not_lt.mpr h)).trans (if_neg (not_not.mpr hv)))

/-- Settles O54: the trailer by its cases, read from the aligned cursor. -/
theorem ztrlElement : Obligations.ZtrlElement := by
  intro v s t
  have ht : t = align s := (align_eq s).symm
  clear_value t
  subst ht
  refine ⟨by simp only [outBytes, readBytes, Nat.zero_add], fun h => execZtrl_of_short h v,
    fun h hv => execZtrl_of_mismatch h hv, fun h hv hc => ?_, fun h hv hc hw hh => ?_⟩
  · exact (execZtrl_of_match h hv).trans (congrArg _ (endInflate_of_inflate (s := skip 32 (align s)) hc))
  · exact (execZtrl_of_match h hv).trans (congrArg _
      ((endInflate_of_decode (s := skip 32 (align s)) hc).trans (startReconstruct_eq hw hh)))

/-! ### Block headers -/

/-- The four ranges of the fixed code, one length each (43_inflate.md R704). -/
theorem fixedLengths_eq : fixedLengths = fixedLlLens := by
  have hlen : fixedLengths.length = fixedLlLens.length := by
    simp only [fixedLengths, fixedLlLens, List.length_map, List.length_range, List.length_append,
      List.length_replicate]
  refine List.ext_getElem hlen fun k hk _ => ?_
  simp only [fixedLengths, List.length_map, List.length_range] at hk
  simp only [fixedLengths, fixedLlLens, List.getElem_map, List.getElem_range, List.getElem_append,
    List.getElem_replicate, List.length_append, List.length_replicate]
  split_ifs <;> omega

/-- Settles O40, type by type: the aligned cursor of a stored block, and the fixed trees from their lengths. -/
theorem blockHeaderElements : Obligations.BlockHeaderElements := by
  intro b s
  refine ⟨⟨(align s).bp, rfl, fun hle => ?_⟩, ?_, rfl, rfl⟩
  · obtain ⟨heq, hend⟩ := align_bp_toNat hle
    omega
  · rw [fixedLengths_eq]
    rfl

/-! ### Stored blocks -/

/-- The copy done, the cursor stands behind the payload and the block ends (43_inflate.md R722, R726). -/
theorem blockEnd_skip_copyStored (k n m : Nat) (s : State) :
    blockEnd (skip m (copyStored k n s)) =
      { copyStored k n s with
        bp := s.bp + BitVec.ofNat 35 m
        engine := if s.bfinal then .streamEnd else .blockHeader } := by
  simp only [blockEnd, skip, copyStored_bp, copyStored_bfinal]

/-- Settles O41: the meaning's own chain of checks, with the state behind the payload written out. -/
theorem storedElement : Obligations.StoredElement := by
  intro len nlen s
  simp only [exec, execStored, blockEnd_skip_copyStored, BitVec.ofNat_toNat]

/-- After the first of n + 1 bytes that fit, the other n fit. -/
theorem outCount_emit_add_le {v : Byte} {n : Nat} {s : State} (h : s.outCount.toNat + (n + 1) ≤ outLimit s) :
    (emit v s).outCount.toNat + n ≤ outLimit (emit v s) := by
  rw [emit_outCount_toNat (by omega), outLimit_emit]
  omega

/-- A copy leaves every byte it does not emit as it was (44_symbols.md R807). -/
theorem read_copyStored_of_ne {k n a : Nat} {s : State} (h : s.mem.wf = true) (ho : s.outCount.toNat + n ≤ outLimit s)
    (ha : ∀ j, j < n → a ≠ (outRegion s).addr (s.outCount.toNat + j)) :
    (copyStored k n s).mem.read a = s.mem.read a := by
  induction n generalizing k s with
  | zero => rfl
  | succ n ih =>
    have hfirst : a ≠ (outRegion s).addr s.outCount.toNat := ha 0 n.succ_pos
    rw [copyStored, ih (wf_emit h) (outCount_emit_add_le ho), read_emit h, if_neg hfirst]
    intro j hj
    rw [outRegion_emit, emit_outCount_toNat (by omega), Nat.add_assoc, Nat.add_comm 1 j]
    exact ha (j + 1) (Nat.succ_lt_succ hj)

/-- An Emit leaves SRC as it was, where the output region does not overlap it. -/
theorem readByte_src_emit {v : Byte} {i : Nat} {s : State} (h : s.mem.wf = true) (hsrc : s.snap.src.inside)
    (hout : (outRegion s).inside) (hd : s.snap.src.overlaps (outRegion s) = false) (hi : i < s.snap.src.len.toNat)
    (ho : s.outCount.toNat < outLimit s) : readByte (emit v s) s.snap.src i = readByte s s.snap.src i := by
  rw [readByte, read_emit h, if_neg (Region.addr_ne hsrc hout hd hi ho), readByte]

/-- The copied bytes stand in the output in the order of SRC. -/
theorem readByte_copyStored {k n j : Nat} {s : State} (h : s.mem.wf = true) (hsrc : s.snap.src.inside)
    (hout : (outRegion s).inside) (hd : s.snap.src.overlaps (outRegion s) = false)
    (hk : k + n ≤ s.snap.src.len.toNat) (ho : s.outCount.toNat + n ≤ outLimit s) (hj : j < n) :
    readByte (copyStored k n s) (outRegion s) (s.outCount.toNat + j) = readByte s s.snap.src (k + j) := by
  induction n generalizing k j s with
  | zero => cases hj
  | succ n ih =>
    have hc := emit_outCount_toNat (v := readByte s s.snap.src k) (s := s) (by omega)
    have ho' := outCount_emit_add_le (v := readByte s s.snap.src k) ho
    rw [copyStored]
    cases j with
    | zero =>
      rw [readByte, read_copyStored_of_ne (wf_emit h) ho', read_emit h, Nat.add_zero, if_pos rfl, Nat.add_zero]
      intro j hj' he
      rw [outRegion_emit, hc] at he
      unfold outLimit at ho
      have := Region.addr_inj hout (by omega) (by omega) he
      omega
    | succ j =>
      have hrest := ih (k := k + 1) (wf_emit h) hsrc hout hd (by rw [emit_snap]; omega) ho' (Nat.lt_of_succ_lt_succ hj)
      rw [hc, emit_snap, readByte_src_emit h hsrc hout hd (by omega) (by omega)] at hrest
      rwa [show s.outCount.toNat + (j + 1) = s.outCount.toNat + 1 + j by omega, show k + (j + 1) = k + 1 + j by omega]

/-- Settles O42: the copy's fields, its count, its bytes and its frame. -/
theorem storedPayloadCopied : Obligations.StoredPayloadCopied := by
  intro k n s h hsrc hout hd hk ho
  exact ⟨copyStored_eq k n s, copyStored_outCount_toNat ho, fun _ => readByte_copyStored h hsrc hout hd hk ho,
    fun _ => read_copyStored_of_ne h ho⟩

end Sys2Proof.Machine
end

section
/-! The header of a dynamic block (43_inflate.md R703 to R711): its counts and code-length code, the code-length
symbols, and the final trees. -/

namespace Sys2Proof.Machine

open Sys2Proof.Statements

/-! ### The code-length code -/

/-- Build said whole: the completeness check, then the tree (42_huffman.md R600, R601). -/
theorem build_eq (lens : List Nat) :
    build lens = if 2 ≤ present lens ∧ kraft lens ≠ 2 ^ 15 then none else some (makeTree lens) := by
  split
  · next h => exact (build_eq_none_iff lens).mpr h
  · next h =>
    cases hb : build lens with
    | none => exact absurd ((build_eq_none_iff lens).mp hb) h
    | some t => rw [(build_eq_some hb).2]

/-- Fields that fit are those of the stream, one behind the other. -/
theorem readFields_of_le {w n : Nat} {s : State} (h : s.bp.toNat + w * n ≤ totalBits s) :
    readFields w n s = .ok ((List.range n).map fun j => streamField s (s.bp.toNat + w * j) w, skip (w * n) s) := by
  induction n generalizing s with
  | zero => simp [readFields, skip]
  | succ n ih =>
    rw [Nat.mul_succ] at h
    have hfirst : s.bp.toNat + w ≤ totalBits s := by omega
    have hbp := skip_bp_toNat hfirst
    have hrest : (skip w s).bp.toNat + w * n ≤ totalBits (skip w s) := by
      change _ ≤ totalBits s
      omega
    have hfield (j : Nat) : streamField (skip w s) ((skip w s).bp.toNat + w * j) w
        = streamField s (s.bp.toNat + w * (j + 1)) w := by
      rw [streamField_congr (skip_mem w s) rfl, hbp, Nat.mul_succ, Nat.add_assoc, Nat.add_comm w]
    simp only [readFields, readBits_of_le hfirst, ih hrest, hfield, skip_skip]
    rw [List.range_succ_eq_map, List.map_cons, List.map_map, Nat.mul_succ, Nat.add_comm w]
    rfl

/-- Fields that do not all fit leave the whole ones before the end of SRC consumed. -/
theorem readFields_of_lt {w n : Nat} {s : State} (hlt : totalBits s < s.bp.toNat + w * n)
    (hle : s.bp.toNat ≤ totalBits s) :
    readFields w n s = .error (skip (w * ((totalBits s - s.bp.toNat) / w)) s) := by
  cases hr : readFields w n s with
  | ok r =>
    obtain ⟨-, hfit, -⟩ := readFields_ok (t := r.2) (vs := r.1) hr hle
    omega
  | error t =>
    obtain ⟨j, -, rfl, hlo, hhi⟩ := readFields_error hr hle
    have hj : (totalBits s - s.bp.toNat) / w = j := by
      refine Nat.div_eq_of_lt_le ?_ ?_ <;> rw [Nat.mul_comm] <;> omega
    rw [hj]

/-- The n fields sent go to the symbols in the order of CLORDER; the other lengths are 0 (43_inflate.md R703). -/
theorem clLens_map_range (field : Nat → Nat) (n : Nat) : clLens ((List.range n).map field) =
    (List.range 19).map fun c => if orderOfLengths.idxOf c < n then field (orderOfLengths.idxOf c) else 0 := by
  refine List.map_congr_left fun c _ => ?_
  change ((List.range n).map field).getD (orderOfLengths.idxOf c) 0 = _
  generalize orderOfLengths.idxOf c = k
  split
  · next h => simp [h]
  · next h => simp [Nat.le_of_not_lt h]

theorem execDynhdr_of_ok {hlit hdist : BitVec 5} {hclen : BitVec 4} {s t : State} {fields : List Nat}
    (h : readFields 3 (hclen.toNat + 4) (setCounts hlit hdist hclen s) = .ok (fields, t)) :
    execDynhdr hlit hdist hclen s = .next (
      if 2 ≤ present (clLens fields) ∧ kraft (clLens fields) ≠ 2 ^ 15 then raiseError .treeBuildCl 0 t
      else { t with cl := makeTree (clLens fields), lens := [], codesNext := true }) := by
  simp only [execDynhdr, h, build_eq]
  split_ifs <;> rfl

theorem execDynhdr_of_error {hlit hdist : BitVec 5} {hclen : BitVec 4} {s t : State}
    (h : readFields 3 (hclen.toNat + 4) (setCounts hlit hdist hclen s) = .error t) :
    execDynhdr hlit hdist hclen s = .next (raiseError .bitOverrun 0 t) := by
  simp only [execDynhdr, h]

/-- Settles O43: the fields that fit are read from the stream and give the lengths; those that do not overrun. -/
theorem dynhdrElement : Obligations.DynhdrElement := by
  intro hlit hdist hclen s
  refine ⟨fun h => ?_, fun hlt hle => ?_⟩
  · have hread := readFields_of_le (s := setCounts hlit hdist hclen s) h
    simp only [streamField_congr (setCounts_mem hlit hdist hclen s) rfl] at hread
    refine (execDynhdr_of_ok hread).trans ?_
    rw [clLens_map_range]
    rfl
  · exact execDynhdr_of_error (readFields_of_lt (s := setCounts hlit hdist hclen s) hlt hle)

/-! ### The code-length symbols -/

/-- A repeat said whole: the extra field, the room left, and the lengths appended (43_inflate.md R708 to R710). -/
theorem repeatLen_eq (base extra l : Nat) (s : State) :
    repeatLen base extra l s =
      if s.bp.toNat + extra > totalBits s then raiseError .bitOverrun 0 s
      else if s.lens.length + (base + peek s extra) > s.hlit + s.hdist then
        raiseError .clRepeatOverflow (BitVec.ofNat 32 (base + peek s extra)) (skip extra s)
      else appendLens (List.replicate (base + peek s extra) l) (skip extra s) := by
  split
  · next h => rw [repeatLen, readBits_of_lt h]
  · next h =>
    rw [repeatLen, readBits_of_le (Nat.le_of_not_lt h)]
    rfl

theorem execClsym16_of_nil {s : State} (h : s.lens = []) :
    execClsym16 s = .next (raiseError .clRepeatNoPrev 0 s) := by
  simp only [execClsym16, h, List.getLast?_nil]

theorem execClsym16_of_getLast? {s : State} {l : Nat} (h : s.lens.getLast? = some l) :
    execClsym16 s = .next (repeatLen 3 2 l s) := by
  simp only [execClsym16, h]

/-- Settles O44: a length is appended, and the three repeats differ in their base, extra field and length. -/
theorem codeLengthElements : Obligations.CodeLengthElements := by
  intro s
  exact ⟨fun _ => rfl, execClsym16_of_nil,
    fun l hl => (execClsym16_of_getLast? hl).trans (congrArg _ (repeatLen_eq 3 2 l s)),
    congrArg _ (repeatLen_eq 3 3 0 s), congrArg _ (repeatLen_eq 11 7 0 s)⟩

/-! ### The final trees -/

/-- The literal/length lengths are the first HLIT, padded to the alphabet (43_inflate.md R711). -/
theorem llLens_eq {s : State} (hlen : s.hlit ≤ s.lens.length) (hle : s.hlit ≤ 288) :
    llLens s = s.lens.take s.hlit ++ List.replicate (288 - s.hlit) 0 := by
  refine List.ext_getElem (by simp [llLens]; omega) fun k _ _ => ?_
  simp only [llLens, List.getElem_map, List.getElem_range, List.getElem_append, List.length_take,
    List.getElem_take, List.getElem_replicate, Nat.min_eq_left hlen]
  split
  · next h => simp [Nat.lt_of_lt_of_le h hlen]
  · rfl

/-- The distance lengths are the HDIST behind them, padded to the alphabet (43_inflate.md R711). -/
theorem dLens_eq {s : State} (hlen : s.lens.length = s.hlit + s.hdist) (hle : s.hdist ≤ 32) :
    dLens s = s.lens.drop s.hlit ++ List.replicate (32 - s.hdist) 0 := by
  have hdrop : s.lens.length - s.hlit = s.hdist := by omega
  refine List.ext_getElem (by simp [dLens]; omega) fun k _ _ => ?_
  simp only [dLens, List.getElem_map, List.getElem_range, List.getElem_append, List.length_drop,
    List.getElem_drop, List.getElem_replicate, hdrop]
  split
  · next h => simp [show s.hlit + k < s.lens.length by omega]
  · rfl

/-- The end-of-block symbol is always among the lengths sent. -/
theorem llLens_getD_256 {s : State} (h : 257 ≤ s.hlit) : (llLens s).getD 256 0 = s.lens.getD 256 0 := by
  simp [llLens, show 256 < s.hlit by omega]

/-- The final trees said whole: the checks in their order, then the two trees (43_inflate.md R711). -/
theorem finishTrees_eq (s : State) :
    finishTrees s =
      if (llLens s).getD 256 0 = 0 then raiseError .eobZeroLength 0 s
      else if 2 ≤ present (llLens s) ∧ kraft (llLens s) ≠ 2 ^ 15 then raiseError .treeBuildLl 0 s
      else if 2 ≤ present (dLens s) ∧ kraft (dLens s) ≠ 2 ^ 15 then raiseError .treeBuildD 0 s
      else { s with ll := makeTree (llLens s), d := makeTree (dLens s), engine := .symbols, matchLen := none } := by
  rw [finishTrees, build_eq, build_eq]
  split_ifs <;> rfl

theorem fetchElement_finishTrees {s : State} (h : s.engine = .dynHeader) (hc : s.codesNext = true)
    (hl : lensWanted s ≤ s.lens.length) : fetchElement s = .quiet (finishTrees s) := by
  simp only [fetchElement, h, hc, Nat.not_lt.mpr hl, reduceCtorEq, if_false]

/-- Settles O45: with every length there the step builds the trees of the two length sets. -/
theorem finalTreesStep : Obligations.FinalTreesStep := by
  intro s hn he hc hlen h257 h288 h32
  have hfetch := fetchElement_finishTrees (s := takeTurn s) he hc hlen.ge
  rw [step_of_quiet ((nextTurn_of_engineNext hn).trans hfetch), finishTrees_eq, llLens_getD_256 (s := takeTurn s) h257,
    llLens_eq (s := takeTurn s) (show s.hlit ≤ s.lens.length by omega) h288, dLens_eq (s := takeTurn s) hlen h32]
  rfl

end Sys2Proof.Machine
end

section
/-! The symbol loop of a fixed or dynamic block (44_symbols.md): what is emitted, the length and distance codes, and
the match copy. -/

namespace Sys2Proof.Machine

open Sys2Proof.Statements

/-! ### Literals, end of block, reserved symbols -/

/-- Settles O48: Emit's fields, its count, and memory read back at every address. -/
theorem emitWritesOneByte : Obligations.EmitWritesOneByte := by
  intro v s h ho
  exact ⟨rfl, emit_outCount_toNat ho, fun _ => read_emit h⟩

/-- Settles O49: the meanings of LIT and EOB, with the block end written out. -/
theorem literalAndEndElements : Obligations.LiteralAndEndElements := fun _ => ⟨fun _ => rfl, rfl⟩

/-- Settles O50: a reserved element's meaning raises its error whatever value it carries. -/
theorem reservedElements : Obligations.ReservedElements := fun _ =>
  ⟨fun _ _ => rfl, fun _ _ => rfl, fun _ _ => rfl⟩

/-! ### Length codes -/

/-- Each length code's meaning is the shared one, at the code's own base and extra width (30_encoding.md R331). -/
theorem exec_of_lengthRows {i : Instr} {base extra : Nat} (h : (i, base, extra) ∈ lengthRows) (s : State) :
    exec i s = .next (lengthSymbol base extra s) := by
  have hrows : lengthRows.map (fun r => exec r.1 s) = lengthRows.map (fun r => .next (lengthSymbol r.2.1 r.2.2 s)) :=
    rfl
  exact List.map_inj_left.mp hrows _ h

theorem lengthSymbol_of_le {base extra : Nat} {s : State} (h : s.bp.toNat + extra ≤ totalBits s) :
    lengthSymbol base extra s = { skip extra s with matchLen := some (base + peek s extra) } := by
  rw [lengthSymbol, readBits_of_le h]

theorem lengthSymbol_of_lt {base extra : Nat} {s : State} (h : totalBits s < s.bp.toNat + extra) :
    lengthSymbol base extra s = raiseError .bitOverrun 0 s := by
  rw [lengthSymbol, readBits_of_lt h]

/-- Settles O51: every length code is the shared meaning, which answers by whether the extra field fits. -/
theorem lengthElements : Obligations.LengthElements := by
  intro i base extra s hi
  rw [exec_of_lengthRows hi]
  exact ⟨fun h => congrArg _ (lengthSymbol_of_le h), fun h => congrArg _ (lengthSymbol_of_lt h)⟩

/-! ### Distance codes -/

/-- Each distance code's meaning is the shared one, at the code's own base and extra width (30_encoding.md R333). -/
theorem exec_of_distanceRows {i : Instr} {base extra : Nat} (h : (i, base, extra) ∈ distanceRows) (s : State) :
    exec i s = .next (distanceSymbol base extra s) := by
  have hrows : distanceRows.map (fun r => exec r.1 s)
      = distanceRows.map (fun r => .next (distanceSymbol r.2.1 r.2.2 s)) := rfl
  exact List.map_inj_left.mp hrows _ h

/-- A distance code said whole: the extra field, then the match (44_symbols.md R804). -/
theorem distanceSymbol_eq (base extra : Nat) (s : State) :
    distanceSymbol base extra s =
      if totalBits s < s.bp.toNat + extra then raiseError .bitOverrun 0 s
      else matchCopy (base + peek s extra) (skip extra s) := by
  split
  · next h => rw [distanceSymbol, readBits_of_lt h]
  · next h => rw [distanceSymbol, readBits_of_le (Nat.le_of_not_lt h)]

/-- The match of a pending length (44_symbols.md R890, R891, R806). -/
theorem matchCopy_of_matchLen {distance length : Nat} {s : State} (h : s.matchLen = some length) :
    matchCopy distance s =
      if distance > s.outCount.toNat then raiseError .distTooFar (BitVec.ofNat 32 distance) s
      else if s.outCount.toNat + length > outLimit s then raiseError .outputOverflow (BitVec.ofNat 32 length) s
      else { copyMatch distance length s with matchLen := none } := by
  rw [matchCopy, h, Option.getD_some]

/-- Settles O52: every distance code is the shared meaning, whose match is that of the pending length. -/
theorem distanceElements : Obligations.DistanceElements := by
  intro i base extra length s hi hm
  rw [exec_of_distanceRows hi, distanceSymbol_eq, matchCopy_of_matchLen (s := skip extra s) hm]
  rfl

/-! ### The match copy -/

/-- A match copy leaves every byte it does not emit as it was (44_symbols.md R806, R807). -/
theorem read_copyMatch_of_ne {d n a : Nat} {s : State} (h : s.mem.wf = true) (ho : s.outCount.toNat + n ≤ outLimit s)
    (ha : ∀ j, j < n → a ≠ (outRegion s).addr (s.outCount.toNat + j)) :
    (copyMatch d n s).mem.read a = s.mem.read a := by
  induction n generalizing s with
  | zero => rfl
  | succ n ih =>
    have hfirst : a ≠ (outRegion s).addr s.outCount.toNat := ha 0 n.succ_pos
    rw [copyMatch, ih (wf_emit h) (outCount_emit_add_le ho), read_emit h, if_neg hfirst]
    intro j hj
    rw [outRegion_emit, emit_outCount_toNat (by omega), Nat.add_assoc, Nat.add_comm 1 j]
    exact ha (j + 1) (Nat.succ_lt_succ hj)

/-- A match copy leaves the output before it as it was. -/
theorem readByte_copyMatch_of_lt {d n i : Nat} {s : State} (h : s.mem.wf = true) (hr : (outRegion s).inside)
    (ho : s.outCount.toNat + n ≤ outLimit s) (hi : i < s.outCount.toNat) :
    readByte (copyMatch d n s) (outRegion s) i = readByte s (outRegion s) i := by
  refine read_copyMatch_of_ne h ho fun j hj he => ?_
  unfold outLimit at ho
  have := Region.addr_inj hr (by omega) (by omega) he
  omega

/-- The first byte of a match is the one a distance back in the output, and the rest of the copy keeps it. -/
theorem readByte_copyMatch_first {d n : Nat} {s : State} (h : s.mem.wf = true) (hr : (outRegion s).inside)
    (ho : s.outCount.toNat + (n + 1) ≤ outLimit s) :
    readByte (copyMatch d (n + 1) s) (outRegion s) s.outCount.toNat
      = readByte s (outRegion s) (s.outCount.toNat - d) := by
  have hc := emit_outCount_toNat (v := readByte s (outRegion s) (s.outCount.toNat - d)) (s := s) (by omega)
  refine (readByte_copyMatch_of_lt (wf_emit h) hr (outCount_emit_add_le ho) (by omega)).trans ?_
  rw [readByte, read_emit h, outRegion_emit, if_pos rfl]

/-- After the copy each byte of the match is the one a distance behind it: the byte it was read from is not written
again. -/
theorem readByte_copyMatch_behind {d n j : Nat} {s : State} (h : s.mem.wf = true) (hr : (outRegion s).inside)
    (hd : 1 ≤ d) (hdo : d ≤ s.outCount.toNat) (ho : s.outCount.toNat + n ≤ outLimit s) (hj : j < n) :
    readByte (copyMatch d n s) (outRegion s) (s.outCount.toNat + j)
      = readByte (copyMatch d n s) (outRegion s) (s.outCount.toNat + j - d) := by
  induction n generalizing j s with
  | zero => cases hj
  | succ n ih =>
    cases j with
    | zero => exact (readByte_copyMatch_first h hr ho).trans (readByte_copyMatch_of_lt h hr ho (by omega)).symm
    | succ j =>
      rw [copyMatch]
      generalize readByte s (outRegion s) (s.outCount.toNat - d) = v
      have hc := emit_outCount_toNat (v := v) (s := s) (by omega)
      have hrest := ih (wf_emit (v := v) h) hr (by omega) (outCount_emit_add_le ho) (Nat.lt_of_succ_lt_succ hj)
      rwa [hc, outRegion_emit, Nat.add_assoc, Nat.add_comm 1 j] at hrest

/-- The match repeats the last `d` bytes of the output before it (44_symbols.md R806). -/
theorem readByte_copyMatch_mod {d n j : Nat} {s : State} (h : s.mem.wf = true) (hr : (outRegion s).inside)
    (hd : 1 ≤ d) (hdo : d ≤ s.outCount.toNat) (ho : s.outCount.toNat + n ≤ outLimit s) (hj : j < n) :
    readByte (copyMatch d n s) (outRegion s) (s.outCount.toNat + j)
      = readByte s (outRegion s) (s.outCount.toNat - d + j % d) := by
  induction j using Nat.strongRecOn with
  | ind j ih =>
    rw [readByte_copyMatch_behind h hr hd hdo ho hj]
    rcases Nat.lt_or_ge j d with hlt | hge
    · rw [readByte_copyMatch_of_lt h hr ho (by omega), Nat.mod_eq_of_lt hlt, Nat.sub_add_comm hdo]
    · rw [Nat.add_sub_assoc hge, ih (j - d) (by omega) (by omega), Nat.mod_eq_sub_mod hge]

/-- Settles O53: the copy's fields, its count, its bytes both ways round, and its frame. -/
theorem matchCopyRepeats : Obligations.MatchCopyRepeats := by
  intro d n s h hr hd hdo ho
  exact ⟨copyMatch_eq d n s, copyMatch_outCount_toNat ho,
    fun _ hj => ⟨readByte_copyMatch_behind h hr hd hdo ho hj, readByte_copyMatch_mod h hr hd hdo ho hj⟩,
    fun _ => read_copyMatch_of_ne h ho⟩

end Sys2Proof.Machine
end

section
/-! The scanline filters (45_filter.md): the Paeth predictor, the reconstructed bytes of a row, the round trip with the
forward filter, and the filter elements. -/

namespace Sys2Proof.Machine

open Sys2Proof.Statements

/-! ### The Paeth predictor -/

/-- Settles O58: the distances of a, b and c from a + b - c are the three that the predictor compares. -/
theorem paethPicksNearest : Obligations.PaethPicksNearest := by
  intro a b c
  have ha : ((a : Int) + b - c - a).natAbs = ((b : Int) - c).natAbs := by congr 1; ring
  have hb : ((a : Int) + b - c - b).natAbs = ((a : Int) - c).natAbs := by congr 1; ring
  have hc : ((a : Int) + b - c - c).natAbs = ((a : Int) + b - 2 * c).natAbs := by congr 1; ring
  simp only [ha, hb, hc, paeth]
  exact ⟨fun hab hac => if_pos ⟨hab, hac⟩, fun hna hbc => (if_neg hna).trans (if_pos hbc),
    fun hna hnb => (if_neg hna).trans (if_neg hnb)⟩

/-! ### The bytes of a reconstructed row -/

/-- Reconstruction keeps the bytes that are done. -/
theorem getD_reconFrom_of_lt {f : Predictor} {bw : Nat} {prev : Option (List Byte)} {done xs : List Byte} {i : Nat}
    (h : i < done.length) : (reconFrom f bw prev done xs).getD i 0 = done.getD i 0 := by
  induction xs generalizing done with
  | nil => rfl
  | cons x xs ih => rw [reconFrom, ih (by simp; omega), List.getD_append _ _ _ _ h]

/-- Of its own row a prediction reads the left neighbour only (45_filter.md R902). -/
theorem predict_congr {f : Predictor} {bw i : Nat} {prev : Option (List Byte)} {row row' : List Byte}
    (h : bw ≤ i → row.getD (i - bw) 0 = row'.getD (i - bw) 0) :
    predict f bw prev row i = predict f bw prev row' i := by
  have hleft : leftByte bw row i = leftByte bw row' i := by
    unfold leftByte
    split
    · next hi => rw [h hi]
    · rfl
  rw [predict, predict, hleft]

/-- The prediction made from the bytes done so far is that of the whole row. -/
theorem predict_reconFrom {f : Predictor} {bw : Nat} {prev : Option (List Byte)} {done xs : List Byte}
    (hbw : 1 ≤ bw) : predict f bw prev (reconFrom f bw prev done xs) done.length
      = predict f bw prev done done.length :=
  predict_congr fun _ => getD_reconFrom_of_lt (by omega)

/-- A byte still to be done becomes its scanline byte plus the prediction in the finished row. -/
theorem getD_reconFrom_add {f : Predictor} {bw i : Nat} {prev : Option (List Byte)} {done xs : List Byte}
    (hbw : 1 ≤ bw) (hi : i < xs.length) :
    (reconFrom f bw prev done xs).getD (done.length + i) 0
      = xs.getD i 0 + BitVec.ofNat 8 (predict f bw prev (reconFrom f bw prev done xs) (done.length + i)) := by
  induction xs generalizing done i with
  | nil => cases hi
  | cons x xs ih =>
    cases i with
    | zero =>
      rw [Nat.add_zero, predict_reconFrom hbw, reconFrom, getD_reconFrom_of_lt (by simp)]
      simp [BitVec.ofNat_add]
    | succ i =>
      have hrest := ih (done := done ++ [BitVec.ofNat 8 (x.toNat + predict f bw prev done done.length)])
        (Nat.lt_of_succ_lt_succ hi)
      rwa [List.length_append, List.length_singleton, Nat.add_assoc, Nat.add_comm 1 i] at hrest

/-- R903 in machine bytes: the scanline byte plus the prediction from the reconstructed row. -/
theorem getD_reconBytes {f : Predictor} {bw i : Nat} {prev : Option (List Byte)} {scan : List Byte}
    (hbw : 1 ≤ bw) (hi : i < scan.length) :
    (reconBytes f bw prev scan).getD i 0
      = scan.getD i 0 + BitVec.ofNat 8 (predict f bw prev (reconBytes f bw prev scan) i) := by
  have h := getD_reconFrom_add (f := f) (prev := prev) (done := []) hbw hi
  rwa [List.length_nil, Nat.zero_add] at h

/-- Settles O57: a byte's sum with its prediction, read as a number. -/
theorem reconstructedByte : Obligations.ReconstructedByte := by
  intro f bw prev scan i hbw hi
  refine ⟨length_reconBytes f bw prev scan, ?_⟩
  rw [getD_reconBytes hbw hi, BitVec.toNat_add, BitVec.toNat_ofNat, Nat.add_mod_mod]
  cases prev <;> rfl

/-! ### The round trip -/

@[simp] theorem length_filterBytes (f : Predictor) (bw : Nat) (prev : Option (List Byte)) (raw : List Byte) :
    (filterBytes f bw prev raw).length = raw.length := by simp [filterBytes]

theorem getD_filterBytes {f : Predictor} {bw i : Nat} {prev : Option (List Byte)} {raw : List Byte}
    (hi : i < raw.length) :
    (filterBytes f bw prev raw).getD i 0 = raw.getD i 0 - BitVec.ofNat 8 (predict f bw prev raw i) := by
  simp [filterBytes, hi]

/-- Two rows of bytes are equal when they have one length and agree at every place. -/
theorem bytes_ext {xs ys : List Byte} (hlen : xs.length = ys.length)
    (h : ∀ i, i < ys.length → xs.getD i 0 = ys.getD i 0) : xs = ys := by
  refine List.ext_getElem hlen fun i hx hy => ?_
  have hi := h i hy
  rwa [List.getD_eq_getElem _ _ hx, List.getD_eq_getElem _ _ hy] at hi

theorem filterBytes_reconBytes {f : Predictor} {bw : Nat} {prev : Option (List Byte)} {row : List Byte}
    (hbw : 1 ≤ bw) : filterBytes f bw prev (reconBytes f bw prev row) = row := by
  refine bytes_ext (by simp) fun i hi => ?_
  rw [getD_filterBytes (by simpa using hi), getD_reconBytes hbw hi, BitVec.add_sub_cancel]

/-- By strong induction along the row: the left neighbour is already the raw one, so the prediction is that which the
filter subtracted. -/
theorem reconBytes_filterBytes {f : Predictor} {bw : Nat} {prev : Option (List Byte)} {row : List Byte}
    (hbw : 1 ≤ bw) : reconBytes f bw prev (filterBytes f bw prev row) = row := by
  refine bytes_ext (by simp) fun i hi => ?_
  induction i using Nat.strongRecOn with
  | ind i ih =>
    have hpred : predict f bw prev (reconBytes f bw prev (filterBytes f bw prev row)) i = predict f bw prev row i :=
      predict_congr fun _ => ih (i - bw) (by omega) (by omega)
    rw [getD_reconBytes hbw (by simpa using hi), hpred, getD_filterBytes hi, BitVec.sub_add_cancel]

/-- Settles O59: each direction, byte by byte. -/
theorem filterRoundTrip : Obligations.FilterRoundTrip := fun _ _ _ _ hbw =>
  ⟨filterBytes_reconBytes hbw, reconBytes_filterBytes hbw⟩

/-! ### The next row, the next pass or the end -/

theorem nextPass_of_first {p : Params} {q r : Nat} (hq : q ≤ r) (hr : r < 7) (hne : p.emptyPass r = false)
    (hbetween : ∀ k, q ≤ k → k < r → p.emptyPass k = true) : nextPass p q = some r := by
  cases hn : nextPass p q with
  | none => simp [nextPass_eq_none hn r hq hr] at hne
  | some r' =>
    obtain ⟨hq', -, hne', hbetween'⟩ := nextPass_eq_some hn
    rcases Nat.lt_trichotomy r r' with hlt | rfl | hlt
    · simp [hbetween' r hq hlt] at hne
    · rfl
    · simp [hbetween r' hq' hlt] at hne'

theorem nextPass_of_all_empty {p : Params} {q : Nat} (h : ∀ k, q ≤ k → k < 7 → p.emptyPass k = true) :
    nextPass p q = none := by
  cases hn : nextPass p q with
  | none => rfl
  | some r =>
    obtain ⟨hq, hr, hne, -⟩ := nextPass_eq_some hn
    simp [h r hq hr] at hne

theorem nextRow_of_lt {row : List Byte} {s : State} (h : s.y + 1 < s.snap.rowCount s.p) :
    nextRow row s = { s with y := s.y + 1, prev := some row } := if_pos h

theorem nextRow_of_image_end {row : List Byte} {s : State} (h : s.snap.rowCount s.p ≤ s.y + 1) (hp : s.p = 7) :
    nextRow row s = complete s := by
  rw [nextRow, if_neg (Nat.not_lt.mpr h), if_neg (Nat.not_lt.mpr hp.ge)]

theorem nextRow_of_next_pass {row : List Byte} {s : State} {q : Nat} (h : s.snap.rowCount s.p ≤ s.y + 1)
    (hp : s.p < 7) (hnext : nextPass s.snap (s.p + 1) = some q) :
    nextRow row s = { s with p := q, y := 0, prev := none } := by
  rw [nextRow, if_neg (Nat.not_lt.mpr h), if_pos hp, seekPass, hnext]

theorem nextRow_of_no_pass {row : List Byte} {s : State} (h : s.snap.rowCount s.p ≤ s.y + 1) (hp : s.p < 7)
    (hnone : nextPass s.snap (s.p + 1) = none) : nextRow row s = complete s := by
  rw [nextRow, if_neg (Nat.not_lt.mpr h), if_pos hp, seekPass, hnone]

/-! ### A filter element -/

/-- Each filter type's meaning is the shared one, with the type's own predictor (45_filter.md R910 to R914). -/
theorem exec_of_filterRows {i : Instr} {f : Predictor} (h : (i, f) ∈ filterRows) (s : State) :
    exec i s = .next (filterElement f s) := by
  have hrows : filterRows.map (fun r => exec r.1 s) = filterRows.map (fun r => .next (filterElement r.2 s)) := rfl
  exact List.map_inj_left.mp hrows _ h

/-- A filter element stores the row in memory, then goes on from there (45_filter.md R904). -/
theorem filterElement_eq (f : Predictor) (s : State) :
    filterElement f s = nextRow (reconRow f s)
      { s with mem := (writeBytes s.snap.dst (rasterOffset s) 0 (reconRow f s) s).mem } := by
  rw [filterElement, ← writeBytes_eq]

/-- Settles O55: the row's frame, and where the next-row rule leads in each case. -/
theorem filterElements : Obligations.FilterElements := by
  intro i f s hi hwf
  rw [exec_of_filterRows hi, filterElement_eq, reconRow]
  refine ⟨fun a ha => read_writeBytes_of_ne hwf fun j _ hj => ha j (by simpa using hj),
    fun hrow => congrArg _ (nextRow_of_lt hrow), fun hlast hp => congrArg _ (nextRow_of_image_end hlast hp),
    fun q hlast hpq hq hne hbetween => ?_, fun hlast hp hempty => ?_⟩
  · exact congrArg _ (nextRow_of_next_pass hlast (hpq.trans hq) (nextPass_of_first hpq hq hne hbetween))
  · exact congrArg _ (nextRow_of_no_pass hlast hp (nextPass_of_all_empty hempty))

end Sys2Proof.Machine
end

section
/-! The Adam7 passes (46_interlace.md): the pass dimensions as one quotient, the pass that holds a pixel, and the
partition of the image. -/

namespace Sys2Proof.Machine

open Sys2Proof.Statements

/-! ### The points of one axis -/

/-- The dimension of R1001 as one quotient: a start inside the first step leaves nothing to cut off. -/
theorem ceil_of_start_lt_step {n start step : Nat} (h : start < step) :
    (if n > start then (n - start + step - 1) / step else 0) = (n + (step - 1 - start)) / step := by
  split
  · next hn => congr 1; omega
  · next hn => exact (Nat.div_eq_of_lt (by omega)).symm

theorem lt_ceil_of_point_lt {n start step k : Nat} (h : start < step) (hk : start + k * step < n) :
    k < (n + (step - 1 - start)) / step := by
  rw [Nat.lt_iff_add_one_le, Nat.le_div_iff_mul_le (by omega), Nat.add_one_mul]
  omega

/-- A coordinate is a point of an axis when its remainder is the start; the quotient then says which point. -/
theorem eq_point_iff {x start step k : Nat} (h : start < step) :
    x = start + k * step ↔ x % step = start ∧ x / step = k := by
  rw [and_comm, Nat.div_mod_unique (by omega), Nat.mul_comm step]
  exact ⟨fun hx => ⟨hx.symm, h⟩, fun hx => hx.1.symm⟩

/-- The even and the odd points of step d, those of step 2 * d from 0 and from d, are together the points of step d. -/
theorem ceil_even_add_ceil_odd (n : Nat) {d : Nat} (hd : 0 < d) :
    (n + (2 * d - 1)) / (2 * d) + (n + (d - 1)) / (2 * d) = (n + (d - 1)) / d := by
  have heven : n + (2 * d - 1) = n + (d - 1) + d := by omega
  rw [heven, Nat.mul_comm 2 d, ← Nat.div_div_eq_div_mul, ← Nat.div_div_eq_div_mul, Nat.add_div_right _ hd]
  omega

/-! ### The dimensions of a pass -/

theorem adam7_startX_lt (q : Nat) : (adam7 q).startX < (adam7 q).dx := by
  unfold adam7
  split <;> decide

theorem adam7_startY_lt (q : Nat) : (adam7 q).startY < (adam7 q).dy := by
  unfold adam7
  split <;> decide

theorem adam7_of_mem_passRows {p : Nat} {g : Lattice} (h : (p, g) ∈ passRows) : adam7 p = g := by
  have hrows : ∀ r ∈ passRows, adam7 r.1 = r.2 := by decide
  exact hrows _ h

theorem passWidth_eq (w q : Nat) :
    passWidth w q = (w + ((adam7 q).dx - 1 - (adam7 q).startX)) / (adam7 q).dx :=
  ceil_of_start_lt_step (adam7_startX_lt q)

theorem passHeight_eq (h q : Nat) :
    passHeight h q = (h + ((adam7 q).dy - 1 - (adam7 q).startY)) / (adam7 q).dy :=
  ceil_of_start_lt_step (adam7_startY_lt q)

theorem lt_passWidth {w q x : Nat} (h : (adam7 q).startX + x * (adam7 q).dx < w) : x < passWidth w q := by
  rw [passWidth_eq]
  exact lt_ceil_of_point_lt (adam7_startX_lt q) h

theorem lt_passHeight {h q y : Nat} (hy : (adam7 q).startY + y * (adam7 q).dy < h) : y < passHeight h q := by
  rw [passHeight_eq]
  exact lt_ceil_of_point_lt (adam7_startY_lt q) hy

/-- The pixels of the passes are those of the image: pass by pass, the columns or the rows of the passes so far are
the even ones of a finer step, and the next pass holds the odd ones. -/
theorem sum_passWidth_mul_passHeight (w h : Nat) :
    ((List.range 7).map fun p => passWidth w p * passHeight h p).sum = w * h := by
  have h8 (n : Nat) : (n + 7) / 8 + (n + 3) / 8 = (n + 3) / 4 := ceil_even_add_ceil_odd n (d := 4) (by decide)
  have h4 (n : Nat) : (n + 3) / 4 + (n + 1) / 4 = (n + 1) / 2 := ceil_even_add_ceil_odd n (d := 2) (by decide)
  have h2 (n : Nat) : (n + 1) / 2 + n / 2 = n := by simpa using ceil_even_add_ceil_odd n (d := 1) (by decide)
  calc ((List.range 7).map fun p => passWidth w p * passHeight h p).sum
      = (w + 7) / 8 * ((h + 7) / 8) + (w + 3) / 8 * ((h + 7) / 8) + (w + 3) / 4 * ((h + 3) / 8)
          + (w + 1) / 4 * ((h + 3) / 4) + (w + 1) / 2 * ((h + 1) / 4) + w / 2 * ((h + 1) / 2) + w * (h / 2) := by
        simp [List.range_succ, passWidth_eq, passHeight_eq, adam7, Nat.add_assoc]
    _ = w * h := by
        rw [← Nat.add_mul, h8 w, ← Nat.mul_add, h8 h, ← Nat.add_mul, h4 w, ← Nat.mul_add, h4 h, ← Nat.add_mul, h2 w,
          ← Nat.mul_add, h2 h]

/-! ### The pass of a pixel -/

/-- The pass that holds the pixel (x, y), from the finest lattice to the coarsest. -/
def passOf (x y : Nat) : Nat :=
  if y % 2 = 1 then 6
  else if x % 2 = 1 then 5
  else if y % 4 = 2 then 4
  else if x % 4 = 2 then 3
  else if y % 8 = 4 then 2
  else if x % 8 = 4 then 1
  else 0

theorem passOf_lt (x y : Nat) : passOf x y < 7 := by
  unfold passOf
  split_ifs <;> decide

/-- The seven lattices partition every 8 × 8 tile (46_interlace.md R1002). -/
theorem passOf_eq_iff {x y q : Nat} (hq : q < 7) :
    passOf x y = q ↔ x % (adam7 q).dx = (adam7 q).startX ∧ y % (adam7 q).dy = (adam7 q).startY := by
  constructor
  · rintro rfl
    unfold passOf
    split_ifs <;> simp only [adam7] <;> omega
  · rintro ⟨hx, hy⟩
    unfold passOf
    interval_cases q <;> simp only [adam7] at hx hy <;> split_ifs <;> omega

/-- Settles O60: the dimensions by R1001's formula, the pixels by the sum over the passes, and the pass of a pixel by
the remainders of its coordinates. -/
theorem passesPartitionImage : Obligations.PassesPartitionImage := by
  refine fun w h => ⟨fun p g hrow => ?_, sum_passWidth_mul_passHeight w h, fun x y hx hy => ?_⟩
  · obtain rfl := adam7_of_mem_passRows hrow
    have hdx := Nat.add_sub_assoc (Nat.one_le_of_lt (adam7_startX_lt p)) (w - (adam7 p).startX)
    have hdy := Nat.add_sub_assoc (Nat.one_le_of_lt (adam7_startY_lt p)) (h - (adam7 p).startY)
    exact ⟨rfl, by rw [← hdx]; rfl, by rw [← hdy]; rfl⟩
  · obtain ⟨hxmod, hymod⟩ := (passOf_eq_iff (passOf_lt x y)).mp rfl
    have hxp := (eq_point_iff (adam7_startX_lt _)).mpr ⟨hxmod, rfl⟩
    have hyp := (eq_point_iff (adam7_startY_lt _)).mpr ⟨hymod, rfl⟩
    refine ⟨passOf x y, _, _, ⟨passOf_lt x y, lt_passWidth (hxp ▸ hx), lt_passHeight (hyp ▸ hy), hxp, hyp⟩,
      fun q qx qy hq hxq hyq => ?_⟩
    obtain ⟨hxmod', rfl⟩ := (eq_point_iff (adam7_startX_lt q)).mp hxq
    obtain ⟨hymod', rfl⟩ := (eq_point_iff (adam7_startY_lt q)).mp hyq
    obtain rfl := (passOf_eq_iff hq).mpr ⟨hxmod', hymod'⟩
    exact ⟨rfl, rfl, rfl⟩

end Sys2Proof.Machine
end

section
/-! The raise of an error, the codes of the causes and the interrupt output (60_exceptions.md). -/

namespace Sys2Proof.Machine

open Sys2Proof.Statements

/-! ### raise Error -/

/-- Settles O18: the fields by the equation of a raise, memory by its frame. -/
theorem raiseErrorEndsCommand : Obligations.RaiseErrorEndsCommand := fun c info s =>
  ⟨(raiseError c info s).mem, (raiseError c info s).draws, raiseError_eq c info s,
    fun hidle => raiseError_mem_of_idle hidle c info,
    fun hm hr => ⟨wf_raiseError hm, fun _ ha => read_raiseError hm hr ha⟩⟩

/-! ### The causes -/

theorem Cause.mem_all (c : Cause) : c ∈ Cause.all := by
  cases c <;> decide

theorem Cause.nodup_map_word_all : (Cause.all.map Cause.word).Nodup := by decide

/-- Settles O20: the codes by evaluation of the list of all causes, in which no code comes twice. -/
theorem causeCodes : Obligations.CauseCodes :=
  ⟨by decide, Cause.mem_all, fun c e => List.inj_on_of_nodup_map Cause.nodup_map_word_all c.mem_all e.mem_all⟩

/-! ### The interrupt output -/

theorem irq_iff (s : State) : irq s = true ↔ s.irqEn = true ∧ (s.status.done = true ∨ s.status.err = true) := by
  simp [irq]

theorem irq_complete (s : State) : irq (complete s) = s.irqEn := by
  simp [irq]

theorem irq_raiseError (c : Cause) (info : Word) (s : State) : irq (raiseError c info s) = s.irqEn := by
  simp [irq]

/-- IGN is no term of the output. -/
theorem irq_ignoreWrite (s : State) : irq (ignoreWrite s) = irq s := rfl

theorem irq_startSequence (c : Command) (s : State) : irq (startSequence c s) = false :=
  Bool.and_false s.irqEn

/-- The host clears DONE and ERR together. -/
theorem irq_writeReg_status (s : State) : irq (writeReg 0x0C 0x6 s) = false := by
  simp [irq, writeReg_status, Status.clear]

theorem irq_writeReg_ctrl {s : State} (hb : s.status.busy = false) (v : Word) :
    irq (writeReg 0x04 v s) = (v.getLsbD 1 && (s.status.done || s.status.err)) := by
  rw [writeReg_of_isConfig (by rfl) hb]
  rfl

/-- Settles O21: the output's formula, then its value after each event that can move it. -/
theorem interruptOutput : Obligations.InterruptOutput :=
  ⟨irq_iff, irq_complete, irq_raiseError, irq_ignoreWrite, irq_startSequence, irq_writeReg_status,
    fun _ v hb => irq_writeReg_ctrl hb v⟩

end Sys2Proof.Machine
end

section
/-! No behaviour of the CORE hangs (70_reset_and_hazards.md R1221): every step answers a next state, and a command left
to itself ends within the work it has left. -/

namespace Sys2Proof.Machine

open Sys2Proof.Statements

/-! ### Every step answers -/

theorem step_of_empty_queue {s : State} (hn : HostNext s) (hq : s.hostQueue = []) : step s = .next (takeTurn s) := by
  refine step_of_quiet ?_
  rw [nextTurn_of_hostNext hn, hostTurn, show (takeTurn s).hostQueue = [] from hq]

/-- The delivery of an access answers: the command it runs does, or it is no instruction. -/
theorem exists_step_of_delivers {s : State} {a : HostAccess} {q : List HostAccess} (h : Invariant s)
    (hd : HostDelivers s a q) : ∃ t, step s = .next t := by
  have hturn := nextTurn_of_delivers hd
  have hq : Invariant (taken s q) := h.takeTurn.withBus q _ _ _
  rcases deliver_cases a hq with ⟨v, hv⟩ | ⟨t, ht, -⟩
  · obtain ⟨t, ht, -⟩ := exec_decodeCmd hq v.toNat
    exact ⟨t, (step_of_run (hturn.trans hv)).trans ht⟩
  · exact ⟨t, step_of_quiet (hturn.trans ht)⟩

theorem exists_step_of_hostNext {s : State} (h : Invariant s) (hn : HostNext s) : ∃ t, step s = .next t := by
  cases hq : s.hostQueue with
  | nil => exact ⟨_, step_of_empty_queue hn hq⟩
  | cons a q => exact exists_step_of_delivers h ⟨hn, hq⟩

/-- Undisturbed, the engine's step takes the command on. -/
theorem exists_step_of_engineNext {s : State} (h : Invariant s) (hn : EngineNext s) :
    ∃ t, step s = .next t ∧ Advance (-1) (takeTurn s) t := by
  obtain ⟨hb, habort, hrace, hs⟩ := hn
  refine (goesOn_fetchElement h.takeTurn hb).exists_step ?_
  rw [nextTurn_of_not_hostNext (not_hostNext hb hs)]
  simp [engineTurn, takeTurn, hb, hrace, habort]

/-- The engine's step of a running command answers, whether a race, an ABORT or neither is pending. -/
theorem exists_step_of_busy {s : State} (h : Invariant s) (hb : s.status.busy = true)
    (hs : s.sched.head? ≠ some .host) : ∃ t, step s = .next t := by
  cases hrace : s.raceIn with
  | some n =>
    cases n with
    | zero => exact ⟨_, step_of_raceEnd hb hs hrace⟩
    | succ n => exact ⟨_, step_of_raceTick hb hs hrace⟩
  | none =>
    cases habort : s.abortIn with
    | some n =>
      cases n with
      | zero =>
        obtain ⟨upTo, u, hstep, -⟩ := step_of_abortStop h hb hs hrace habort
        exact ⟨_, hstep⟩
      | succ n =>
        obtain ⟨t, hstep, -⟩ := step_of_abortTick h hb hs hrace habort
        exact ⟨t, hstep⟩
    | none =>
      obtain ⟨t, hstep, -⟩ := exists_step_of_engineNext h ⟨hb, habort, hrace, hs⟩
      exact ⟨t, hstep⟩

/-- Settles O35: the host's turn answers, and the engine's while idle and in every state of a running command. -/
theorem stepAlwaysAnswers : Obligations.StepAlwaysAnswers := by
  intro s h
  by_cases hn : HostNext s
  · exact exists_step_of_hostNext h hn
  cases hb : s.status.busy with
  | false => exact ⟨_, step_of_idle_engine hn hb⟩
  | true => exact exists_step_of_busy h hb fun hs => hn (.inl hs)

/-! ### The work left of a running command -/

theorem Invariant.inflate_or_reconstruct {s : State} (h : Invariant s) (hb : s.status.busy = true) :
    s.engine.stage = .inflate ∨ s.engine = .reconstruct := by
  have hidle := h.not_idle hb
  cases he : s.engine with
  | idle => exact absurd he hidle
  | reconstruct => exact .inr rfl
  | zhdr | blockHeader | stored | dynHeader | symbols | streamEnd | ztrailer => exact .inl rfl

theorem workLeft_reconstruct {s : State} (he : s.engine = .reconstruct) : workLeft s = rowsLeft s := by
  rw [workLeft, he]

theorem RowInv.rowsLeft_pos {s : State} (h : RowInv s) : 0 < rowsLeft s := by
  have hrow := h.row
  rw [rowsLeft]
  omega

/-- The rows still to do are rows of the image: those of pass p and the passes after it, or of the image itself. -/
theorem RowInv.rowsLeft_le {s : State} (h : RowInv s) : rowsLeft s ≤ imageRows s.snap := by
  obtain ⟨hle, hpass⟩ := h.pass
  rw [rowsLeft]
  rcases Nat.lt_or_eq_of_le hle with hp | hp
  · have hrows := rowsAfter_le_imageRows hp (hpass.mp hp)
    omega
  · have hafter : rowsAfter s.snap 7 = 0 := by simp [rowsAfter, List.range_succ]
    have hwhole : s.snap.interlace ≠ 1 := fun hi => (hpass.mpr hi).ne hp
    rw [imageRows, if_neg hwhole, hp, hafter]
    omega

theorem Invariant.workLeft_pos {s : State} (h : Invariant s) (hb : s.status.busy = true) : 0 < workLeft s := by
  rcases h.inflate_or_reconstruct hb with hi | he
  · have hlow := (workLeft_inflate hi).1
    omega
  · obtain ⟨-, -, hrow⟩ := h.reconstructing he
    rw [workLeft_reconstruct he]
    exact hrow.rowsLeft_pos

/-- The stream and the image bound the work left. -/
theorem Invariant.workLeft_le {s : State} (h : Invariant s) (hb : s.status.busy = true) :
    workLeft s ≤ 2 * totalBits s + imageRows s.snap + 2 := by
  rcases h.inflate_or_reconstruct hb with hi | he
  · have hhigh := (workLeft_inflate hi).2
    omega
  · obtain ⟨-, -, hrow⟩ := h.reconstructing he
    have hrows := hrow.rowsLeft_le
    rw [workLeft_reconstruct he]
    omega

/-! ### A command left to itself ends -/

/-- By induction on a bound n of the work left: each step ends the command or leaves it less work. -/
theorem exists_steps_of_workLeft_le {s : State} {n : Nat} (h : Invariant s) (hn : EngineNext s) (hs : s.sched = [])
    (hw : workLeft s ≤ n) :
    ∃ k t, k ≤ n ∧ steps k s = some t ∧ t.status.busy = false ∧ t.status.done = !t.status.err := by
  induction n generalizing s with
  | zero => exact absurd (h.workLeft_pos hn.1) (by omega)
  | succ n ih =>
    obtain ⟨t, hstep, hA⟩ := exists_step_of_engineNext h hn
    rw [takeTurn_of_sched_nil hs] at hA
    cases hbt : t.status.busy with
    | false => exact ⟨1, t, by omega, steps_succ hstep 0, hbt, hA.ended hbt⟩
    | true =>
      obtain ⟨-, habort, hrace, -⟩ := hn
      obtain ⟨-, -, hkeepsAbort, hkeepsRace⟩ := hA.same hbt
      have hsched : t.sched = [] := hA.bus.1.trans hs
      have hwork := hA.work hbt
      obtain ⟨k, u, hk, hsteps, hend⟩ := ih hA.inv
        ⟨hbt, hkeepsAbort.trans habort, hkeepsRace.trans hrace, by rw [hsched]; nofun⟩ hsched (by omega)
      exact ⟨k + 1, u, by omega, (steps_succ hstep k).trans hsteps, hend⟩

/-- Settles O38: the command ends within the work it has left, which its stream and its image bound. -/
theorem everyCommandEnds : Obligations.EveryCommandEnds := fun _ h hn hs =>
  exists_steps_of_workLeft_le h hn hs (h.workLeft_le hn.1)

end Sys2Proof.Machine
end

section
/-! Register writes while a command runs, and the reset input (70_reset_and_hazards.md R1200, R1201, R1210). -/

namespace Sys2Proof.Machine

open Sys2Proof.Statements

/-! ### Register writes -/

theorem isConfig_iff_mem {off : Nat} : isConfig off = true ↔ off ∈ configMasks.map Prod.fst :=
  List.contains_iff_mem

theorem writeReg_of_isConfig_of_busy {off : Nat} {s : State} (ho : isConfig off = true) (hb : s.status.busy = true)
    (v : Word) : writeReg off v s = ignoreWrite s := by
  have hstat : off ≠ 0x0C := by
    rintro rfl
    cases ho
  rw [writeReg, if_neg hstat, if_pos ho, if_pos hb]

theorem writeReg_of_not_isConfig {off : Nat} (ho : isConfig off ≠ true) (hstat : off ≠ 0x0C) (v : Word) (s : State) :
    writeReg off v s = s := by
  rw [writeReg, if_neg hstat, if_neg ho]

/-- With no DONE and no ERR to clear, a write of STATUS reaches IGN alone. -/
theorem Status.clear_of_running {f : Status} (hd : f.done = false) (he : f.err = false) (v : Word) :
    f.clear v = { f with ign := f.ign && !v.getLsbD 3 } := by
  obtain ⟨busy, done, err, ign, stage⟩ := f
  cases hd
  cases he
  rfl

theorem writeReg_status_of_running {s : State} (hd : s.status.done = false) (he : s.status.err = false) (v : Word) :
    writeReg 0x0C v s = { s with status := { s.status with ign := s.status.ign && !v.getLsbD 3 } } := by
  rw [writeReg_status, Status.clear_of_running hd he]

/-- Settles O25: the step that delivers the write is the write, by the kind of its offset. -/
theorem registerWritesWhileBusy : Obligations.RegisterWritesWhileBusy := by
  intro s off v q hd hal
  have hsup : supported off 4 = true := by simp [supported, hal]
  refine ⟨fun hb hm => ?_, fun _ hstat hdone herr => ?_, fun hm hstat hcmd => ?_⟩
  · have hc := isConfig_iff_mem.mpr hm
    have hcmd : off ≠ 0x08 := by
      rintro rfl
      cases hc
    rw [step_regWrite hd hsup hcmd, writeReg_of_isConfig_of_busy (s := taken s q) hc hb]
    rfl
  · subst hstat
    rw [step_regWrite hd hsup (by decide)]
    exact congrArg Host.Outcome.next (writeReg_status_of_running (s := taken s q) hdone herr v)
  · have hne : off.toNat ≠ 0x0C := fun he => hstat (BitVec.eq_of_toNat_eq he)
    rw [step_regWrite hd hsup hcmd, writeReg_of_not_isConfig (mt isConfig_iff_mem.mp hm) hne]

/-! ### The reset input -/

theorem step_reset {s : State} {q : List HostAccess} (h : HostDelivers s .reset q) :
    step s = .next (resetEvent (taken s q)) :=
  step_of_quiet (nextTurn_of_delivers h)

theorem regValue_resetEvent (off : Nat) (s : State) : regValue off (resetEvent s) = regValue off State.reset := rfl

theorem resetEvent_mem (s : State) :
    (resetEvent s).mem = if s.status.busy then (forgetRegions (writtenRegions s.cmd s.snap) s).mem else s.mem :=
  apply_ite State.mem _ _ _

theorem resetEvent_mem_of_idle {s : State} (hb : s.status.busy = false) : (resetEvent s).mem = s.mem := by
  rw [resetEvent_mem, if_neg (by simp [hb])]

/-- A reset forgets no byte but those the command it abandons writes. -/
theorem read_resetEvent {s : State} (h : Invariant s) {a : Nat} (ha : Outside (writtenRegions s.cmd s.snap) a) :
    (resetEvent s).mem.read a = s.mem.read a := by
  cases hb : s.status.busy with
  | false => rw [resetEvent_mem_of_idle hb]
  | true =>
    rw [resetEvent_mem, if_pos hb]
    exact read_forgetRegions h.memory (h.regions_inside hb).2 ha

/-- Settles O31: the registers are those of the reset state, and memory has its frame. -/
theorem resetInput : Obligations.ResetInput := fun s q h hd =>
  have hq : Invariant (taken s q) := h.takeTurn.withBus q _ _ _
  ⟨_, step_reset hd, fun off => regValue_resetEvent off _, rfl, rfl,
    fun hb => resetEvent_mem_of_idle (s := taken s q) hb, fun _ ha => read_resetEvent hq ha⟩

end Sys2Proof.Machine
end
